-- ==== Sys2Proof/Word.lean ====
section
/-! DEFINITION. The word and byte types of the verifier (spec/00_scope.md R13): nothing here is signed. -/
namespace Sys2Proof

/-- A 32-bit unsigned word: a host register, a command word, a SHA-1 hash word (R13, R21, R31). -/
abbrev Word := BitVec 32

/-- A byte, an unsigned value 0..255 (R13). -/
abbrev Byte := BitVec 8

end Sys2Proof
end

