-- ==== Sys2Proof/Config.lean ====
section
/-! DEFINITION. What one engine instance fixes (spec/00_scope.md R11) and the free values: what the spec
leaves open is a constant with no body, so that no proof can use a value of it. -/
namespace Sys2Proof.Config

/-- `N_MOD_MAX`: the largest operand length, in bytes, of the modular commands (R11). -/
def nModMax : Nat := 128

/-- `N_Q`: bytes of the subgroup order, of `r`, of `s` (R11). -/
def nQ : Nat := 20

/-- `N_P`: bytes of the modulus `p`, of `g` and of `y` (R11). -/
def nP : Nat := 128

/-- `KSV_HEADER_SIZE` (R11). -/
def ksvHeaderSize : Nat := 10

/-- `DIGEST_SIZE` (R11). -/
def digestSize : Nat := 20

/-- `SIG_SIZE`: bytes of each of `r` and `s` on the wire (R11). -/
def sigSize : Nat := 20

/-- The size in bytes of the host register block (10_state.md R29). -/
def registerBlockSize : Nat := 64

/-- The OPEN parameters of one engine instance (R11, R42); none changes while the engine runs.
The widths are the bounds R11 gives: `P`, `G`, `Y` are naturals below 2^1024, `Q` below 2^160. -/
structure Params where
  /-- `OM_SIZE`, the size of the operand memory in bytes -/
  omSize : Nat
  /-- `P`, the DSA modulus -/
  p : BitVec 1024
  /-- `Q`, the DSA subgroup order -/
  q : BitVec 160
  /-- `G`, the DSA generator -/
  g : BitVec 1024
  /-- `Y`, the DSA public value -/
  y : BitVec 1024
  /-- `SRM_MIN_HEADER`, in bytes -/
  srmMinHeader : Nat
  deriving DecidableEq, Repr

/-- The constraints on the parameters (R11; spec/92_eei_decisions.md section 1). No property of the
key beyond its widths is assumed (R12). -/
abbrev Params.Legal (k : Params) : Prop :=
  1024 ≤ k.omSize ∧ k.omSize ≤ 2 ^ 31 ∧ k.srmMinHeader + 40 ≤ 2 ^ 31

/-- `P` of the instance that `State.reset` stands for: not given in the source (R11). No body. Log 2. -/
opaque keyP : BitVec 1024

/-- `Q` of that instance: not given in the source (R11). No body. Log 2. -/
opaque keyQ : BitVec 160

/-- `G` of that instance: not given in the source (R11). No body. Log 2. -/
opaque keyG : BitVec 1024

/-- `Y` of that instance: not given in the source (R11). No body. Log 2. -/
opaque keyY : BitVec 1024

/-- What `SRM_MIN_HEADER` of that instance is drawn from. No body. Log 2. -/
opaque srmHeaderDraw : Nat

/-- The parameters of the instance `State.reset` stands for. `OM_SIZE` is the spec's default (R11;
DESIGN CHOICE, log 2); `SRM_MIN_HEADER` can be every value its constraint allows and no other. -/
def params : Params where
  omSize := 8192
  p := keyP
  q := keyQ
  g := keyG
  y := keyY
  srmMinHeader := srmHeaderDraw % (2 ^ 31 - 39)

/-- FREE VALUE: the byte of `OM` at `addr` that nothing has written since hardware reset number
`resets` (R41: "each byte holds some definite value the model must not constrain"). No body. Log 3. -/
opaque resetByte (resets addr : Nat) : Byte

/-- FREE VALUE: the byte at `addr` of a range written by the partly overlapping command number `use`
(40_byte_array.md R128: "the bytes of the written range are unspecified afterwards"). No body. Log 5. -/
opaque overlapByte (use addr : Nat) : Byte

/-- FREE VALUE: what the returned carry of the partly overlapping command number `use` is drawn from
(the spec states no `RETVAL` there). No body. Log 6. -/
opaque overlapCarry (use : Nat) : Byte

end Sys2Proof.Config
end

