-- ==== Sys2Proof/Syntax.lean ====
section
/-! DEFINITION. The command set (spec/30_encoding.md R100): one constructor per row of
spec/opcode_table.json, with the operands of R93 in their order. -/
namespace Sys2Proof

/-- A command with its operands: an address or a length is a whole `ARG` register (R95, R96), a byte
operand the low byte of one (R94). -/
inductive Instr where
  /-- COPY, R121 -/
  | copy (dst src n : Word)
  /-- FILL, R122 -/
  | fill (dst : Word) (value : Byte) (n : Word)
  /-- REV, R123 -/
  | rev (buf n : Word)
  /-- CMP, R124 -/
  | cmp (a b n : Word)
  /-- ALLEQ, R125 -/
  | alleq (a : Word) (value : Byte) (n : Word)
  /-- ADDC, R126 -/
  | addc (out a b n : Word)
  /-- SUBB, R127 -/
  | subb (out a b n : Word)
  /-- SHA_RESET, R141 -/
  | shaReset
  /-- SHA_INPUT, R142 -/
  | shaInput (data length : Word)
  /-- SHA_RESULT, R147 -/
  | shaResult (out : Word)
  /-- MAC, R171 -/
  | mac (window a : Word) (scalar : Byte) (n : Word)
  /-- MUL, R172 -/
  | mul (out a b n : Word)
  /-- DIV, R174 -/
  | div (out dividend divisor n : Word)
  /-- MODRED, R191 -/
  | modred (out value modulus n vlen : Word)
  /-- MODMUL, R193 -/
  | modmul (out a b modulus n : Word)
  /-- MODEXP, R194 -/
  | modexp (out base exponent modulus n exponentN : Word)
  /-- MODINV, R196 -/
  | modinv (out value modulus n : Word)
  /-- DSAVFY, R221 -/
  | dsavfy (message mlen r sig : Word)
  /-- KSVVFY, R236 -/
  | ksvvfy (blob blen : Word)
  /-- SRMVFY, R238 -/
  | srmvfy (blob blen : Word)
  deriving DecidableEq, Repr

end Sys2Proof
end

