-- ==== Sys2Proof/WellFormed.lean ====
section
/-! DEFINITION. Which commands are well formed: those whose length operands are legal values
(spec/30_encoding.md R96). An ill-formed command still runs: it ends with `BADARG`. -/
namespace Sys2Proof

/-- The length `n` of the utilities, MAC, MUL and DIV: `n ≥ 1` (R96). -/
def wfLength (n : Word) : Bool := 1 ≤ n.toNat

/-- A length of the modular commands, with its upper limit (R96). -/
def wfLengthUpTo (limit : Nat) (n : Word) : Bool := 1 ≤ n.toNat && n.toNat ≤ limit

/-- The length operands are legal (R96); the lengths of SHA_INPUT and of the verifying commands may be
any value. -/
def Instr.wellFormed : Instr → Bool
  | .copy _ _ n => wfLength n
  | .fill _ _ n => wfLength n
  | .rev _ n => wfLength n
  | .cmp _ _ n => wfLength n
  | .alleq _ _ n => wfLength n
  | .addc _ _ _ n => wfLength n
  | .subb _ _ _ n => wfLength n
  | .shaReset => true
  | .shaInput _ _ => true
  | .shaResult _ => true
  | .mac _ _ _ n => wfLength n
  | .mul _ _ _ n => wfLength n
  | .div _ _ _ n => wfLength n
  | .modred _ _ _ n vlen => wfLengthUpTo Config.nModMax n && wfLengthUpTo (2 * Config.nModMax) vlen
  | .modmul _ _ _ _ n => wfLengthUpTo Config.nModMax n
  | .modexp _ _ _ _ n exponentN => wfLengthUpTo Config.nModMax n && wfLengthUpTo Config.nModMax exponentN
  | .modinv _ _ _ n => wfLengthUpTo Config.nModMax n
  | .dsavfy _ _ _ _ => true
  | .ksvvfy _ _ => true
  | .srmvfy _ _ => true

end Sys2Proof
end

