-- ==== Sys2Proof/Decode.lean ====
section
/-! DEFINITION. The decoder and, after it, the encoder (spec/30_encoding.md R90 to R100). A command's
full encoding is the word written to `CMD` with the six `ARG` registers at that moment (R90). -/
namespace Sys2Proof

/-- Why a word is no command (R98). Raised by `decode`; safe: the machine then ends with `ILLEGAL`. -/
inductive Illegal where
  /-- `W[31:8] ≠ 0`, whatever the opcode -/
  | reservedBits
  /-- `W[31:8] = 0` and `W[7:0]` is no opcode of R100 -/
  | unknownOpcode
  deriving DecidableEq, Repr

/-- The six argument registers at the moment of issue (10_state.md R21). -/
abbrev Args := Vector Word 6

/-- The `OP` field, `W[7:0]` (R90). -/
def opField (w : Word) : Byte := w.extractLsb' 0 8

/-- The `Z` field, `W[31:8]`, which must be 0 (R90). -/
def zField (w : Word) : BitVec 24 := w.extractLsb' 8 24

/-- A byte operand: `ARG[i][7:0]`, the upper bits ignored (R94). -/
def byteOperand (v : Word) : Byte := v.extractLsb' 0 8

/-- The opcode map (R100) with the operand lists of R93; `none` for an opcode it does not list. -/
def decodeOp (op : Nat) (g : Args) : Option Instr :=
  match op with
  | 0x01 => some (.copy g[0] g[1] g[2])
  | 0x02 => some (.fill g[0] (byteOperand g[1]) g[2])
  | 0x03 => some (.rev g[0] g[1])
  | 0x04 => some (.cmp g[0] g[1] g[2])
  | 0x05 => some (.alleq g[0] (byteOperand g[1]) g[2])
  | 0x06 => some (.addc g[0] g[1] g[2] g[3])
  | 0x07 => some (.subb g[0] g[1] g[2] g[3])
  | 0x10 => some .shaReset
  | 0x11 => some (.shaInput g[0] g[1])
  | 0x12 => some (.shaResult g[0])
  | 0x20 => some (.mac g[0] g[1] (byteOperand g[2]) g[3])
  | 0x21 => some (.mul g[0] g[1] g[2] g[3])
  | 0x22 => some (.div g[0] g[1] g[2] g[3])
  | 0x30 => some (.modred g[0] g[1] g[2] g[3] g[4])
  | 0x31 => some (.modmul g[0] g[1] g[2] g[3] g[4])
  | 0x32 => some (.modexp g[0] g[1] g[2] g[3] g[4] g[5])
  | 0x33 => some (.modinv g[0] g[1] g[2] g[3])
  | 0x40 => some (.dsavfy g[0] g[1] g[2] g[3])
  | 0x41 => some (.ksvvfy g[0] g[1])
  | 0x42 => some (.srmvfy g[0] g[1])
  | _ => none

/-- Decoding of the word `w` written to `CMD` with the argument registers `g`: total, an illegal word
rejected by name (R92, R98). -/
def decode (w : Word) (g : Args) : Except Illegal Instr :=
  if zField w ≠ 0 then .error .reservedBits
  else match decodeOp (opField w).toNat g with
    | some i => .ok i
    | none => .error .unknownOpcode

/-- The command word `W` of a command: its opcode in `W[7:0]`, zero above (R90, R100). -/
def encodeWord : Instr → Word
  | .copy _ _ _ => 0x00000001
  | .fill _ _ _ => 0x00000002
  | .rev _ _ => 0x00000003
  | .cmp _ _ _ => 0x00000004
  | .alleq _ _ _ => 0x00000005
  | .addc _ _ _ _ => 0x00000006
  | .subb _ _ _ _ => 0x00000007
  | .shaReset => 0x00000010
  | .shaInput _ _ => 0x00000011
  | .shaResult _ => 0x00000012
  | .mac _ _ _ _ => 0x00000020
  | .mul _ _ _ _ => 0x00000021
  | .div _ _ _ _ => 0x00000022
  | .modred _ _ _ _ _ => 0x00000030
  | .modmul _ _ _ _ _ => 0x00000031
  | .modexp _ _ _ _ _ _ => 0x00000032
  | .modinv _ _ _ _ => 0x00000033
  | .dsavfy _ _ _ _ => 0x00000040
  | .ksvvfy _ _ => 0x00000041
  | .srmvfy _ _ => 0x00000042

/-- The operand list of a command, one word per `ARG` register from `ARG[0]` on (R93); a byte operand
is a word with zero upper bits. -/
def encodeOperands : Instr → List Word
  | .copy dst src n => [dst, src, n]
  | .fill dst value n => [dst, value.setWidth 32, n]
  | .rev buf n => [buf, n]
  | .cmp a b n => [a, b, n]
  | .alleq a value n => [a, value.setWidth 32, n]
  | .addc out a b n => [out, a, b, n]
  | .subb out a b n => [out, a, b, n]
  | .shaReset => []
  | .shaInput data length => [data, length]
  | .shaResult out => [out]
  | .mac window a scalar n => [window, a, scalar.setWidth 32, n]
  | .mul out a b n => [out, a, b, n]
  | .div out dividend divisor n => [out, dividend, divisor, n]
  | .modred out value modulus n vlen => [out, value, modulus, n, vlen]
  | .modmul out a b modulus n => [out, a, b, modulus, n]
  | .modexp out base exponent modulus n exponentN => [out, base, exponent, modulus, n, exponentN]
  | .modinv out value modulus n => [out, value, modulus, n]
  | .dsavfy message mlen r sig => [message, mlen, r, sig]
  | .ksvvfy blob blen => [blob, blen]
  | .srmvfy blob blen => [blob, blen]

/-- The six argument registers that carry an operand list; those beyond the list are 0 here, and
ignored by the decoder whatever they hold (R93). -/
def argsOf (ops : List Word) : Args :=
  Vector.ofFn fun i => ops.getD i.val 0

/-- The words of a command: the word for `CMD` and the argument registers (R90). -/
def encode (i : Instr) : Word × Args := (encodeWord i, argsOf (encodeOperands i))

/-- Word number `k` of a command whose bits are `w`: bits `32k+31 .. 32k`, the bits from `nbits` on
being 0. Word 0 is the one written to `CMD`, word `i + 1` is `ARG[i]`. -/
def tableWord (nbits w k : Nat) : Word := BitVec.ofNat 32 ((w % 2 ^ nbits) / 2 ^ (32 * k))

/-- The argument registers of a command whose bits are `w`. -/
def tableArgs (nbits w : Nat) : Args := Vector.ofFn fun i => tableWord nbits w (i.val + 1)

/-- What the decoder reads from a command whose bits are `w`, numbered as spec/opcode_table.json
numbers them: word 0 goes to `CMD`, the words after it to `ARG[0]`, `ARG[1]`, … (R90). -/
def decodeTableWord (nbits w : Nat) : Option Instr :=
  match decode (tableWord nbits w 0) (tableArgs nbits w) with
  | .ok i => some i
  | .error _ => none

end Sys2Proof
end

