-- ==== Sys2Proof/Machine/Bytes.lean ====
section
/-! DEFINITION. Byte sequences and the integers they denote (spec/00_scope.md R13; 20_memory.md R66,
R67), 32-bit rotation, and the byte-serial carry chain the arithmetic commands share. -/
namespace Sys2Proof.Machine

/-- `int_le`: the value of a sequence in internal order, least significant byte first (R13, R66). -/
def intLe : List Byte → Nat
  | [] => 0
  | b :: bs => b.toNat + 256 * intLe bs

/-- `int_be`: the value of a sequence in wire order, most significant byte first (R13, R67). -/
def intBe (bs : List Byte) : Nat := intLe bs.reverse

/-- `le_n(v)`: the `n` bytes of `v mod 256^n`, least significant first (R13). -/
def leBytes : Nat → Nat → List Byte
  | 0, _ => []
  | n + 1, v => BitVec.ofNat 8 v :: leBytes n (v / 256)

/-- `be_n(v)`: the `n` bytes of `v mod 256^n`, most significant first (R13). -/
def beBytes (n v : Nat) : List Byte := (leBytes n v).reverse

/-- `ROTL(x, s)` for `0 < s < 32` (R13). -/
def rotl (x : Word) (s : Nat) : Word := (x <<< s) ||| (x >>> (32 - s))

/-- The byte-serial chain of ADDC, SUBB and MAC (40_byte_array.md R126, R127; 42_bigint.md R171): at
each position the intermediate `t + c`, whose low byte is stored and whose high part is the next
carry. Answers the stored bytes and the carry out of the top byte. -/
def ripple : List Nat → Nat → List Byte × Nat
  | [], c => ([], c)
  | t :: ts, c =>
    let rest := ripple ts ((t + c) / 256)
    (BitVec.ofNat 8 (t + c) :: rest.1, rest.2)

end Sys2Proof.Machine
end

