-- ==== Sys2Proof/Machine/State.lean ====
section
/-! DEFINITION. Every piece of state of one engine instance (spec/10_state.md R20 to R42), the host's
accesses to come, the fault and refusal reasons, and the machine right after reset. -/
namespace Sys2Proof.Machine

/-- The result codes of `STATUS.CODE` (60_exceptions.md R252); values 10 to 255 are never produced. -/
inductive ResultCode where
  /-- 0: the operation completed -/
  | ok
  /-- 1: blob too short -/
  | short
  /-- 2: a zero value, modulus or divisor -/
  | zero
  /-- 3: value not below the modulus -/
  | notless
  /-- 4: non-invertible element -/
  | noinv
  /-- 5: aliased buffers -/
  | aliased
  /-- 6: digest-engine misuse -/
  | corrupt
  /-- 7: a word that is no command -/
  | illegal
  /-- 8: a length operand that is 0 or above its limit -/
  | badarg
  /-- 9: an operand range not inside `OM` -/
  | range
  deriving DecidableEq, Repr

/-- `H[0]` to `H[4]`, the five 32-bit hash words (R31). -/
structure HashWords where
  h0 : Word
  h1 : Word
  h2 : Word
  h3 : Word
  h4 : Word
  deriving DecidableEq, Repr

/-- The five initialization constants `H0_INIT` to `H4_INIT` (41_sha1.md R146). -/
def HashWords.init : HashWords where
  h0 := 0x67452301
  h1 := 0xEFCDAB89
  h2 := 0x98BADCFE
  h3 := 0x10325476
  h4 := 0xC3D2E1F0

/-- The digest state (R30): hash words, bit counter, block buffer with its index, two flags. -/
structure Digest where
  /-- `H[0..4]` (R31) -/
  hash : HashWords
  /-- `LEN`, the number of message bits consumed (R32) -/
  len : BitVec 64
  /-- `BLK[0..63]`, the block buffer (R33) -/
  blk : Vector Byte 64
  /-- `IDX`, the number of bytes of the current block already written (R34) -/
  idx : Fin 64
  /-- `FIN`, the source's `finalized` (R35) -/
  fin : Bool
  /-- `COR`, the source's `corrupted` (R35) -/
  cor : Bool
  deriving DecidableEq, Repr

/-- The digest state after hardware reset (R41): as SHA_RESET leaves it. `BLK` is unspecified there;
DESIGN CHOICE: every byte 0 (log 4). -/
def Digest.atReset : Digest where
  hash := HashWords.init
  len := 0
  blk := Vector.replicate 64 0
  idx := 0
  fin := false
  cor := false

/-- The written bytes of `OM` (R40): pairs of an address and the byte last written there. An unlisted
address holds no written value since hardware reset; what a read of it answers is said once, in
`State.omByte`. -/
abbrev Memory := List Host.Cell

/-- The canonical form of a memory: addresses strictly rising. (An unlisted address reads as no
written value, which no entry equals.) -/
abbrev Memory.wf (m : Memory) : Prop := m.Pairwise fun x y => x.1 < y.1

/-- One access of the host or the platform, the only inputs of the engine (00_scope.md R15). -/
inductive HostAccess where
  /-- a read of `bytes` bytes at offset `offset` of the register block -/
  | read (bytes offset : Nat)
  /-- a write of `data`, `bytes` bytes wide, at offset `offset` of the register block -/
  | write (bytes offset : Nat) (data : Word)
  /-- the platform asserts the hardware reset input (70_reset_and_hazards.md R280) -/
  | hardReset
  deriving DecidableEq, Repr

/-- The complete state: that of R20, then the model's own fields (INVENTORY.md, State). -/
structure State where
  /-- `CMD` (R23) -/
  cmd : Word
  /-- `STATUS.CODE` (R24) -/
  code : ResultCode
  /-- `RETVAL` (R22) -/
  retval : Word
  /-- `OM_ADDR` (R25) -/
  omAddr : Word
  /-- `ARG[0..5]` (R21) -/
  arg : Vector Word 6
  /-- the digest state (R30) -/
  digest : Digest
  /-- the written bytes of `OM` (R40) -/
  om : Memory
  /-- MODEL's own: the parameters of this instance (R42), which no step writes (log 2) -/
  params : Config.Params
  /-- MODEL's own: the accesses the host has still to make, oldest first (log 1) -/
  host : List HostAccess
  /-- MODEL's own: the word the host's last read returned (log 8) -/
  readData : Word
  /-- MODEL's own: hardware resets so far, the index of the free bytes of `OM` (log 3, 7) -/
  resets : Nat
  /-- MODEL's own: partly overlapping commands so far, the index of their free values (log 5, 6, 7) -/
  overlaps : Nat
  deriving DecidableEq, Repr

/-- Why the machine stops with a fault: never. "The hardware has no traps, no exceptions in the
processor sense and no interrupts" (60_exceptions.md R250), so the type is empty (log 18). -/
inductive Fault where
  deriving DecidableEq, Repr

/-- Why an access or a command has no meaning in the model. -/
inductive Refusal where
  /-- Raised by `exec` for a command not modelled yet (none is); safe. -/
  | notModelled (mnemonic : String)
  /-- Raised by a host access that is not an aligned 32-bit access inside the register block: "the
  access is refused, not performed" (20_memory.md R71); safe (log 9). -/
  | undefinedAccess
  deriving DecidableEq, Repr

/-- The machine right after hardware reset (R41), nothing of `OM` written and no host access to come.
`CMD` is 0, "which is not a command, and resetting does not issue it" (R23). -/
def State.reset : State where
  cmd := 0
  code := .ok
  retval := 0
  omAddr := 0
  arg := Vector.replicate 6 0
  digest := Digest.atReset
  om := []
  params := Config.params
  host := []
  readData := 0
  resets := 0
  overlaps := 0

end Sys2Proof.Machine
end

