-- ==== Sys2Proof/Machine/Ops.lean ====
section
/-! DEFINITION. The named operations over the operand memory and the registers, how a command ends
(spec/60_exceptions.md R251, R256) and the hardware reset (70_reset_and_hazards.md R280). -/
namespace Sys2Proof.Machine

/-! ### The operand memory -/

/-- The byte written at `a`, `none` if nothing is listed there. -/
def Memory.get (m : Memory) (a : Nat) : Option Byte :=
  match m with
  | [] => none
  | c :: cs => if c.1 = a then some c.2 else Memory.get cs a

/-- Writes the byte `b` at `a`, keeping the addresses rising. -/
def Memory.put (m : Memory) (a : Nat) (b : Byte) : Memory :=
  match m with
  | [] => [(a, b)]
  | c :: cs =>
    if a < c.1 then (a, b) :: c :: cs
    else if a = c.1 then (a, b) :: cs
    else c :: Memory.put cs a b

/-- `MemWrite(a, n, bs)` (00_scope.md R13): `bs[0]` at `a`, then upwards. -/
def Memory.putBytes (m : Memory) (a : Nat) (bs : List Byte) : Memory :=
  match bs with
  | [] => m
  | b :: bs => Memory.putBytes (m.put a b) (a + 1) bs

/-- `OM[a]`: the byte last written at `a`; a byte nothing has written since hardware reset is a free
value (10_state.md R41, 70_reset_and_hazards.md R282; log 3). -/
def State.omByte (s : State) (a : Nat) : Byte :=
  (s.om.get a).getD (Config.resetByte s.resets a)

/-- `MemRead(a, n)` (00_scope.md R13): the bytes of `[a, a+n)` from the lowest address. -/
def State.readBytes (s : State) (a n : Nat) : List Byte :=
  (List.range n).map fun i => s.omByte (a + i)

/-- `s` with the operand memory `m`. -/
def State.withOm (s : State) (m : Memory) : State := { s with om := m }

/-- `MemWrite(a, n, bs)` on the state. -/
def State.writeBytes (s : State) (a : Nat) (bs : List Byte) : State := s.withOm (s.om.putBytes a bs)

/-! ### The registers and the digest state -/

/-- `s` with `CMD` holding `w` (R23). -/
def State.withCmd (s : State) (w : Word) : State := { s with cmd := w }

/-- `s` with `OM_ADDR` holding `a` (R25). -/
def State.withOmAddr (s : State) (a : Word) : State := { s with omAddr := a }

/-- `s` with the argument registers `g` (R21). -/
def State.withArgs (s : State) (g : Vector Word 6) : State := { s with arg := g }

/-- `s` with the digest state `d` (R30). -/
def State.withDigest (s : State) (d : Digest) : State := { s with digest := d }

/-- `s` with `accesses` left for the host to make. -/
def State.withHost (s : State) (accesses : List HostAccess) : State := { s with host := accesses }

/-- `s` after a host read has returned `v`. -/
def State.withReadData (s : State) (v : Word) : State := { s with readData := v }

/-! ### How a command ends -/

/-- `done(code, ret)`, the single way a command ends (R251). -/
def State.done (s : State) (code : ResultCode) (ret : Word) : State :=
  { s with code := code, retval := ret }

/-- `fail CODE`: `done(CODE, 0)` with no write to `OM`. This is all the hardware has of a trap entry
(R256): no state is saved, no mode changes, control goes nowhere; and there is no trap return (R257). -/
def State.fail (s : State) (code : ResultCode) : State := s.done code 0

/-! ### Overlapping ranges (00_scope.md R13, 40_byte_array.md R128) -/

/-- `[a, a+n)` and `[b, b+m)` share an address (R13). -/
def overlap (a n b m : Nat) : Bool := max a b < min (a + n) (b + m)

/-- A written range `[w, w+n)` overlaps a read range `[r, r+n)` of the same command without being
identical to it (R128). -/
def partlyOverlaps (w r n : Nat) : Bool := overlap w n r n && w != r

/-- The end of a partly overlapping command (R128; 93_implementation_defined.md U1): code `OK`, every
byte of the written range `[w, w+n)` a free value, nothing outside it changed (log 5). -/
def State.doneUnspecified (s : State) (w n : Nat) (ret : Word) : State :=
  State.done
    { s with
      om := s.om.putBytes w ((List.range n).map fun i => Config.overlapByte s.overlaps (w + i))
      overlaps := s.overlaps + 1 }
    .ok ret

/-! ### Hardware reset -/

/-- Hardware reset (R280): every piece of state as `State.reset` has it, a fresh draw of the bytes of
`OM`; the parameters and the ROM are untouched (R41), and what the host does next is the host's. -/
def State.hardReset (s : State) : State :=
  { State.reset with
    params := s.params
    host := s.host
    readData := s.readData
    resets := s.resets + 1
    overlaps := s.overlaps }

end Sys2Proof.Machine
end

