-- ==== Sys2Proof/Machine/Flags.lean ====
section
/-! DEFINITION. The `STATUS` register (spec/10_state.md R24, R28; 60_exceptions.md R252): the only flags
are `FIN` and `COR`, shown live; every carry, borrow and comparison outcome is a return value. -/
namespace Sys2Proof.Machine

/-- The numeral of a result code (R252). -/
def ResultCode.toByte : ResultCode → Byte
  | .ok => 0
  | .short => 1
  | .zero => 2
  | .notless => 3
  | .noinv => 4
  | .aliased => 5
  | .corrupt => 6
  | .illegal => 7
  | .badarg => 8
  | .range => 9

/-- `STATUS` as the host reads it (R24): `CODE` in bits 7:0, `FIN` in bit 8, `COR` in bit 9, bits
31:10 zero. -/
def State.status (s : State) : Word :=
  s.code.toByte.setWidth 32
    ||| ((BitVec.ofBool s.digest.fin).setWidth 32 <<< 8)
    ||| ((BitVec.ofBool s.digest.cor).setWidth 32 <<< 9)

/-- A boolean as a return value: `true` is 1, `false` is 0 (spec/92_eei_decisions.md D8). -/
def boolRet (b : Bool) : Word := if b then 1 else 0

/-- CMP's outcome as a return value: 0 equal, 1 greater, 2 less (40_byte_array.md R124). -/
def orderRet : Ordering → Word
  | .eq => 0
  | .gt => 1
  | .lt => 2

/-- A carry as a return value. -/
def carryRet (c : Nat) : Word := BitVec.ofNat 32 c

/-- SUBB's borrow as a return value: 1 minus the final carry of `a + ~b + 1` (R127). -/
def borrowRet (c : Nat) : Word := BitVec.ofNat 32 (1 - c)

/-- The free return value of a partly overlapping ADDC or SUBB: a carry or borrow is one bit (log 6). -/
def freeBitRet (use : Nat) : Word := BitVec.ofNat 32 ((Config.overlapCarry use).toNat % 2)

/-- The free return value of a partly overlapping MAC: a carry byte (log 6). -/
def freeByteRet (use : Nat) : Word := (Config.overlapCarry use).setWidth 32

end Sys2Proof.Machine
end

