-- ==== Sys2Proof/Machine/Operands.lean ====
section
/-! DEFINITION. The operand forms and the generic checks (spec/30_encoding.md R92 to R97): which length
operands are legal, which ranges of `OM` a command touches, and the checks that precede every command. -/
namespace Sys2Proof.Machine

/-- A length operand of the utilities, MAC, MUL and DIV is legal: `n ≥ 1` (R96). -/
def lengthLegal (n : Word) : Bool := 1 ≤ n.toNat

/-- A length operand of the modular commands is legal: `1 ≤ n ≤ limit` (R96). -/
def lengthLegalUpTo (limit : Nat) (n : Word) : Bool := 1 ≤ n.toNat && n.toNat ≤ limit

/-- Every length operand of the command has a legal value (R96). -/
def lengthsLegal : Instr → Bool
  | .copy _ _ n => lengthLegal n
  | .fill _ _ n => lengthLegal n
  | .rev _ n => lengthLegal n
  | .cmp _ _ n => lengthLegal n
  | .alleq _ _ n => lengthLegal n
  | .addc _ _ _ n => lengthLegal n
  | .subb _ _ _ n => lengthLegal n
  | .shaReset => true
  | .shaInput _ _ => true
  | .shaResult _ => true
  | .mac _ _ _ n => lengthLegal n
  | .mul _ _ _ n => lengthLegal n
  | .div _ _ _ n => lengthLegal n
  | .modred _ _ _ n vlen =>
    lengthLegalUpTo Config.nModMax n && lengthLegalUpTo (2 * Config.nModMax) vlen
  | .modmul _ _ _ _ n => lengthLegalUpTo Config.nModMax n
  | .modexp _ _ _ _ n exponentN =>
    lengthLegalUpTo Config.nModMax n && lengthLegalUpTo Config.nModMax exponentN
  | .modinv _ _ _ n => lengthLegalUpTo Config.nModMax n
  | .dsavfy _ _ _ _ => true
  | .ksvvfy _ _ => true
  | .srmvfy _ _ => true

/-- A range `[start, start+length)` of `OM` (R97), addresses as naturals: no wrap-around (R95). -/
structure Range where
  start : Nat
  length : Nat
  deriving DecidableEq, Repr

/-- `start + length ≤ OM_SIZE`, the sum taken without wrap (R97). -/
def Range.inside (omSize : Nat) (r : Range) : Bool := r.start + r.length ≤ omSize

/-- The range an address operand and a length operand name. -/
def rangeOf (a n : Word) : Range := ⟨a.toNat, n.toNat⟩

/-- The ranges a command reads, the R entries of R97. -/
def readRanges : Instr → List Range
  | .copy _ src n => [rangeOf src n]
  | .fill _ _ _ => []
  | .rev buf n => [rangeOf buf n]
  | .cmp a b n => [rangeOf a n, rangeOf b n]
  | .alleq a _ n => [rangeOf a n]
  | .addc _ a b n => [rangeOf a n, rangeOf b n]
  | .subb _ a b n => [rangeOf a n, rangeOf b n]
  | .shaReset => []
  | .shaInput data length => [rangeOf data length]
  | .shaResult _ => []
  | .mac window a _ n => [rangeOf a n, rangeOf window n]
  | .mul _ a b n => [rangeOf a n, rangeOf b n]
  | .div _ dividend divisor n => [rangeOf dividend n, rangeOf divisor n]
  | .modred _ value modulus n vlen => [rangeOf value vlen, rangeOf modulus n]
  | .modmul _ a b modulus n => [rangeOf a n, rangeOf b n, rangeOf modulus n]
  | .modexp _ base exponent modulus n exponentN =>
    [rangeOf base n, rangeOf exponent exponentN, rangeOf modulus n]
  | .modinv _ value modulus n => [rangeOf value n, rangeOf modulus n]
  | .dsavfy message mlen r sig =>
    [rangeOf message mlen, ⟨r.toNat, Config.sigSize⟩, ⟨sig.toNat, Config.sigSize⟩]
  | .ksvvfy blob blen => [rangeOf blob blen]
  | .srmvfy blob blen => [rangeOf blob blen]

/-- The ranges a command writes, the W entries of R97. -/
def writtenRanges : Instr → List Range
  | .copy dst _ n => [rangeOf dst n]
  | .fill dst _ n => [rangeOf dst n]
  | .rev buf n => [rangeOf buf n]
  | .cmp _ _ _ => []
  | .alleq _ _ _ => []
  | .addc out _ _ n => [rangeOf out n]
  | .subb out _ _ n => [rangeOf out n]
  | .shaReset => []
  | .shaInput _ _ => []
  | .shaResult out => [⟨out.toNat, Config.digestSize⟩]
  | .mac window _ _ n => [rangeOf window n]
  | .mul out _ _ n => [⟨out.toNat, 2 * n.toNat⟩]
  | .div out _ _ n => [⟨out.toNat, 2 * n.toNat⟩]
  | .modred out _ _ n _ => [rangeOf out n]
  | .modmul out _ _ _ n => [rangeOf out n]
  | .modexp out _ _ _ n _ => [rangeOf out n]
  | .modinv out _ _ n => [rangeOf out n]
  | .dsavfy _ _ _ _ => []
  | .ksvvfy _ _ => []
  | .srmvfy _ _ => []

/-- Every range the command touches lies inside an operand memory of `omSize` bytes (R97). -/
def rangesInside (omSize : Nat) (i : Instr) : Bool :=
  (readRanges i ++ writtenRanges i).all fun r => r.inside omSize

/-- The generic checks, in the order of R92 and R254, then the command's own rule `body`. -/
def issue (i : Instr) (body : State → State) (s : State) : State :=
  if lengthsLegal i = false then s.fail .badarg
  else if rangesInside s.params.omSize i = false then s.fail .range
  else body s

end Sys2Proof.Machine
end

