-- ==== Sys2Proof/Machine/BigInt.lean ====
section
/-! DEFINITION. The big-integer commands MAC, MUL, DIV (spec/42_bigint.md); all operands unsigned, in
internal order. -/
namespace Sys2Proof.Machine

/-- The intermediates of a multiply-accumulate pass, without the carry: `out[i] + a[i]·scalar` (R171). -/
def macTerms (window as : List Byte) (scalar : Byte) : List Nat :=
  List.zipWith (fun o x => o.toNat + x.toNat * scalar.toNat) window as

/-- `mac_pass` on the window `OM[o .. o+n)` (R171): the new window and the carry byte. -/
def macPass (window as : List Byte) (scalar : Byte) : List Byte × Nat :=
  ripple (macTerms window as scalar) 0

/-- MAC `out_window, a, scalar, n` (R171): the carry is returned, not stored. -/
def execMac (window a : Word) (scalar : Byte) (n : Word) (s : State) :
    Host.Outcome State Fault Refusal :=
  .next (issue (.mac window a scalar n) (fun s =>
    if partlyOverlaps window.toNat a.toNat n.toNat then
      s.doneUnspecified window.toNat n.toNat (freeByteRet s.overlaps)
    else
      let r := macPass (s.readBytes window.toNat n.toNat) (s.readBytes a.toNat n.toNat) scalar
      (s.writeBytes window.toNat r.1).done .ok (carryRet r.2)) s)

/-- Schoolbook multiplication (R172): one pass per byte of `b`, lowest first. The window is the `n`
bytes of the product the next pass adds to; each pass fixes its lowest byte and its carry becomes the
byte above the window. -/
def mulPasses (as : List Byte) : List Byte → List Byte → List Byte
  | [], window => window
  | b :: bs, window =>
    let r := macPass window as b
    match r.1 ++ [BitVec.ofNat 8 r.2] with
    | [] => []
    | low :: window' => low :: mulPasses as bs window'

/-- The `2n`-byte product of two `n`-byte operands (R172): the output range starts as zeros. -/
def mulBytes (as bs : List Byte) : List Byte :=
  mulPasses as bs (List.replicate as.length 0)

/-- MUL `out, a, b, n` (R172): ends with `ALIAS` if the `2n`-byte output range overlaps an input
range in any way (R173). -/
def execMul (out a b n : Word) (s : State) : Host.Outcome State Fault Refusal :=
  .next (issue (.mul out a b n) (fun s =>
    if overlap out.toNat (2 * n.toNat) a.toNat n.toNat
        || overlap out.toNat (2 * n.toNat) b.toNat n.toNat then s.fail .aliased
    else
      (s.writeBytes out.toNat
        (mulBytes (s.readBytes a.toNat n.toNat) (s.readBytes b.toNat n.toNat))).done .ok 0) s)

/-- DIV `out, dividend, divisor, n` (R174): both inputs are read first; remainder in the lower `n`
bytes of `out`, quotient in the upper `n` (R175); a zero divisor ends with `ZERO` (R176). -/
def execDiv (out dividend divisor n : Word) (s : State) : Host.Outcome State Fault Refusal :=
  .next (issue (.div out dividend divisor n) (fun s =>
    let v := intLe (s.readBytes divisor.toNat n.toNat)
    let d := intLe (s.readBytes dividend.toNat n.toNat)
    if v = 0 then s.fail .zero
    else (s.writeBytes out.toNat (leBytes n.toNat (d % v) ++ leBytes n.toNat (d / v))).done .ok 0) s)

end Sys2Proof.Machine
end

