-- ==== Sys2Proof/Machine/Utility.lean ====
section
/-! DEFINITION. The byte-array utility commands COPY, FILL, REV, CMP, ALLEQ, ADDC, SUBB
(spec/40_byte_array.md). The ranges of a command are read before its range is written, which is the
per-byte pseudocode wherever R128 gives that a meaning (log 16). -/
namespace Sys2Proof.Machine

/-- COPY `dst, src, n` (R121). -/
def execCopy (dst src n : Word) (s : State) : Host.Outcome State Fault Refusal :=
  .next (issue (.copy dst src n) (fun s =>
    if partlyOverlaps dst.toNat src.toNat n.toNat then s.doneUnspecified dst.toNat n.toNat 0
    else (s.writeBytes dst.toNat (s.readBytes src.toNat n.toNat)).done .ok 0) s)

/-- FILL `dst, value, n` (R122). -/
def execFill (dst : Word) (value : Byte) (n : Word) (s : State) :
    Host.Outcome State Fault Refusal :=
  .next (issue (.fill dst value n) (fun s =>
    (s.writeBytes dst.toNat (List.replicate n.toNat value)).done .ok 0) s)

/-- REV `buf, n` (R123). -/
def execRev (buf n : Word) (s : State) : Host.Outcome State Fault Refusal :=
  .next (issue (.rev buf n) (fun s =>
    (s.writeBytes buf.toNat (s.readBytes buf.toNat n.toNat).reverse).done .ok 0) s)

/-- `compare` from the most significant byte, here the head of the lists, down (R124). -/
def compareBytes : List Byte → List Byte → Ordering
  | x :: xs, y :: ys => if y < x then .gt else if x < y then .lt else compareBytes xs ys
  | _, _ => .eq

/-- CMP `a, b, n` (R124): scans from the last index down. -/
def execCmp (a b n : Word) (s : State) : Host.Outcome State Fault Refusal :=
  .next (issue (.cmp a b n) (fun s =>
    s.done .ok (orderRet (compareBytes (s.readBytes a.toNat n.toNat).reverse
      (s.readBytes b.toNat n.toNat).reverse))) s)

/-- ALLEQ `a, value, n` (R125). -/
def execAlleq (a : Word) (value : Byte) (n : Word) (s : State) :
    Host.Outcome State Fault Refusal :=
  .next (issue (.alleq a value n) (fun s =>
    s.done .ok (boolRet ((s.readBytes a.toNat n.toNat).all fun b => b == value))) s)

/-- The intermediates of ADDC, without the carry: `a[i] + b[i]` (R126). -/
def addTerms (as bs : List Byte) : List Nat := List.zipWith (fun x y => x.toNat + y.toNat) as bs

/-- The intermediates of SUBB, without the carry: `a[i] + (255 - b[i])` (R127). -/
def subTerms (as bs : List Byte) : List Nat :=
  List.zipWith (fun x y => x.toNat + (255 - y.toNat)) as bs

/-- ADDC `out, a, b, n` (R126): no carry-in. -/
def execAddc (out a b n : Word) (s : State) : Host.Outcome State Fault Refusal :=
  .next (issue (.addc out a b n) (fun s =>
    if partlyOverlaps out.toNat a.toNat n.toNat || partlyOverlaps out.toNat b.toNat n.toNat then
      s.doneUnspecified out.toNat n.toNat (freeBitRet s.overlaps)
    else
      let r := ripple (addTerms (s.readBytes a.toNat n.toNat) (s.readBytes b.toNat n.toNat)) 0
      (s.writeBytes out.toNat r.1).done .ok (carryRet r.2)) s)

/-- SUBB `out, a, b, n` (R127): the carry chain starts at 1, the "+ 1" of `a + ~b + 1`. -/
def execSubb (out a b n : Word) (s : State) : Host.Outcome State Fault Refusal :=
  .next (issue (.subb out a b n) (fun s =>
    if partlyOverlaps out.toNat a.toNat n.toNat || partlyOverlaps out.toNat b.toNat n.toNat then
      s.doneUnspecified out.toNat n.toNat (freeBitRet s.overlaps)
    else
      let r := ripple (subTerms (s.readBytes a.toNat n.toNat) (s.readBytes b.toNat n.toNat)) 1
      (s.writeBytes out.toNat r.1).done .ok (borrowRet r.2)) s)

end Sys2Proof.Machine
end

