-- ==== Sys2Proof/Machine/Modular.lean ====
section
/-! DEFINITION. The modular commands MODRED, MODMUL, MODEXP, MODINV (spec/43_modular.md). Every command
reads all its inputs, computes in private scratch and writes its result at once (R190). -/
namespace Sys2Proof.Machine

/-- One bit of the exponent scan (R195): square modulo `m`, and multiply by the base when the bit is
1. -/
def powStep (base m acc : Nat) (bit : Bool) : Nat :=
  let sq := acc * acc % m
  if bit then sq * base % m else sq

/-- The square-and-multiply scan over the `k` lowest bits of `e`, the highest of them first. -/
def powScan (base e m : Nat) : Nat → Nat → Nat
  | 0, acc => acc
  | k + 1, acc => powScan base e m k (powStep base m acc (e.testBit k))

/-- `(base ^ e) mod m` for an exponent of `k` bits (R194), by the scan of R195. -/
def powMod (base e m k : Nat) : Nat := powScan base e m k (1 % m)

/-- The iteration of the extended Euclidean algorithm (R197) on remainders `r0`, `r1` and coefficient
magnitudes `t0`, `t1`; `odd` is the parity of the number of steps done. It ends when `r1` is 0, which
`fuel = r1` steps always reach, the remainders strictly decreasing (R301). Answers `gcd`, the magnitude
and the parity. -/
def euclid : Nat → Nat → Nat → Nat → Nat → Bool → Nat × Nat × Bool
  | 0, r0, _, t0, _, odd => (r0, t0, odd)
  | fuel + 1, r0, r1, t0, t1, odd =>
    if r1 = 0 then (r0, t0, odd)
    else euclid fuel r1 (r0 % r1) t1 (t0 + r0 / r1 * t1) (!odd)

/-- `value⁻¹ mod modulus` with the checks of R196 in their order; the result is the canonical
representative, recovered from its magnitude by the parity (R197). -/
def modInverse (a m : Nat) : Except ResultCode Nat :=
  if a = 0 then .error .zero
  else if m = 0 then .error .zero
  else if m ≤ a then .error .notless
  else
    let r := euclid a m a 0 1 false
    if r.1 ≠ 1 then .error .noinv
    else .ok (if r.2.2 then r.2.1 else m - r.2.1)

/-- MODRED `out, value, modulus, n, vlen` (R191). -/
def execModred (out value modulus n vlen : Word) (s : State) : Host.Outcome State Fault Refusal :=
  .next (issue (.modred out value modulus n vlen) (fun s =>
    let x := intLe (s.readBytes value.toNat vlen.toNat)
    let m := intLe (s.readBytes modulus.toNat n.toNat)
    if m = 0 then s.fail .zero
    else (s.writeBytes out.toNat (leBytes n.toNat (x % m))).done .ok 0) s)

/-- MODMUL `out, a, b, modulus, n` (R193). -/
def execModmul (out a b modulus n : Word) (s : State) : Host.Outcome State Fault Refusal :=
  .next (issue (.modmul out a b modulus n) (fun s =>
    let x := intLe (s.readBytes a.toNat n.toNat)
    let y := intLe (s.readBytes b.toNat n.toNat)
    let m := intLe (s.readBytes modulus.toNat n.toNat)
    if m = 0 then s.fail .zero
    else (s.writeBytes out.toNat (leBytes n.toNat (x * y % m))).done .ok 0) s)

/-- MODEXP `out, base, exponent, modulus, n, exponent_n` (R194): an exponent of `8·exponent_n` bits. -/
def execModexp (out base exponent modulus n exponentN : Word) (s : State) :
    Host.Outcome State Fault Refusal :=
  .next (issue (.modexp out base exponent modulus n exponentN) (fun s =>
    let x := intLe (s.readBytes base.toNat n.toNat)
    let e := intLe (s.readBytes exponent.toNat exponentN.toNat)
    let m := intLe (s.readBytes modulus.toNat n.toNat)
    if m = 0 then s.fail .zero
    else (s.writeBytes out.toNat
      (leBytes n.toNat (powMod x e m (8 * exponentN.toNat)))).done .ok 0) s)

/-- MODINV `out, value, modulus, n` (R196): every failure leaves `out` unwritten. -/
def execModinv (out value modulus n : Word) (s : State) : Host.Outcome State Fault Refusal :=
  .next (issue (.modinv out value modulus n) (fun s =>
    match modInverse (intLe (s.readBytes value.toNat n.toNat))
        (intLe (s.readBytes modulus.toNat n.toNat)) with
    | .error code => s.fail code
    | .ok x => (s.writeBytes out.toNat (leBytes n.toNat x)).done .ok 1) s)

end Sys2Proof.Machine
end

