-- ==== Sys2Proof/Machine/Sha1.lean ====
section
/-! DEFINITION. The SHA-1 digest engine (spec/41_sha1.md): block compression, padding, the three
operations on the digest state, and the commands SHA_RESET, SHA_INPUT and SHA_RESULT. -/
namespace Sys2Proof.Machine

/-! ### Block compression (R145, R146) -/

/-- Four block bytes as a word, the first the most significant (R145). -/
def packWord (b0 b1 b2 b3 : Byte) : Word :=
  BitVec.ofNat 32 (b0.toNat * 2 ^ 24 + b1.toNat * 2 ^ 16 + b2.toNat * 2 ^ 8 + b3.toNat)

/-- A sequence of bytes as the words of its groups of four (R145). -/
def packWords : List Byte → List Word
  | b0 :: b1 :: b2 :: b3 :: bs => packWord b0 b1 b2 b3 :: packWords bs
  | _ => []

/-- `Wd[t]` for `t ≥ 16` from the words before it, the newest `Wd[t-1]` first (R145). -/
def nextScheduleWord (ws : List Word) : Word :=
  rotl (ws.getD 2 0 ^^^ ws.getD 7 0 ^^^ ws.getD 13 0 ^^^ ws.getD 15 0) 1

/-- `k` further words of the schedule, the newest first. -/
def extendSchedule : Nat → List Word → List Word
  | 0, ws => ws
  | k + 1, ws => extendSchedule k (nextScheduleWord ws :: ws)

/-- `Wd[0..79]` of a block of 64 bytes (R145). -/
def schedule (block : List Byte) : List Word :=
  (extendSchedule 64 (packWords block).reverse).reverse

/-- The boolean function `f(t, B, C, D)` (R145). -/
def roundFunction (t : Nat) (b c d : Word) : Word :=
  if t ≤ 19 then (b &&& c) ||| (~~~b &&& d)
  else if t ≤ 39 then b ^^^ c ^^^ d
  else if t ≤ 59 then (b &&& c) ||| (b &&& d) ||| (c &&& d)
  else b ^^^ c ^^^ d

/-- The round constant `K(t)` (R146). -/
def roundConstant (t : Nat) : Word :=
  if t ≤ 19 then 0x5A827999
  else if t ≤ 39 then 0x6ED9EBA1
  else if t ≤ 59 then 0x8F1BBCDC
  else 0xCA62C1D6

/-- Step `t` on the working variables `A` to `E`, here the five components of `x` (R145). -/
def compressStep (t : Nat) (w : Word) (x : HashWords) : HashWords where
  h0 := rotl x.h0 5 + roundFunction t x.h1 x.h2 x.h3 + x.h4 + w + roundConstant t
  h1 := x.h0
  h2 := rotl x.h1 30
  h3 := x.h2
  h4 := x.h3

/-- The steps from step `t` on, one per schedule word. -/
def compressSteps : Nat → List Word → HashWords → HashWords
  | _, [], x => x
  | t, w :: ws, x => compressSteps (t + 1) ws (compressStep t w x)

/-- The hash words after one block: the 80 steps, added back into the running digest (R145). -/
def compressBlock (h : HashWords) (block : List Byte) : HashWords :=
  let x := compressSteps 0 (schedule block) h
  { h0 := h.h0 + x.h0, h1 := h.h1 + x.h1, h2 := h.h2 + x.h2, h3 := h.h3 + x.h3, h4 := h.h4 + x.h4 }

/-- `compress()`: reads `BLK` and `H`, writes `H`, and changes nothing else (R145). -/
def Digest.compress (d : Digest) : Digest :=
  { d with hash := compressBlock d.hash d.blk.toList }

/-! ### reset, input and result (R141 to R149) -/

/-- `sha_reset()` (R141); `BLK` is left as it is. -/
def Digest.restart (d : Digest) : Digest :=
  { d with hash := HashWords.init, len := 0, idx := 0, fin := false, cor := false }

/-- Stores one message byte in the block buffer; the 64th byte of a block triggers the compression
and returns `IDX` to 0 (R142, R144). -/
def Digest.store (d : Digest) (b : Byte) : Digest :=
  let d1 := { d with blk := d.blk.set d.idx.val b d.idx.isLt }
  if h : d.idx.val + 1 < 64 then { d1 with idx := ⟨d.idx.val + 1, h⟩ }
  else { d1.compress with idx := 0 }

/-- Consumes message bytes one at a time; at a byte whose count overflows `LEN` the state becomes
Corrupted and that byte is neither stored nor compressed (R142, R143). -/
def Digest.consume (d : Digest) (bytes : List Byte) : ResultCode × Digest :=
  match bytes with
  | [] => (.ok, d)
  | b :: bs =>
    if 2 ^ 64 ≤ d.len.toNat + 8 then (.corrupt, { d with len := d.len + 8, cor := true })
    else Digest.consume (Digest.store { d with len := d.len + 8 } b) bs

/-- `sha_input(bytes)` (R142): a zero-length input or one after finalization corrupts the state, a
corrupted state refuses. -/
def Digest.input (d : Digest) (bytes : List Byte) : ResultCode × Digest :=
  if bytes = [] then (.corrupt, { d with cor := true })
  else if d.fin then (.corrupt, { d with cor := true })
  else if d.cor then (.corrupt, d)
  else d.consume bytes

/-- `BLK[lo .. hi)` set to zero (R148). -/
def zeroBlock (v : Vector Byte 64) (lo hi : Nat) : Vector Byte 64 :=
  Vector.ofFn fun i => if lo ≤ i.val ∧ i.val < hi then 0 else v[i.val]

/-- `BLK[56 .. 64)` set to the eight bytes of `LEN`, the most significant first (R148). -/
def lengthBlock (v : Vector Byte 64) (len : BitVec 64) : Vector Byte 64 :=
  Vector.ofFn fun i =>
    if 56 ≤ i.val then len.extractLsb' (56 - 8 * (i.val - 56)) 8 else v[i.val]

/-- The end of the padding (R148), from the hash words `h` and the block buffer `blk` filled up to
offset 56: the length bytes and the last compression. -/
def Digest.finishBlock (d : Digest) (h : HashWords) (blk : Vector Byte 64) : Digest :=
  { d with
    hash := compressBlock h (lengthBlock blk d.len).toList
    blk := lengthBlock blk d.len
    idx := 56 }

/-- `pad_and_finish()` (R148): the byte `0x80`, zeros, and a second compression if the length does not
fit in the current block; `LEN` is not advanced. -/
def Digest.pad (d : Digest) : Digest :=
  let blk := d.blk.set d.idx.val 0x80 d.idx.isLt
  if 56 < d.idx.val + 1 then
    let full := zeroBlock blk (d.idx.val + 1) 64
    d.finishBlock (compressBlock d.hash full.toList) (zeroBlock full 0 56)
  else d.finishBlock d.hash (zeroBlock blk (d.idx.val + 1) 56)

/-- `sha_result()` (R147): `COR` is tested first (90_conflicts.md C2); a finalized state is left as it
is (R150). -/
def Digest.result (d : Digest) : ResultCode × Digest :=
  if d.cor then (.corrupt, d)
  else if d.fin then (.ok, d)
  else (.ok, { d.pad with fin := true })

/-- A word as four bytes, the most significant first. -/
def wordBytes (w : Word) : List Byte :=
  [w.extractLsb' 24 8, w.extractLsb' 16 8, w.extractLsb' 8 8, w.extractLsb' 0 8]

/-- `digest()`: the hash words, `H[0]` first, each big-endian (R149). -/
def HashWords.bytes (h : HashWords) : List Byte :=
  wordBytes h.h0 ++ wordBytes h.h1 ++ wordBytes h.h2 ++ wordBytes h.h3 ++ wordBytes h.h4

/-- `sha1_run(m)` (R153): reset, input, result on the engine's one digest state. Answers the code, the
digest bytes (meant only when the code is `OK`) and the digest state it leaves. -/
def Digest.run (d : Digest) (m : List Byte) : ResultCode × List Byte × Digest :=
  let r := d.restart.input m
  if r.1 = .ok then
    let f := r.2.result
    if f.1 = .ok then (.ok, f.2.hash.bytes, f.2) else (.corrupt, [], f.2)
  else (.corrupt, [], r.2)

/-! ### The commands -/

/-- SHA_RESET (R141): legal in every state. -/
def execShaReset (s : State) : Host.Outcome State Fault Refusal :=
  .next (issue .shaReset (fun s => (s.withDigest s.digest.restart).done .ok 0) s)

/-- SHA_INPUT `data, length` (R142): the message range is only read; `RETVAL` is always 0. -/
def execShaInput (data length : Word) (s : State) : Host.Outcome State Fault Refusal :=
  .next (issue (.shaInput data length) (fun s =>
    let r := s.digest.input (s.readBytes data.toNat length.toNat)
    (s.withDigest r.2).done r.1 0) s)

/-- SHA_RESULT `out` (R147): writes the 20 digest bytes on every success. -/
def execShaResult (out : Word) (s : State) : Host.Outcome State Fault Refusal :=
  .next (issue (.shaResult out) (fun s =>
    let r := s.digest.result
    if r.1 = .ok then ((s.withDigest r.2).writeBytes out.toNat r.2.hash.bytes).done .ok 1
    else (s.withDigest r.2).fail r.1) s)

end Sys2Proof.Machine
end

