-- ==== Sys2Proof/Machine/Dsa.lean ====
section
/-! DEFINITION. The DSA signature verification command DSAVFY (spec/44_dsa.md) over the constant ROM
(10_state.md R38). -/
namespace Sys2Proof.Machine

/-- `ROM_P`: `le_128(P)` (R38). -/
def romP (k : Config.Params) : List Byte := leBytes Config.nP k.p.toNat

/-- `ROM_Q`: `le_20(Q)` (R38). -/
def romQ (k : Config.Params) : List Byte := leBytes Config.nQ k.q.toNat

/-- `ROM_G`: `le_128(G)` (R38). -/
def romG (k : Config.Params) : List Byte := leBytes Config.nP k.g.toNat

/-- `ROM_Y`: `le_128(Y)` (R38). -/
def romY (k : Config.Params) : List Byte := leBytes Config.nP k.y.toNat

/-- Steps 4 to 7 of R221 on naturals: the verdict for `r`, the inverse `w` and the digest number `z`;
`none` where step 5 refuses a zero `P`. -/
def dsaCheck (k : Config.Params) (r w z : Nat) : Option Bool :=
  let p := intLe (romP k)
  let q := intLe (romQ k)
  let u1 := z * w % q
  let u2 := r * w % q
  if p = 0 then none
  else
    let gu1 := powMod (intLe (romG k)) u1 p (8 * Config.nQ)
    let yu2 := powMod (intLe (romY k)) u2 p (8 * Config.nQ)
    some (decide (gu1 * yu2 % p % q = r))

/-- The seven steps of R221 on a message and on `r`, `s` in wire order, reversed on private copies
(20_memory.md R68, R224): the result code, the verdict as return value, and the digest state left
(R223). -/
def dsaVerify (k : Config.Params) (d : Digest) (msg rw sw : List Byte) :
    ResultCode × Word × Digest :=
  match modInverse (intBe sw) (intLe (romQ k)) with
  | .error code => (code, 0, d)
  | .ok w =>
    let h := d.run msg
    if h.1 = .ok then
      match dsaCheck k (intBe rw) w (intBe h.2.1) with
      | none => (.zero, 0, h.2.2)
      | some verdict => (.ok, boolRet verdict, h.2.2)
    else (.corrupt, 0, h.2.2)

/-- DSAVFY `message, mlen, r, s` (R220, R221): writes no byte of `OM` (R224). -/
def execDsavfy (message mlen r sig : Word) (s : State) : Host.Outcome State Fault Refusal :=
  .next (issue (.dsavfy message mlen r sig) (fun s =>
    let v := dsaVerify s.params s.digest (s.readBytes message.toNat mlen.toNat)
      (s.readBytes r.toNat Config.sigSize) (s.readBytes sig.toNat Config.sigSize)
    (s.withDigest v.2.2).done v.1 v.2.1) s)

end Sys2Proof.Machine
end

