-- ==== Sys2Proof/Machine/Validators.lean ====
section
/-! DEFINITION. The list and message validators KSVVFY and SRMVFY (spec/45_validators.md). -/
namespace Sys2Proof.Machine

/-- KSVVFY `blob, blen` (R236): the trailing 20 bytes against the digest of the bytes before them. -/
def execKsvvfy (blob blen : Word) (s : State) : Host.Outcome State Fault Refusal :=
  .next (issue (.ksvvfy blob blen) (fun s =>
    if blen.toNat < Config.ksvHeaderSize + Config.digestSize then s.fail .short
    else
      let hashed := blen.toNat - Config.digestSize
      let h := s.digest.run (s.readBytes blob.toNat hashed)
      if h.1 = .ok then
        (s.withDigest h.2.2).done .ok
          (boolRet (h.2.1 == s.readBytes (blob.toNat + hashed) Config.digestSize))
      else (s.withDigest h.2.2).fail .corrupt) s)

/-- SRMVFY `blob, blen` (R238): the length check, then DSAVFY's steps on the parts of the blob. -/
def execSrmvfy (blob blen : Word) (s : State) : Host.Outcome State Fault Refusal :=
  .next (issue (.srmvfy blob blen) (fun s =>
    if blen.toNat < s.params.srmMinHeader + 2 * Config.sigSize then s.fail .short
    else
      let mlen := blen.toNat - 2 * Config.sigSize
      let v := dsaVerify s.params s.digest (s.readBytes blob.toNat mlen)
        (s.readBytes (blob.toNat + mlen) Config.sigSize)
        (s.readBytes (blob.toNat + mlen + Config.sigSize) Config.sigSize)
      (s.withDigest v.2.2).done v.1 v.2.1) s)

end Sys2Proof.Machine
end

