-- ==== Sys2Proof/Machine/Dispatch.lean ====
section
/-! DEFINITION. One arm per command of spec/30_encoding.md R100. -/
namespace Sys2Proof.Machine

def exec (i : Instr) (s : State) : Host.Outcome State Fault Refusal :=
  match i with
  | .copy dst src n => Sys2Proof.Machine.execCopy dst src n s
  | .fill dst value n => Sys2Proof.Machine.execFill dst value n s
  | .rev buf n => Sys2Proof.Machine.execRev buf n s
  | .cmp a b n => Sys2Proof.Machine.execCmp a b n s
  | .alleq a value n => Sys2Proof.Machine.execAlleq a value n s
  | .addc out a b n => Sys2Proof.Machine.execAddc out a b n s
  | .subb out a b n => Sys2Proof.Machine.execSubb out a b n s
  | .shaReset => Sys2Proof.Machine.execShaReset s
  | .shaInput data length => Sys2Proof.Machine.execShaInput data length s
  | .shaResult out => Sys2Proof.Machine.execShaResult out s
  | .mac window a scalar n => Sys2Proof.Machine.execMac window a scalar n s
  | .mul out a b n => Sys2Proof.Machine.execMul out a b n s
  | .div out dividend divisor n => Sys2Proof.Machine.execDiv out dividend divisor n s
  | .modred out value modulus n vlen => Sys2Proof.Machine.execModred out value modulus n vlen s
  | .modmul out a b modulus n => Sys2Proof.Machine.execModmul out a b modulus n s
  | .modexp out base exponent modulus n exponentN => Sys2Proof.Machine.execModexp out base exponent modulus n exponentN s
  | .modinv out value modulus n => Sys2Proof.Machine.execModinv out value modulus n s
  | .dsavfy message mlen r sig => Sys2Proof.Machine.execDsavfy message mlen r sig s
  | .ksvvfy blob blen => Sys2Proof.Machine.execKsvvfy blob blen s
  | .srmvfy blob blen => Sys2Proof.Machine.execSrmvfy blob blen s

end Sys2Proof.Machine
end

