-- ==== Sys2Proof/Machine/HostPort.lean ====
section
/-! DEFINITION. The host register block (spec/10_state.md R20 to R29): issuing a command by a write of
`CMD`, the data port, the other registers, and what one access of the host does. -/
namespace Sys2Proof.Machine

/-- A host write of `w` to `CMD` (R23; 30_encoding.md R92): `w` is stored, then the command it encodes
with the argument registers runs; a word that is no command ends with `ILLEGAL` and does nothing else
(R98). -/
def issueCommand (w : Word) (s : State) : Host.Outcome State Fault Refusal :=
  match decode w s.arg with
  | .ok i => exec i (s.withCmd w)
  | .error _ => .next ((s.withCmd w).fail .illegal)

/-- A host read of `OM_DATA` (R26): the byte at `OM_ADDR`, zero-extended, or 0 outside `OM`; then
`OM_ADDR` advances modulo 2^32. -/
def readDataPort (s : State) : Word × State :=
  (if s.omAddr.toNat < s.params.omSize then (s.omByte s.omAddr.toNat).setWidth 32 else 0,
    s.withOmAddr (s.omAddr + 1))

/-- A host write of `data` to `OM_DATA` (R26): the low byte goes to `OM_ADDR`, or nowhere outside `OM`;
then `OM_ADDR` advances modulo 2^32. -/
def writeDataPort (data : Word) (s : State) : State :=
  let t := if s.omAddr.toNat < s.params.omSize
    then s.writeBytes s.omAddr.toNat [data.extractLsb' 0 8] else s
  t.withOmAddr (s.omAddr + 1)

/-- A host access has a meaning: 32 bits wide, at a multiple of 4 inside the block (20_memory.md R71). -/
def accessDefined (bytes offset : Nat) : Bool :=
  bytes == 4 && offset % 4 == 0 && offset < Config.registerBlockSize

/-- The word a host read at a register offset returns, and the state after it (R21 to R29): only
`OM_DATA` has a side effect (20_memory.md R73). Reserved offsets read as 0. -/
def hostRead (offset : Nat) (s : State) : Word × State :=
  match offset with
  | 0x00 => (s.cmd, s)
  | 0x04 => (s.status, s)
  | 0x08 => (s.retval, s)
  | 0x0C => (s.omAddr, s)
  | 0x10 => readDataPort s
  | 0x20 => (s.arg[0], s)
  | 0x24 => (s.arg[1], s)
  | 0x28 => (s.arg[2], s)
  | 0x2C => (s.arg[3], s)
  | 0x30 => (s.arg[4], s)
  | 0x34 => (s.arg[5], s)
  | _ => (0, s)

/-- A host write at a register offset (R21 to R29): `CMD` issues a command; writes to `STATUS`,
`RETVAL` and reserved offsets are ignored. -/
def hostWrite (offset : Nat) (data : Word) (s : State) : Host.Outcome State Fault Refusal :=
  match offset with
  | 0x00 => issueCommand data s
  | 0x0C => .next (s.withOmAddr data)
  | 0x10 => .next (writeDataPort data s)
  | 0x20 => .next (s.withArgs (s.arg.set 0 data))
  | 0x24 => .next (s.withArgs (s.arg.set 1 data))
  | 0x28 => .next (s.withArgs (s.arg.set 2 data))
  | 0x2C => .next (s.withArgs (s.arg.set 3 data))
  | 0x30 => .next (s.withArgs (s.arg.set 4 data))
  | 0x34 => .next (s.withArgs (s.arg.set 5 data))
  | _ => .next s

/-- One access of the host or the platform; an access R71 gives no meaning is refused by name. -/
def performAccess (x : HostAccess) (s : State) : Host.Outcome State Fault Refusal :=
  match x with
  | .read bytes offset =>
    if accessDefined bytes offset then
      .next ((hostRead offset s).2.withReadData (hostRead offset s).1)
    else .refused .undefinedAccess
  | .write bytes offset data =>
    if accessDefined bytes offset then hostWrite offset data s
    else .refused .undefinedAccess
  | .hardReset => .next s.hardReset

/-- One step of the whole machine (00_scope.md R15, 20_memory.md R75): the next access of the host, if
there is one; otherwise the engine is idle and keeps all its state (60_exceptions.md R260). -/
def hostStep (s : State) : Host.Outcome State Fault Refusal :=
  match s.host with
  | [] => .next s
  | x :: rest => performAccess x (s.withHost rest)

/-- `s` with the command whose bits are `w` presented: its operand words in the argument registers and
the write of its first word to `CMD` as the host's next access (30_encoding.md R90, R92). -/
def presentCommand (s : State) (nbits w : Nat) : State :=
  (s.withArgs (tableArgs nbits w)).withHost (.write 4 0x00 (tableWord nbits w 0) :: s.host)

end Sys2Proof.Machine
end

