-- ==== Sys2Proof/Machine/Step.lean ====
section
/-! DEFINITION. The step of the machine, and the state whose next step runs a given command. -/
namespace Sys2Proof.Machine

/-- One step: the host's next access, performed atomically (spec/20_memory.md R75); the engine idles
when there is none. -/
def step (s : State) : Host.Outcome State Fault Refusal := hostStep s

/-- `s` with the command whose bits are `w` presented to the engine, so that the very next step runs
it (log 1). -/
def State.withFetchWord (s : State) (nbits w : Nat) : State := presentCommand s nbits w

end Sys2Proof.Machine
end

