-- ==== Sys2Proof/Safety.lean ====
section
/-! DEFINITION. The terms the claims use: what a sound state is, what a stored digest state means, SHA-1
of a whole message as spec/41_sha1.md R145 to R149 describe it, and how a command's effect is framed. -/
namespace Sys2Proof.Machine

/-! ### SHA-1 of a whole message, without an engine -/

/-- The chaining value after `k` blocks of 64 bytes from the start of `bs` (R144, R145). -/
def chainBlocks : Nat → HashWords → List Byte → HashWords
  | 0, h, _ => h
  | k + 1, h, bs => chainBlocks k (compressBlock h (bs.take 64)) (bs.drop 64)

/-- The padding of a message of `n` bytes (R148): the byte `0x80`, zeros, and the bit length in eight
bytes, most significant first, up to a multiple of 64 bytes. -/
def sha1Padding (n : Nat) : List Byte :=
  0x80 :: (List.replicate ((119 - n % 64) % 64) 0 ++ beBytes 8 (8 * n))

/-- The final hash words of a message (R145, R148). -/
def sha1Hash (m : List Byte) : HashWords :=
  chainBlocks ((m.length + (sha1Padding m.length).length) / 64) HashWords.init
    (m ++ sha1Padding m.length)

/-- `SHA1(m)`: the 20 digest bytes of a message (R149). -/
def sha1 (m : List Byte) : List Byte := (sha1Hash m).bytes

/-! ### The digest state (10_state.md R36, R37) -/

/-- Corrupted (R36). -/
abbrev Digest.Corrupted (d : Digest) : Prop := d.cor = true

/-- Finalized (R36). -/
abbrev Digest.Finalized (d : Digest) : Prop := d.cor = false ∧ d.fin = true

/-- Idle (R36). -/
abbrev Digest.Idle (d : Digest) : Prop := d.cor = false ∧ d.fin = false ∧ d.len = 0

/-- Accumulating (R36). -/
abbrev Digest.Accumulating (d : Digest) : Prop := d.cor = false ∧ d.fin = false ∧ 0 < d.len.toNat

/-- The digest state has consumed exactly the message `m` since its reset (R37). -/
structure Digest.Holds (d : Digest) (m : List Byte) : Prop where
  notCorrupted : d.cor = false
  notFinal : d.fin = false
  length : d.len.toNat = 8 * m.length
  index : d.idx.val = m.length % 64
  hash : d.hash = chainBlocks (m.length / 64) HashWords.init m
  buffer : d.blk.toList.take d.idx.val = m.drop (64 * (m.length / 64))

/-- The counter invariant of R37, without the message: while neither flag is set, `LEN` is a multiple
of 8 and `IDX = (LEN / 8) mod 64`. -/
abbrev Digest.Counted (d : Digest) : Prop :=
  d.cor = false → d.fin = false → d.len.toNat % 8 = 0 ∧ d.idx.val = d.len.toNat / 8 % 64

/-! ### Sound states -/

/-- What every state a run reaches satisfies: the memory is canonical and lies inside `OM`, the
parameters are legal (R11), the digest counters agree (R37), a return value other than 0 comes with the
code `OK` (R251). -/
structure State.Sound (s : State) : Prop where
  canonical : s.om.wf
  inside : ∀ c ∈ s.om, c.1 < s.params.omSize
  legal : s.params.Legal
  counted : s.digest.Counted
  retval : s.retval ≠ 0 → s.code = .ok

/-! ### Framing a command's effect -/

/-- `t` is `s` but for the result registers, which hold `OK` and `ret`, and for bytes of
`OM[start .. start+length)`: every other register, the digest state and every other byte of `OM` are
unchanged. -/
abbrev State.EndsWriting (s t : State) (ret : Word) (start length : Nat) : Prop :=
  t = { s with om := t.om, code := .ok, retval := ret }
    ∧ ∀ a, ¬(start ≤ a ∧ a < start + length) → t.omByte a = s.omByte a

/-- `t` is `s` but for the result registers, which hold `code` and `ret`, and for the digest state. -/
abbrev State.EndsDigesting (s t : State) (code : ResultCode) (ret : Word) : Prop :=
  t = { s with digest := t.digest, code := code, retval := ret }

/-- Every range of the command lies inside `OM` (30_encoding.md R97). -/
abbrev State.Reaches (s : State) (i : Instr) : Prop :=
  ∀ r ∈ readRanges i ++ writtenRanges i, r.start + r.length ≤ s.params.omSize

/-- A written range `[w, w+n)` and a read range `[r, r+n)` are identical or share no address
(40_byte_array.md R128). -/
abbrev CleanRanges (w r n : Nat) : Prop := w = r ∨ w + n ≤ r ∨ r + n ≤ w

/-- The ranges `[a, a+n)` and `[b, b+m)` share no address. -/
abbrev Apart (a n b m : Nat) : Prop := a + n ≤ b ∨ b + m ≤ a

/-- The word `w` in `CMD` with the operands `ops` in `ARG[0]`, `ARG[1]`, … is the command `i`, whatever
the other argument registers hold (30_encoding.md R90, R93). -/
abbrev Encoded (i : Instr) (w : Word) (ops : List Word) : Prop :=
  ∀ g : Args, (∀ (k : Nat) (v : Word), ops[k]? = some v → g[k]? = some v) → decode w g = .ok i

/-- The command `i` ends in the state `s` with the failure `code`: nothing but the result registers
changes (60_exceptions.md R251, R255). -/
abbrev Fails (i : Instr) (s : State) (code : ResultCode) : Prop :=
  exec i s = .next { s with code := code, retval := 0 }

/-- The range of `n` bytes from `a` lies inside `OM`, the sum taken without wrap (30_encoding.md R97). -/
abbrev State.Inside (s : State) (a : Word) (n : Nat) : Prop := a.toNat + n ≤ s.params.omSize

/-- `t` is what a partly overlapping command leaves of `s` (40_byte_array.md R128): the code `OK`, no byte
outside `OM[start .. start+length)` changed, nothing said of the bytes inside. (`overlaps` is the model's
own count of such commands.) -/
abbrev State.EndsUnspecified (s t : State) (start length : Nat) : Prop :=
  t = { s with om := t.om, code := .ok, retval := t.retval, overlaps := s.overlaps + 1 }
    ∧ ∀ a, ¬(start ≤ a ∧ a < start + length) → t.omByte a = s.omByte a

/-- The seven steps of 44_dsa.md R221 for a command `i` in the state `s`, on the message `msg` and on
`r` and `s` in wire order: each failure of R222 in its order with the digest state R223 leaves, and the
verdict. `P`, `Q`, `G`, `Y` are the state's parameters. -/
abbrev DsaSteps (i : Instr) (s : State) (msg rw sw : List Byte) : Prop :=
  (intBe sw = 0 → Fails i s .zero)
    ∧ (s.params.q.toNat = 0 → Fails i s .zero)
    ∧ (intBe sw ≠ 0 → s.params.q.toNat ≠ 0 → s.params.q.toNat ≤ intBe sw → Fails i s .notless)
    ∧ (intBe sw < s.params.q.toNat → intBe sw ≠ 0 → Nat.gcd (intBe sw) s.params.q.toNat ≠ 1 →
        Fails i s .noinv)
    ∧ (intBe sw ≠ 0 → intBe sw < s.params.q.toNat → Nat.gcd (intBe sw) s.params.q.toNat = 1 →
        (msg = [] → ∃ t, exec i s = .next t ∧ s.EndsDigesting t .corrupt 0 ∧ t.digest.Corrupted)
        ∧ (msg ≠ [] → s.params.p.toNat = 0 → ∃ t, exec i s = .next t ∧ s.EndsDigesting t .zero 0
            ∧ t.digest.Finalized ∧ t.digest.hash.bytes = sha1 msg)
        ∧ (msg ≠ [] → s.params.p.toNat ≠ 0 → ∃ t w, exec i s = .next t
            ∧ w < s.params.q.toNat ∧ intBe sw * w % s.params.q.toNat = 1
            ∧ s.EndsDigesting t .ok
                (if (s.params.g.toNat ^ (intBe (sha1 msg) * w % s.params.q.toNat) % s.params.p.toNat)
                    * (s.params.y.toNat ^ (intBe rw * w % s.params.q.toNat) % s.params.p.toNat)
                    % s.params.p.toNat % s.params.q.toNat = intBe rw then 1 else 0)
            ∧ t.digest.Finalized ∧ t.digest.hash.bytes = sha1 msg))

/-- Every digest state a run reaches is Corrupted, holds the final digest of some message, or holds a
message in progress (10_state.md R37). -/
abbrev Digest.Meaningful (d : Digest) : Prop :=
  d.Corrupted ∨ (d.Finalized ∧ ∃ m, d.hash = sha1Hash m) ∨ ∃ m, d.Holds m

end Sys2Proof.Machine
end

