-- ==== Sys2Proof/Certificates/Slice0/Obligations.lean ====
section
/-! DEFINITION. What is claimed of the machine, for the provers. Each docstring names the rule of spec/ the
statement follows; the terms are those of Sys2Proof/Safety.lean. -/
section
open Sys2Proof Sys2Proof.Machine

/-! ### Encoding and issue -/

/-- The decoder reads every command back from its words, whatever the argument registers beyond its operand
list hold (30_encoding.md R90, R93, R100). -/
def Obligations.DecodeReadsEveryEncodedCommand : Prop :=
  ∀ i : Instr, decode (encode i).1 (encode i).2 = .ok i
    ∧ Encoded i (encodeWord i) (encodeOperands i)

/-- A decoded word is the word of its command, with the upper 24 bits zero, and the command's operands are the
first argument registers, in full or by their low byte (R90, R93 to R96). -/
def Obligations.DecodedOperandsAreTheRegisters : Prop :=
  ∀ (w : Word) (g : Args) (i : Instr), decode w g = .ok i →
    w = encodeWord i ∧ w.toNat < 256
      ∧ ∀ (k : Nat) (v : Word), (encodeOperands i)[k]? = some v →
          ∃ u, g[k]? = some u ∧ (u = v ∨ v.toNat = u.toNat % 256)

/-- Six command words written out from R100, with operands in the order of R93. -/
def Obligations.SampleCommandWordsDecode : Prop :=
  decode 0x00000001 #v[0x10, 0, 3, 9, 9, 9] = .ok (.copy 0x10 0 3)
    ∧ decode 0x00000002 #v[0x20, 0x1FF, 4, 9, 9, 9] = .ok (.fill 0x20 0xFF 4)
    ∧ decode 0x00000012 #v[0x40, 9, 9, 9, 9, 9] = .ok (.shaResult 0x40)
    ∧ decode 0x00000020 #v[1, 2, 0xABCDEF, 4, 9, 9] = .ok (.mac 1 2 0xEF 4)
    ∧ decode 0x00000032 #v[1, 2, 3, 4, 5, 6] = .ok (.modexp 1 2 3 4 5 6)
    ∧ decode 0x00000042 #v[7, 53, 9, 9, 9, 9] = .ok (.srmvfy 7 53)

/-- A write of `CMD` stores the word and runs the command it encodes with the argument registers of that moment,
as one step (R23, R92; 20_memory.md R75). That the host's accesses stand in a list of the state is the model's
choice (log 1). -/
def Obligations.StepRunsTheIssuedCommand : Prop :=
  ∀ (s : State) (w : Word) (i : Instr) (rest : List HostAccess),
    s.host = .write 4 0x00 w :: rest → decode w s.arg = .ok i →
      step s = exec i { s with host := rest, cmd := w }

/-- Every word other than the twenty of R100 ends with `ILLEGAL` and changes nothing but `CMD` and the result
registers (R98). -/
def Obligations.IllegalWordOnlyReports : Prop :=
  ∀ (s : State) (w : Word) (rest : List HostAccess), s.host = .write 4 0x00 w :: rest →
    w ∉ [0x01, 0x02, 0x03, 0x04, 0x05, 0x06, 0x07, 0x10, 0x11, 0x12, 0x20, 0x21, 0x22,
          0x30, 0x31, 0x32, 0x33, 0x40, 0x41, 0x42] →
      step s = .next { s with host := rest, cmd := w, code := .illegal, retval := 0 }

/-- The step after `withFetchWord` runs the command the table word decodes to, on its own operand words. How a
command is presented is the model's choice (log 1). -/
def Obligations.PresentedCommandRunsNext : Prop :=
  ∀ (s : State) (nbits w : Nat) (i : Instr), decodeTableWord nbits w = some i →
    step (s.withFetchWord nbits w)
      = exec i { s with arg := tableArgs nbits w, cmd := tableWord nbits w 0 }

/-! ### The host register block -/

/-- What a host read returns, `OM_DATA` apart, with nothing else changed (10_state.md R21 to R25, R29;
20_memory.md R73). The value goes to `readData`, the model's own field (log 8). -/
def Obligations.HostReadsReturnRegisters : Prop :=
  ∀ (s : State) (offset : Nat) (rest : List HostAccess), s.host = .read 4 offset :: rest →
    (offset = 0x00 → step s = .next { s with host := rest, readData := s.cmd })
    ∧ (offset = 0x04 → step s = .next { s with host := rest, readData := s.status })
    ∧ (offset = 0x08 → step s = .next { s with host := rest, readData := s.retval })
    ∧ (offset = 0x0C → step s = .next { s with host := rest, readData := s.omAddr })
    ∧ (∀ k : Fin 6, offset = 0x20 + 4 * k.val →
        step s = .next { s with host := rest, readData := s.arg[k] })
    ∧ (offset ∈ [0x14, 0x18, 0x1C, 0x38, 0x3C] → step s = .next { s with host := rest, readData := 0 })

/-- What a host write of a register other than `CMD` and `OM_DATA` does: `OM_ADDR` and `ARG[k]` take the word,
`STATUS`, `RETVAL` and the reserved offsets ignore it (10_state.md R21, R22, R24, R25, R29). -/
def Obligations.HostWritesReachOnlyTheirRegister : Prop :=
  ∀ (s : State) (offset : Nat) (data : Word) (rest : List HostAccess),
    s.host = .write 4 offset data :: rest →
    (offset = 0x0C → step s = .next { s with host := rest, omAddr := data })
    ∧ (∀ k : Fin 6, offset = 0x20 + 4 * k.val →
        step s = .next { s with host := rest, arg := s.arg.set k.val data k.isLt })
    ∧ (offset ∈ [0x04, 0x08, 0x14, 0x18, 0x1C, 0x38, 0x3C] → step s = .next { s with host := rest })

/-- The data port (10_state.md R26). That the returned word goes to `readData`, the model's own field, is the model's
choice (log 8), as it is that the access stands in the list of accesses (log 1). -/
def Obligations.DataPortMovesOneByte : Prop :=
  ∀ (s : State) (rest : List HostAccess),
    (s.host = .read 4 0x10 :: rest →
      step s = .next { s with
        host := rest
        readData := if s.omAddr.toNat < s.params.omSize then (s.omByte s.omAddr.toNat).setWidth 32 else 0
        omAddr := BitVec.ofNat 32 (s.omAddr.toNat + 1) })
    ∧ ∀ data : Word, s.host = .write 4 0x10 data :: rest →
        ∃ t, step s = .next t
          ∧ t = { s with host := rest, om := t.om, omAddr := BitVec.ofNat 32 (s.omAddr.toNat + 1) }
          ∧ ∀ x, t.omByte x =
              if x = s.omAddr.toNat ∧ x < s.params.omSize then data.extractLsb' 0 8 else s.omByte x

/-- An access that is not 32 bits wide at a multiple of 4 inside the block is refused, not performed
(20_memory.md R71); that the model has such an access, to refuse it, is its choice (log 9). -/
def Obligations.UndefinedAccessIsRefused : Prop :=
  ∀ (s : State) (bytes offset : Nat) (data : Word) (rest : List HostAccess),
    ¬(bytes = 4 ∧ offset % 4 = 0 ∧ offset < 64) →
    (s.host = .read bytes offset :: rest → step s = .refused .undefinedAccess)
    ∧ (s.host = .write bytes offset data :: rest → step s = .refused .undefinedAccess)

/-- Every access R71 gives a meaning, every issued word among them, every reset and every idle moment has a next
state: nothing hangs and nothing traps (60_exceptions.md R250; 70_reset_and_hazards.md R301). That an idle moment is a
step (R260) is the model's choice (log 1), and so is a reset as an entry of the list of accesses (R280; log 10). -/
def Obligations.EveryDefinedAccessCompletes : Prop :=
  ∀ s : State,
    (∀ bytes offset rest, s.host = .read bytes offset :: rest →
      bytes = 4 ∧ offset % 4 = 0 ∧ offset < 64) →
    (∀ bytes offset data rest, s.host = .write bytes offset data :: rest →
      bytes = 4 ∧ offset % 4 = 0 ∧ offset < 64) →
    ∃ t, step s = .next t

/-- `STATUS` (10_state.md R24) with the numerals of the codes (60_exceptions.md R252). -/
def Obligations.StatusShowsCodeAndFlags : Prop :=
  ∀ s : State,
    s.status.toNat = (match s.code with
        | .ok => 0 | .short => 1 | .zero => 2 | .notless => 3 | .noinv => 4
        | .aliased => 5 | .corrupt => 6 | .illegal => 7 | .badarg => 8 | .range => 9)
      + 2 ^ 8 * s.digest.fin.toNat + 2 ^ 9 * s.digest.cor.toNat

/-- Hardware reset at any moment (70_reset_and_hazards.md R280, R281; the values of 10_state.md R41): every host
register 0, the digest state Idle, the parameters and so the ROM untouched. `BLK` and `OM` are unspecified there,
and nothing is said of them. That a reset stands in the list of accesses is the model's choice (log 10). -/
def Obligations.HardwareResetClears : Prop :=
  ∀ (s : State) (rest : List HostAccess), s.host = .hardReset :: rest →
    ∃ t, step s = .next t
      ∧ t.cmd = 0 ∧ t.code = .ok ∧ t.retval = 0 ∧ t.omAddr = 0 ∧ t.arg = #v[0, 0, 0, 0, 0, 0]
      ∧ t.status = 0 ∧ t.digest.Idle ∧ t.digest.idx = 0
      ∧ t.digest.hash = ⟨0x67452301, 0xEFCDAB89, 0x98BADCFE, 0x10325476, 0xC3D2E1F0⟩
      ∧ t.params = s.params ∧ t.host = rest

/-- Between accesses the engine keeps all its state (60_exceptions.md R260). That an idle moment is a step is the
model's choice (log 1). -/
def Obligations.IdleEngineKeepsItsState : Prop :=
  ∀ s : State, s.host = [] → step s = .next s

/-- The values of 10_state.md R41 in the reset state, `BLK` and `OM` apart. -/
def Obligations.ResetHasTheTabledValues : Prop :=
  State.reset.cmd = 0 ∧ State.reset.code = .ok ∧ State.reset.retval = 0 ∧ State.reset.omAddr = 0
    ∧ State.reset.arg = #v[0, 0, 0, 0, 0, 0] ∧ State.reset.digest.Idle ∧ State.reset.digest.idx = 0
    ∧ State.reset.digest.hash = ⟨0x67452301, 0xEFCDAB89, 0x98BADCFE, 0x10325476, 0xC3D2E1F0⟩

/-! ### Byte arrays -/

/-- COPY (40_byte_array.md R121) on ranges that are identical or disjoint (R128). The last clause is the model's
choice for partly overlapping ranges: R128 lets a model refuse them or leave arbitrary bytes, and this one leaves free
bytes (log 5), with a count of such commands that is its own (log 7). -/
def Obligations.CopyMovesTheRange : Prop :=
  ∀ (dst src n : Word) (s : State),
    Encoded (.copy dst src n) 0x00000001 [dst, src, n]
    ∧ (n.toNat = 0 → Fails (.copy dst src n) s .badarg)
    ∧ (n.toNat ≠ 0 → ¬(s.Inside src n.toNat ∧ s.Inside dst n.toNat) → Fails (.copy dst src n) s .range)
    ∧ (n.toNat ≠ 0 → s.Inside src n.toNat → s.Inside dst n.toNat →
        (CleanRanges dst.toNat src.toNat n.toNat →
          ∃ t, exec (.copy dst src n) s = .next t ∧ s.EndsWriting t 0 dst.toNat n.toNat
            ∧ t.readBytes dst.toNat n.toNat = s.readBytes src.toNat n.toNat)
        ∧ (¬CleanRanges dst.toNat src.toNat n.toNat →
          ∃ t, exec (.copy dst src n) s = .next t ∧ s.EndsUnspecified t dst.toNat n.toNat ∧ t.retval = 0))

/-- FILL (40_byte_array.md R122), the upper bits of `ARG[1]` ignored. -/
def Obligations.FillStoresTheByte : Prop :=
  ∀ (dst v n : Word) (s : State),
    Encoded (.fill dst (v.extractLsb' 0 8) n) 0x00000002 [dst, v, n]
    ∧ (n.toNat = 0 → Fails (.fill dst (v.extractLsb' 0 8) n) s .badarg)
    ∧ (n.toNat ≠ 0 → ¬s.Inside dst n.toNat → Fails (.fill dst (v.extractLsb' 0 8) n) s .range)
    ∧ (n.toNat ≠ 0 → s.Inside dst n.toNat →
        ∃ t, exec (.fill dst (v.extractLsb' 0 8) n) s = .next t ∧ s.EndsWriting t 0 dst.toNat n.toNat
          ∧ ∀ k < n.toNat, t.omByte (dst.toNat + k) = v.extractLsb' 0 8)

/-- REV (40_byte_array.md R123). -/
def Obligations.RevReversesTheRange : Prop :=
  ∀ (buf n : Word) (s : State),
    Encoded (.rev buf n) 0x00000003 [buf, n]
    ∧ (n.toNat = 0 → Fails (.rev buf n) s .badarg)
    ∧ (n.toNat ≠ 0 → ¬s.Inside buf n.toNat → Fails (.rev buf n) s .range)
    ∧ (n.toNat ≠ 0 → s.Inside buf n.toNat →
        ∃ t, exec (.rev buf n) s = .next t ∧ s.EndsWriting t 0 buf.toNat n.toNat
          ∧ (∀ k < n.toNat, t.omByte (buf.toNat + k) = s.omByte (buf.toNat + (n.toNat - 1 - k)))
          ∧ intLe (t.readBytes buf.toNat n.toNat) = intBe (s.readBytes buf.toNat n.toNat))

/-- CMP (40_byte_array.md R124): the order of the two numbers. -/
def Obligations.CmpOrdersTheNumbers : Prop :=
  ∀ (a b n : Word) (s : State),
    Encoded (.cmp a b n) 0x00000004 [a, b, n]
    ∧ (n.toNat = 0 → Fails (.cmp a b n) s .badarg)
    ∧ (n.toNat ≠ 0 → ¬(s.Inside a n.toNat ∧ s.Inside b n.toNat) → Fails (.cmp a b n) s .range)
    ∧ (n.toNat ≠ 0 → s.Inside a n.toNat → s.Inside b n.toNat →
        exec (.cmp a b n) s = .next { s with
          code := .ok
          retval :=
            if intLe (s.readBytes b.toNat n.toNat) < intLe (s.readBytes a.toNat n.toNat) then 1
            else if intLe (s.readBytes a.toNat n.toNat) < intLe (s.readBytes b.toNat n.toNat) then 2
            else 0 })

/-- ALLEQ (40_byte_array.md R125), the upper bits of `ARG[1]` ignored. -/
def Obligations.AlleqTestsEveryByte : Prop :=
  ∀ (a v n : Word) (s : State),
    Encoded (.alleq a (v.extractLsb' 0 8) n) 0x00000005 [a, v, n]
    ∧ (n.toNat = 0 → Fails (.alleq a (v.extractLsb' 0 8) n) s .badarg)
    ∧ (n.toNat ≠ 0 → ¬s.Inside a n.toNat → Fails (.alleq a (v.extractLsb' 0 8) n) s .range)
    ∧ (n.toNat ≠ 0 → s.Inside a n.toNat →
        exec (.alleq a (v.extractLsb' 0 8) n) s = .next { s with
          code := .ok
          retval := if ∀ k < n.toNat, s.omByte (a.toNat + k) = v.extractLsb' 0 8 then 1 else 0 })

/-- ADDC (40_byte_array.md R126): the sum modulo `256^n`, the carry returned, where the output is identical to or
disjoint from each input (R128). The last clause is the model's choice for a partly overlapping output: R128 lets a
model refuse it or leave arbitrary bytes, and this one leaves free bytes (log 5) and a free `RETVAL` (log 6), with a
count of such commands that is its own (log 7). -/
def Obligations.AddcAddsAndReturnsTheCarry : Prop :=
  ∀ (out a b n : Word) (s : State),
    Encoded (.addc out a b n) 0x00000006 [out, a, b, n]
    ∧ (n.toNat = 0 → Fails (.addc out a b n) s .badarg)
    ∧ (n.toNat ≠ 0 → ¬(s.Inside a n.toNat ∧ s.Inside b n.toNat ∧ s.Inside out n.toNat) →
        Fails (.addc out a b n) s .range)
    ∧ (n.toNat ≠ 0 → s.Inside a n.toNat → s.Inside b n.toNat → s.Inside out n.toNat →
        (CleanRanges out.toNat a.toNat n.toNat → CleanRanges out.toNat b.toNat n.toNat →
          ∃ t, exec (.addc out a b n) s = .next t ∧ s.EndsWriting t t.retval out.toNat n.toNat
            ∧ t.retval.toNat = (intLe (s.readBytes a.toNat n.toNat)
                + intLe (s.readBytes b.toNat n.toNat)) / 256 ^ n.toNat
            ∧ intLe (t.readBytes out.toNat n.toNat) = (intLe (s.readBytes a.toNat n.toNat)
                + intLe (s.readBytes b.toNat n.toNat)) % 256 ^ n.toNat)
        ∧ (¬(CleanRanges out.toNat a.toNat n.toNat ∧ CleanRanges out.toNat b.toNat n.toNat) →
          ∃ t, exec (.addc out a b n) s = .next t ∧ s.EndsUnspecified t out.toNat n.toNat))

/-- SUBB (40_byte_array.md R127): the difference modulo `256^n`, the borrow returned, where the output is identical
to or disjoint from each input (R128). The last clause is the model's choice for a partly overlapping output: R128 lets
a model refuse it or leave arbitrary bytes, and this one leaves free bytes (log 5) and a free `RETVAL` (log 6), with a
count of such commands that is its own (log 7). -/
def Obligations.SubbSubtractsAndReturnsTheBorrow : Prop :=
  ∀ (out a b n : Word) (s : State),
    Encoded (.subb out a b n) 0x00000007 [out, a, b, n]
    ∧ (n.toNat = 0 → Fails (.subb out a b n) s .badarg)
    ∧ (n.toNat ≠ 0 → ¬(s.Inside a n.toNat ∧ s.Inside b n.toNat ∧ s.Inside out n.toNat) →
        Fails (.subb out a b n) s .range)
    ∧ (n.toNat ≠ 0 → s.Inside a n.toNat → s.Inside b n.toNat → s.Inside out n.toNat →
        (CleanRanges out.toNat a.toNat n.toNat → CleanRanges out.toNat b.toNat n.toNat →
          ∃ t, exec (.subb out a b n) s = .next t
            ∧ s.EndsWriting t
                (if intLe (s.readBytes a.toNat n.toNat) < intLe (s.readBytes b.toNat n.toNat) then 1 else 0)
                out.toNat n.toNat
            ∧ intLe (t.readBytes out.toNat n.toNat) = (256 ^ n.toNat + intLe (s.readBytes a.toNat n.toNat)
                - intLe (s.readBytes b.toNat n.toNat)) % 256 ^ n.toNat)
        ∧ (¬(CleanRanges out.toNat a.toNat n.toNat ∧ CleanRanges out.toNat b.toNat n.toNat) →
          ∃ t, exec (.subb out a b n) s = .next t ∧ s.EndsUnspecified t out.toNat n.toNat))

/-! ### The digest engine -/

/-- SHA_RESET (41_sha1.md R141) with the constants of R146: legal in every state. -/
def Obligations.ShaResetReturnsToIdle : Prop :=
  Encoded .shaReset 0x00000010 []
  ∧ ∀ s : State, exec .shaReset s = .next { s with
      digest := { s.digest with
        hash := ⟨0x67452301, 0xEFCDAB89, 0x98BADCFE, 0x10325476, 0xC3D2E1F0⟩
        len := 0, idx := 0, fin := false, cor := false }
      code := .ok, retval := 0 }

/-- Where SHA_INPUT does not append (41_sha1.md R142, R143): a bad range changes nothing; a zero length and an
input after finalization corrupt the digest state; a corrupted one is left as it is; an overflow of the counter
corrupts it. That `H`, `LEN`, `BLK` and `IDX` are kept when `COR` becomes 1 is read from the pseudocode of R142 and is
the model's choice (log 11): 10_state.md R37 calls them unspecified while `COR` is 1. -/
def Obligations.ShaInputRefusals : Prop :=
  ∀ (data length : Word) (s : State),
    Encoded (.shaInput data length) 0x00000011 [data, length]
    ∧ (¬s.Inside data length.toNat → Fails (.shaInput data length) s .range)
    ∧ (s.Inside data length.toNat →
        (length.toNat = 0 ∨ s.digest.fin = true ∨ s.digest.cor = true →
          exec (.shaInput data length) s = .next { s with
            digest := { s.digest with cor := true }, code := .corrupt, retval := 0 })
        ∧ (s.digest.fin = false → s.digest.cor = false → 2 ^ 64 ≤ s.digest.len.toNat + 8 * length.toNat →
          ∃ t, exec (.shaInput data length) s = .next t ∧ s.EndsDigesting t .corrupt 0
            ∧ t.digest.Corrupted ∧ t.digest.fin = false))

/-- One byte of SHA_INPUT (41_sha1.md R142, R144): it goes to `BLK[IDX]`, the counter grows by 8, and the 64th
byte of a block runs one compression. -/
def Obligations.ShaInputStoresOneByte : Prop :=
  ∀ (data : Word) (s : State), s.Inside data 1 → s.digest.fin = false → s.digest.cor = false →
    s.digest.len.toNat + 8 < 2 ^ 64 →
    ∃ t, exec (.shaInput data 1) s = .next t ∧ s.EndsDigesting t .ok 0
      ∧ t.digest.len.toNat = s.digest.len.toNat + 8 ∧ t.digest.fin = false ∧ t.digest.cor = false
      ∧ t.digest.blk = s.digest.blk.set s.digest.idx.val (s.omByte data.toNat) s.digest.idx.isLt
      ∧ t.digest.idx.val = (s.digest.idx.val + 1) % 64
      ∧ t.digest.hash = if s.digest.idx.val = 63 then compressBlock s.digest.hash t.digest.blk.toList
          else s.digest.hash

/-- SHA_INPUT of a range is SHA_INPUT of its first part and then of the rest: only the concatenation counts
(41_sha1.md R142). -/
def Obligations.ShaInputDependsOnTheConcatenation : Prop :=
  ∀ (data x y : Word) (s : State), x.toNat ≠ 0 → y.toNat ≠ 0 → data.toNat + x.toNat + y.toNat < 2 ^ 32 →
    s.Inside data (x.toNat + y.toNat) → s.digest.fin = false → s.digest.cor = false →
    s.digest.len.toNat + 8 * (x.toNat + y.toNat) < 2 ^ 64 →
    ∃ t u, exec (.shaInput data x) s = .next t ∧ exec (.shaInput (data + x) y) t = .next u
      ∧ exec (.shaInput data (x + y)) s = .next u
      ∧ u.code = .ok ∧ u.digest.len.toNat = s.digest.len.toNat + 8 * (x.toNat + y.toNat)

/-- A digest state that holds the message `m` holds `m` and the new bytes after a SHA_INPUT that ends with `OK`,
which it does whenever the counter can hold the length (41_sha1.md R142 to R145; 10_state.md R37). -/
def Obligations.ShaInputExtendsTheMessage : Prop :=
  ∀ (data length : Word) (s : State) (m : List Byte), s.digest.Holds m → length.toNat ≠ 0 →
    s.Inside data length.toNat → 8 * (m.length + length.toNat) < 2 ^ 64 →
    ∃ t, exec (.shaInput data length) s = .next t ∧ s.EndsDigesting t .ok 0
      ∧ t.digest.Holds (m ++ s.readBytes data.toNat length.toNat)

/-- SHA_RESULT (41_sha1.md R147, R150): fails while Corrupted, repeats the digest while Finalized, otherwise pads
and finalizes; the digest of a message in progress is the SHA-1 digest of that message. -/
def Obligations.ShaResultDeliversTheDigest : Prop :=
  ∀ (out : Word) (s : State),
    Encoded (.shaResult out) 0x00000012 [out]
    ∧ (¬s.Inside out 20 → Fails (.shaResult out) s .range)
    ∧ (s.Inside out 20 →
        (s.digest.Corrupted → Fails (.shaResult out) s .corrupt)
        ∧ (s.digest.Finalized →
          ∃ t, exec (.shaResult out) s = .next t ∧ s.EndsWriting t 1 out.toNat 20
            ∧ t.readBytes out.toNat 20 = s.digest.hash.bytes)
        ∧ (s.digest.cor = false → s.digest.fin = false →
          ∃ t, exec (.shaResult out) s = .next t
            ∧ { s with digest := t.digest }.EndsWriting t 1 out.toNat 20
            ∧ t.digest.Finalized
            ∧ t.readBytes out.toNat 20 = t.digest.hash.bytes
            ∧ ∀ m, s.digest.Holds m → t.digest.hash.bytes = sha1 m))

/-- The padding (41_sha1.md R148): the byte `0x80`, zeros and the eight length bytes, in one block when they fit
and in two when they do not. -/
def Obligations.ShaResultPadsTheBlock : Prop :=
  ∀ (out : Word) (s : State), s.Inside out 20 → s.digest.cor = false → s.digest.fin = false →
    ∃ t, exec (.shaResult out) s = .next t ∧ t.digest.len = s.digest.len
      ∧ (s.digest.idx.val ≤ 55 → t.digest.hash = compressBlock s.digest.hash
          (s.digest.blk.toList.take s.digest.idx.val ++ [0x80]
            ++ List.replicate (55 - s.digest.idx.val) 0 ++ beBytes 8 s.digest.len.toNat))
      ∧ (56 ≤ s.digest.idx.val → t.digest.hash = compressBlock
          (compressBlock s.digest.hash (s.digest.blk.toList.take s.digest.idx.val ++ [0x80]
            ++ List.replicate (63 - s.digest.idx.val) 0))
          (List.replicate 56 0 ++ beBytes 8 s.digest.len.toNat))

/-- The three commands of the pseudo-instruction SHA1 (30_encoding.md R102), from any digest state, deliver the
SHA-1 digest of the range (41_sha1.md R153). -/
def Obligations.ShaSequenceDigestsTheRange : Prop :=
  ∀ (data length out : Word) (s : State), length.toNat ≠ 0 → s.Inside data length.toNat → s.Inside out 20 →
    ∃ t u v, exec .shaReset s = .next t ∧ exec (.shaInput data length) t = .next u
      ∧ exec (.shaResult out) u = .next v
      ∧ v.code = .ok ∧ v.retval = 1
      ∧ v.readBytes out.toNat 20 = sha1 (s.readBytes data.toNat length.toNat)
      ∧ v.digest.Finalized
      ∧ ∀ a, ¬(out.toNat ≤ a ∧ a < out.toNat + 20) → v.omByte a = s.omByte a

/-- The digest bytes (20_memory.md R69, 41_sha1.md R149): `H[0]` first, each word most significant byte first. -/
def Obligations.DigestIsBigEndianWords : Prop :=
  ∀ h : HashWords, h.bytes.length = 20
    ∧ (∀ (k j : Nat) (w : Word), [h.h0, h.h1, h.h2, h.h3, h.h4][k]? = some w → j < 4 →
        h.bytes[4 * k + j]? = some (w.extractLsb' (24 - 8 * j) 8))
    ∧ intBe h.bytes = h.h0.toNat * 2 ^ 128 + h.h1.toNat * 2 ^ 96 + h.h2.toNat * 2 ^ 64
        + h.h3.toNat * 2 ^ 32 + h.h4.toNat

/-- Block compression (41_sha1.md R145, R146): the schedule `w`, the 80 values `x` of the working variables, and
the sum into the hash words; nothing else of the digest state changes. -/
def Obligations.CompressionFollowsTheSchedule : Prop :=
  ∀ d : Digest, ∃ (w : Nat → Word) (x : Nat → HashWords),
    (∀ t, ∀ h : 4 * t + 3 < 64, (w t).toNat = (d.blk[4 * t]).toNat * 2 ^ 24 + (d.blk[4 * t + 1]).toNat * 2 ^ 16
        + (d.blk[4 * t + 2]).toNat * 2 ^ 8 + (d.blk[4 * t + 3]).toNat)
    ∧ (∀ t, 16 ≤ t → t < 80 → w t = rotl (w (t - 3) ^^^ w (t - 8) ^^^ w (t - 14) ^^^ w (t - 16)) 1)
    ∧ x 0 = d.hash
    ∧ (∀ t < 80,
        (x (t + 1)).h0 = rotl (x t).h0 5
          + (if t ≤ 19 then ((x t).h1 &&& (x t).h2) ||| (~~~(x t).h1 &&& (x t).h3)
            else if t ≤ 39 then (x t).h1 ^^^ (x t).h2 ^^^ (x t).h3
            else if t ≤ 59 then ((x t).h1 &&& (x t).h2) ||| ((x t).h1 &&& (x t).h3) ||| ((x t).h2 &&& (x t).h3)
            else (x t).h1 ^^^ (x t).h2 ^^^ (x t).h3)
          + (x t).h4 + w t
          + (if t ≤ 19 then 0x5A827999 else if t ≤ 39 then 0x6ED9EBA1 else if t ≤ 59 then 0x8F1BBCDC
            else 0xCA62C1D6)
        ∧ (x (t + 1)).h1 = (x t).h0 ∧ (x (t + 1)).h2 = rotl (x t).h1 30
        ∧ (x (t + 1)).h3 = (x t).h2 ∧ (x (t + 1)).h4 = (x t).h3)
    ∧ d.compress = { d with hash := ⟨d.hash.h0 + (x 80).h0, d.hash.h1 + (x 80).h1, d.hash.h2 + (x 80).h2,
        d.hash.h3 + (x 80).h3, d.hash.h4 + (x 80).h4⟩ }

/-- The transitions of 41_sha1.md R140, from every digest state, each with its code. (That the digest from Idle is
that of the empty message needs the hash words of an Idle state that some run reaches: it holds no message yet.) -/
def Obligations.DigestStateTransitions : Prop :=
  ∀ (data length out : Word) (s : State),
    (∃ t, exec .shaReset s = .next t ∧ t.code = .ok ∧ t.digest.Idle)
    ∧ (s.Inside data length.toNat →
        (s.digest.Idle ∨ s.digest.Accumulating →
          (length.toNat ≠ 0 → s.digest.len.toNat + 8 * length.toNat < 2 ^ 64 →
            ∃ t, exec (.shaInput data length) s = .next t ∧ t.code = .ok ∧ t.digest.Accumulating)
          ∧ (length.toNat = 0 ∨ 2 ^ 64 ≤ s.digest.len.toNat + 8 * length.toNat →
            ∃ t, exec (.shaInput data length) s = .next t ∧ t.code = .corrupt ∧ t.digest.Corrupted))
        ∧ (s.digest.Finalized ∨ s.digest.Corrupted →
            ∃ t, exec (.shaInput data length) s = .next t ∧ t.code = .corrupt ∧ t.digest.Corrupted))
    ∧ (s.Inside out 20 →
        (s.digest.Idle → ∃ t, exec (.shaResult out) s = .next t ∧ t.code = .ok ∧ t.digest.Finalized
            ∧ (s.digest.Holds [] → t.digest.hash.bytes = sha1 []))
        ∧ (s.digest.Accumulating → ∃ t, exec (.shaResult out) s = .next t ∧ t.code = .ok ∧ t.digest.Finalized)
        ∧ (s.digest.Finalized → ∃ t, exec (.shaResult out) s = .next t ∧ t.code = .ok ∧ t.digest = s.digest)
        ∧ (s.digest.Corrupted → ∃ t, exec (.shaResult out) s = .next t ∧ t.code = .corrupt
            ∧ t.digest = s.digest))
    ∧ ∀ (i : Instr) (t : State), exec i s = .next t → t.code = .range → t.digest = s.digest

/-- Corrupted is terminal (41_sha1.md R151): the digest commands fail, write nothing and leave the digest state;
only SHA_RESET, the verifying commands, by their internal reset, and hardware reset lead out of it. -/
def Obligations.CorruptedIsTerminal : Prop :=
  ∀ s : State, s.digest.Corrupted →
    (∀ data length : Word, s.Inside data length.toNat → Fails (.shaInput data length) s .corrupt)
    ∧ (∀ out : Word, s.Inside out 20 → Fails (.shaResult out) s .corrupt)
    ∧ (∀ (i : Instr) (t : State), exec i s = .next t → ¬t.digest.Corrupted →
        i = .shaReset ∨ (∃ m k r g, i = .dsavfy m k r g) ∨ (∃ b k, i = .ksvvfy b k) ∨ ∃ b k, i = .srmvfy b k)
    ∧ ∀ t : State, step s = .next t → ¬t.digest.Corrupted →
        ∃ rest, s.host = .hardReset :: rest
          ∨ ∃ w : Word, w ∈ [0x10, 0x40, 0x41, 0x42] ∧ s.host = .write 4 0x00 w :: rest

/-! ### Big integers -/

/-- MAC (42_bigint.md R171): the window plus `a·scalar` modulo `256^n`, the carry byte returned, where the window is
identical to or disjoint from `a`. The last clause is the model's choice for a window that partly overlaps `a`:
40_byte_array.md R128, to which R171 refers, lets a model refuse it or leave arbitrary bytes, and this one leaves free
bytes (log 5) and a free `RETVAL` (log 6), with a count of such commands that is its own (log 7). -/
def Obligations.MacAddsTheProduct : Prop :=
  ∀ (window a v n : Word) (s : State),
    Encoded (.mac window a (v.extractLsb' 0 8) n) 0x00000020 [window, a, v, n]
    ∧ (n.toNat = 0 → Fails (.mac window a (v.extractLsb' 0 8) n) s .badarg)
    ∧ (n.toNat ≠ 0 → ¬(s.Inside a n.toNat ∧ s.Inside window n.toNat) →
        Fails (.mac window a (v.extractLsb' 0 8) n) s .range)
    ∧ (n.toNat ≠ 0 → s.Inside a n.toNat → s.Inside window n.toNat →
        (CleanRanges window.toNat a.toNat n.toNat →
          ∃ t, exec (.mac window a (v.extractLsb' 0 8) n) s = .next t
            ∧ s.EndsWriting t t.retval window.toNat n.toNat
            ∧ t.retval.toNat = (intLe (s.readBytes window.toNat n.toNat)
                + intLe (s.readBytes a.toNat n.toNat) * (v.toNat % 256)) / 256 ^ n.toNat
            ∧ intLe (t.readBytes window.toNat n.toNat) = (intLe (s.readBytes window.toNat n.toNat)
                + intLe (s.readBytes a.toNat n.toNat) * (v.toNat % 256)) % 256 ^ n.toNat)
        ∧ (¬CleanRanges window.toNat a.toNat n.toNat →
          ∃ t, exec (.mac window a (v.extractLsb' 0 8) n) s = .next t
            ∧ s.EndsUnspecified t window.toNat n.toNat))

/-- MUL (42_bigint.md R172, R173): `ALIAS` for every overlap of the output with an input, else the exact
product. -/
def Obligations.MulIsExactOrAliased : Prop :=
  ∀ (out a b n : Word) (s : State),
    Encoded (.mul out a b n) 0x00000021 [out, a, b, n]
    ∧ (n.toNat = 0 → Fails (.mul out a b n) s .badarg)
    ∧ (n.toNat ≠ 0 → ¬(s.Inside a n.toNat ∧ s.Inside b n.toNat ∧ s.Inside out (2 * n.toNat)) →
        Fails (.mul out a b n) s .range)
    ∧ (n.toNat ≠ 0 → s.Inside a n.toNat → s.Inside b n.toNat → s.Inside out (2 * n.toNat) →
        (¬(Apart out.toNat (2 * n.toNat) a.toNat n.toNat ∧ Apart out.toNat (2 * n.toNat) b.toNat n.toNat) →
          Fails (.mul out a b n) s .aliased)
        ∧ (Apart out.toNat (2 * n.toNat) a.toNat n.toNat → Apart out.toNat (2 * n.toNat) b.toNat n.toNat →
          ∃ t, exec (.mul out a b n) s = .next t ∧ s.EndsWriting t 0 out.toNat (2 * n.toNat)
            ∧ intLe (t.readBytes out.toNat (2 * n.toNat))
                = intLe (s.readBytes a.toNat n.toNat) * intLe (s.readBytes b.toNat n.toNat)))

/-- DIV (42_bigint.md R174 to R176): remainder below, quotient above, from the values the inputs had. -/
def Obligations.DivGivesRemainderAndQuotient : Prop :=
  ∀ (out dividend divisor n : Word) (s : State),
    Encoded (.div out dividend divisor n) 0x00000022 [out, dividend, divisor, n]
    ∧ (n.toNat = 0 → Fails (.div out dividend divisor n) s .badarg)
    ∧ (n.toNat ≠ 0 → ¬(s.Inside dividend n.toNat ∧ s.Inside divisor n.toNat ∧ s.Inside out (2 * n.toNat)) →
        Fails (.div out dividend divisor n) s .range)
    ∧ (n.toNat ≠ 0 → s.Inside dividend n.toNat → s.Inside divisor n.toNat → s.Inside out (2 * n.toNat) →
        (intLe (s.readBytes divisor.toNat n.toNat) = 0 → Fails (.div out dividend divisor n) s .zero)
        ∧ (intLe (s.readBytes divisor.toNat n.toNat) ≠ 0 →
          ∃ t, exec (.div out dividend divisor n) s = .next t ∧ s.EndsWriting t 0 out.toNat (2 * n.toNat)
            ∧ intLe (t.readBytes out.toNat n.toNat) = intLe (s.readBytes dividend.toNat n.toNat)
                % intLe (s.readBytes divisor.toNat n.toNat)
            ∧ intLe (t.readBytes (out.toNat + n.toNat) n.toNat) = intLe (s.readBytes dividend.toNat n.toNat)
                / intLe (s.readBytes divisor.toNat n.toNat)))

/-! ### Modular arithmetic -/

/-- MODRED (43_modular.md R191). -/
def Obligations.ModredReduces : Prop :=
  ∀ (out value modulus n vlen : Word) (s : State),
    Encoded (.modred out value modulus n vlen) 0x00000030 [out, value, modulus, n, vlen]
    ∧ (¬(1 ≤ n.toNat ∧ n.toNat ≤ 128 ∧ 1 ≤ vlen.toNat ∧ vlen.toNat ≤ 256) →
        Fails (.modred out value modulus n vlen) s .badarg)
    ∧ (1 ≤ n.toNat → n.toNat ≤ 128 → 1 ≤ vlen.toNat → vlen.toNat ≤ 256 →
        (¬(s.Inside value vlen.toNat ∧ s.Inside modulus n.toNat ∧ s.Inside out n.toNat) →
          Fails (.modred out value modulus n vlen) s .range)
        ∧ (s.Inside value vlen.toNat → s.Inside modulus n.toNat → s.Inside out n.toNat →
          (intLe (s.readBytes modulus.toNat n.toNat) = 0 → Fails (.modred out value modulus n vlen) s .zero)
          ∧ (intLe (s.readBytes modulus.toNat n.toNat) ≠ 0 →
            ∃ t, exec (.modred out value modulus n vlen) s = .next t ∧ s.EndsWriting t 0 out.toNat n.toNat
              ∧ intLe (t.readBytes out.toNat n.toNat) = intLe (s.readBytes value.toNat vlen.toNat)
                  % intLe (s.readBytes modulus.toNat n.toNat))))

/-- MODMUL (43_modular.md R193). -/
def Obligations.ModmulMultiplies : Prop :=
  ∀ (out a b modulus n : Word) (s : State),
    Encoded (.modmul out a b modulus n) 0x00000031 [out, a, b, modulus, n]
    ∧ (¬(1 ≤ n.toNat ∧ n.toNat ≤ 128) → Fails (.modmul out a b modulus n) s .badarg)
    ∧ (1 ≤ n.toNat → n.toNat ≤ 128 →
        (¬(s.Inside a n.toNat ∧ s.Inside b n.toNat ∧ s.Inside modulus n.toNat ∧ s.Inside out n.toNat) →
          Fails (.modmul out a b modulus n) s .range)
        ∧ (s.Inside a n.toNat → s.Inside b n.toNat → s.Inside modulus n.toNat → s.Inside out n.toNat →
          (intLe (s.readBytes modulus.toNat n.toNat) = 0 → Fails (.modmul out a b modulus n) s .zero)
          ∧ (intLe (s.readBytes modulus.toNat n.toNat) ≠ 0 →
            ∃ t, exec (.modmul out a b modulus n) s = .next t ∧ s.EndsWriting t 0 out.toNat n.toNat
              ∧ intLe (t.readBytes out.toNat n.toNat) = intLe (s.readBytes a.toNat n.toNat)
                  * intLe (s.readBytes b.toNat n.toNat) % intLe (s.readBytes modulus.toNat n.toNat))))

/-- MODEXP (43_modular.md R194): the power, with `0^0 = 1`. -/
def Obligations.ModexpExponentiates : Prop :=
  ∀ (out base exponent modulus n k : Word) (s : State),
    Encoded (.modexp out base exponent modulus n k) 0x00000032 [out, base, exponent, modulus, n, k]
    ∧ (¬(1 ≤ n.toNat ∧ n.toNat ≤ 128 ∧ 1 ≤ k.toNat ∧ k.toNat ≤ 128) →
        Fails (.modexp out base exponent modulus n k) s .badarg)
    ∧ (1 ≤ n.toNat → n.toNat ≤ 128 → 1 ≤ k.toNat → k.toNat ≤ 128 →
        (¬(s.Inside base n.toNat ∧ s.Inside exponent k.toNat ∧ s.Inside modulus n.toNat
            ∧ s.Inside out n.toNat) → Fails (.modexp out base exponent modulus n k) s .range)
        ∧ (s.Inside base n.toNat → s.Inside exponent k.toNat → s.Inside modulus n.toNat →
          s.Inside out n.toNat →
          (intLe (s.readBytes modulus.toNat n.toNat) = 0 → Fails (.modexp out base exponent modulus n k) s .zero)
          ∧ (intLe (s.readBytes modulus.toNat n.toNat) ≠ 0 →
            ∃ t, exec (.modexp out base exponent modulus n k) s = .next t
              ∧ s.EndsWriting t 0 out.toNat n.toNat
              ∧ intLe (t.readBytes out.toNat n.toNat) = intLe (s.readBytes base.toNat n.toNat)
                  ^ intLe (s.readBytes exponent.toNat k.toNat) % intLe (s.readBytes modulus.toNat n.toNat))))

/-- MODINV (43_modular.md R196): its failures in their order, else the canonical inverse. -/
def Obligations.ModinvInverts : Prop :=
  ∀ (out value modulus n : Word) (s : State) (a m : Nat),
    a = intLe (s.readBytes value.toNat n.toNat) → m = intLe (s.readBytes modulus.toNat n.toNat) →
    Encoded (.modinv out value modulus n) 0x00000033 [out, value, modulus, n]
    ∧ (¬(1 ≤ n.toNat ∧ n.toNat ≤ 128) → Fails (.modinv out value modulus n) s .badarg)
    ∧ (1 ≤ n.toNat → n.toNat ≤ 128 →
        (¬(s.Inside value n.toNat ∧ s.Inside modulus n.toNat ∧ s.Inside out n.toNat) →
          Fails (.modinv out value modulus n) s .range)
        ∧ (s.Inside value n.toNat → s.Inside modulus n.toNat → s.Inside out n.toNat →
          (a = 0 ∨ m = 0 → Fails (.modinv out value modulus n) s .zero)
          ∧ (a ≠ 0 → m ≠ 0 → m ≤ a → Fails (.modinv out value modulus n) s .notless)
          ∧ (a ≠ 0 → a < m → Nat.gcd a m ≠ 1 → Fails (.modinv out value modulus n) s .noinv)
          ∧ (a ≠ 0 → a < m → Nat.gcd a m = 1 →
            ∃ t, exec (.modinv out value modulus n) s = .next t ∧ s.EndsWriting t 1 out.toNat n.toNat
              ∧ 0 < intLe (t.readBytes out.toNat n.toNat) ∧ intLe (t.readBytes out.toNat n.toNat) < m
              ∧ a * intLe (t.readBytes out.toNat n.toNat) % m = 1)))

/-- The law of 43_modular.md R199 across two commands: a value times its inverse is 1. -/
def Obligations.ValueTimesItsInverseIsOne : Prop :=
  ∀ (inv out value modulus n : Word) (s t : State),
    exec (.modinv inv value modulus n) s = .next t → t.code = .ok →
    Apart inv.toNat n.toNat value.toNat n.toNat → Apart inv.toNat n.toNat modulus.toNat n.toNat →
    s.Inside out n.toNat →
    ∃ u, exec (.modmul out value inv modulus n) t = .next u ∧ u.code = .ok
      ∧ intLe (u.readBytes out.toNat n.toNat) = 1

/-! ### Verifying commands -/

/-- DSAVFY (44_dsa.md R220 to R224): the seven steps, no byte of `OM` written. -/
def Obligations.DsavfyRunsTheSevenSteps : Prop :=
  ∀ (message mlen r g : Word) (s : State),
    Encoded (.dsavfy message mlen r g) 0x00000040 [message, mlen, r, g]
    ∧ (¬(s.Inside message mlen.toNat ∧ s.Inside r 20 ∧ s.Inside g 20) →
        Fails (.dsavfy message mlen r g) s .range)
    ∧ (s.Inside message mlen.toNat → s.Inside r 20 → s.Inside g 20 →
        DsaSteps (.dsavfy message mlen r g) s (s.readBytes message.toNat mlen.toNat)
          (s.readBytes r.toNat 20) (s.readBytes g.toNat 20))

/-- KSVVFY (45_validators.md R236, R240): `SHORT` below 30 bytes with the digest state untouched, else the
verdict on the trailing digest, the digest state Finalized. -/
def Obligations.KsvvfyChecksTheTrailingDigest : Prop :=
  ∀ (blob blen : Word) (s : State),
    Encoded (.ksvvfy blob blen) 0x00000041 [blob, blen]
    ∧ (¬s.Inside blob blen.toNat → Fails (.ksvvfy blob blen) s .range)
    ∧ (s.Inside blob blen.toNat → blen.toNat < 30 → Fails (.ksvvfy blob blen) s .short)
    ∧ (s.Inside blob blen.toNat → 30 ≤ blen.toNat →
        ∃ t, exec (.ksvvfy blob blen) s = .next t
          ∧ s.EndsDigesting t .ok
              (if sha1 (s.readBytes blob.toNat (blen.toNat - 20))
                = s.readBytes (blob.toNat + (blen.toNat - 20)) 20 then 1 else 0)
          ∧ t.digest.Finalized
          ∧ t.digest.hash.bytes = sha1 (s.readBytes blob.toNat (blen.toNat - 20)))

/-- SRMVFY (45_validators.md R238, R240): `SHORT` below `SRM_MIN_HEADER + 40` bytes, else the seven steps on the
message, `r` and `s` of the blob. -/
def Obligations.SrmvfyChecksTheSignature : Prop :=
  ∀ (blob blen : Word) (s : State),
    Encoded (.srmvfy blob blen) 0x00000042 [blob, blen]
    ∧ (¬s.Inside blob blen.toNat → Fails (.srmvfy blob blen) s .range)
    ∧ (s.Inside blob blen.toNat → blen.toNat < s.params.srmMinHeader + 40 → Fails (.srmvfy blob blen) s .short)
    ∧ (s.Inside blob blen.toNat → s.params.srmMinHeader + 40 ≤ blen.toNat →
        DsaSteps (.srmvfy blob blen) s (s.readBytes blob.toNat (blen.toNat - 40))
          (s.readBytes (blob.toNat + (blen.toNat - 40)) 20) (s.readBytes (blob.toNat + (blen.toNat - 20)) 20))

/-- What an accepted signature satisfies (44_dsa.md R221, R225): `s` and `r` below `Q`, `s` not zero, a message.
The source checks no range of `r`; that it is below `Q` follows from the comparison. -/
def Obligations.AcceptedSignatureIsInRange : Prop :=
  ∀ (message mlen r g : Word) (s t : State), exec (.dsavfy message mlen r g) s = .next t → t.retval ≠ 0 →
    t.retval = 1 ∧ t.code = .ok ∧ mlen.toNat ≠ 0
      ∧ 0 < intBe (s.readBytes g.toNat 20) ∧ intBe (s.readBytes g.toNat 20) < s.params.q.toNat
      ∧ intBe (s.readBytes r.toNat 20) < s.params.q.toNat ∧ s.params.p.toNat ≠ 0

/-- The verdict and the code of a verifying command are a function of the bytes it reads and of the parameters,
whatever the digest state, the registers and the rest of `OM` hold (44_dsa.md R226, 45_validators.md R240). -/
def Obligations.VerdictDependsOnlyOnTheBytes : Prop :=
  ∀ (i : Instr) (s s' t t' : State),
    (∃ m k r g, i = .dsavfy m k r g) ∨ (∃ b k, i = .ksvvfy b k) ∨ (∃ b k, i = .srmvfy b k) →
    s'.params = s.params →
    (∀ x ∈ readRanges i, s'.readBytes x.start x.length = s.readBytes x.start x.length) →
    exec i s = .next t → exec i s' = .next t' → t'.code = t.code ∧ t'.retval = t.retval

/-! ### Rules of the whole machine -/

/-- The generic checks (30_encoding.md R92, R96, R97; 60_exceptions.md R254): `BADARG` exactly for an illegal
length, before any range; `RANGE` exactly for a range outside `OM` after that; each changes only the result
registers. -/
def Obligations.GenericChecksComeFirst : Prop :=
  ∀ (i : Instr) (s t : State), exec i s = .next t →
    (t.code = .badarg ↔ i.wellFormed = false) ∧ (t.code = .range ↔ i.wellFormed = true ∧ ¬s.Reaches i)
    ∧ (t.code = .badarg ∨ t.code = .range → t = { s with code := t.code, retval := 0 })

/-- A command changes no byte of `OM` outside its written ranges, no argument register, no `CMD`, no `OM_ADDR`
and no parameter (20_memory.md R79, 10_state.md R21, R25), and no digest state unless it is a digest or a
verifying command (40_byte_array.md R120, 42_bigint.md R170, 43_modular.md R190). -/
def Obligations.CommandsKeepTheirFrame : Prop :=
  ∀ (i : Instr) (s t : State), exec i s = .next t →
    t.cmd = s.cmd ∧ t.arg = s.arg ∧ t.omAddr = s.omAddr ∧ t.params = s.params
    ∧ t.host = s.host ∧ t.readData = s.readData ∧ t.resets = s.resets
    ∧ (∀ a, (∀ r ∈ writtenRanges i, ¬(r.start ≤ a ∧ a < r.start + r.length)) → t.omByte a = s.omByte a)
    ∧ (t.digest ≠ s.digest →
        i = .shaReset ∨ (∃ d n, i = .shaInput d n) ∨ (∃ o, i = .shaResult o)
          ∨ (∃ m k r g, i = .dsavfy m k r g) ∨ (∃ b k, i = .ksvvfy b k) ∨ ∃ b k, i = .srmvfy b k)

/-- A failing command writes no byte of `OM`, returns 0, and changes the digest state only in the cases R255
lists (60_exceptions.md R251, R255). -/
def Obligations.FailingCommandWritesNothing : Prop :=
  ∀ (i : Instr) (s t : State), exec i s = .next t → t.code ≠ .ok →
    t = { s with code := t.code, retval := 0, digest := t.digest }
    ∧ (t.digest = s.digest
      ∨ ((∃ d n, i = .shaInput d n) ∧ t.digest.Corrupted)
      ∨ (((∃ m k r g, i = .dsavfy m k r g) ∨ ∃ b k, i = .srmvfy b k)
          ∧ (t.code = .corrupt ∧ t.digest.Corrupted ∨ t.code = .zero ∧ t.digest.Finalized)))

/-- No command ends with a code outside its row of 60_exceptions.md R253. -/
def Obligations.CommandsEndOnlyWithTheirCodes : Prop :=
  ∀ (i : Instr) (s t : State), exec i s = .next t →
    t.code ∈ (match i with
      | .copy .. | .fill .. | .rev .. | .cmp .. | .alleq .. | .addc .. | .subb .. | .mac .. =>
        [ResultCode.ok, .badarg, .range]
      | .shaReset => [.ok]
      | .shaInput .. | .shaResult .. => [.ok, .corrupt, .range]
      | .mul .. => [.ok, .aliased, .badarg, .range]
      | .div .. | .modred .. | .modmul .. | .modexp .. => [.ok, .zero, .badarg, .range]
      | .modinv .. => [.ok, .zero, .notless, .noinv, .badarg, .range]
      | .dsavfy .. => [.ok, .zero, .notless, .noinv, .corrupt, .range]
      | .ksvvfy .. => [.ok, .short, .range]
      | .srmvfy .. => [.ok, .short, .zero, .notless, .noinv, .corrupt, .range])

/-- `RETVAL ≠ 0` implies `STATUS.CODE = OK`, after every word written to `CMD` (60_exceptions.md R251). -/
def Obligations.NonzeroRetvalMeansOk : Prop :=
  ∀ (s t : State) (w : Word) (rest : List HostAccess), s.host = .write 4 0x00 w :: rest →
    step s = .next t → t.retval ≠ 0 → t.code = .ok

/-- No command reads the result registers of an earlier one (10_state.md R28), nor `CMD` or `OM_ADDR`. -/
def Obligations.EarlierResultsAreNotRead : Prop :=
  ∀ (i : Instr) (s t : State) (c : ResultCode) (r w a : Word), exec i s = .next t →
    exec i { s with code := c, retval := r, cmd := w, omAddr := a } = .next { t with cmd := w, omAddr := a }

/-- Only DSAVFY and SRMVFY read the key (10_state.md R38): another command does the same for every key. -/
def Obligations.OnlySignatureCommandsReadTheKey : Prop :=
  ∀ (i : Instr) (s t : State) (k : Config.Params), k.omSize = s.params.omSize →
    (∀ m l r g, i ≠ .dsavfy m l r g) → (∀ b l, i ≠ .srmvfy b l) → exec i s = .next t →
    exec i { s with params := k } = .next { t with params := k }

/-- A command reads no byte of `OM` outside its read ranges (30_encoding.md R97, 20_memory.md R79): two states
that agree on those bytes end alike, and agree on every byte on which they agreed before or which the command
wrote. -/
def Obligations.CommandsReadOnlyTheirRanges : Prop :=
  ∀ (i : Instr) (s t : State) (m : Memory), exec i s = .next t →
    (∀ x ∈ readRanges i, ∀ a, x.start ≤ a → a < x.start + x.length →
      { s with om := m }.omByte a = s.omByte a) →
    ∃ t', exec i { s with om := m } = .next t' ∧ t' = { t with om := t'.om }
      ∧ ∀ a, { s with om := m }.omByte a = s.omByte a
            ∨ (t.code = .ok ∧ ∃ x ∈ writtenRanges i, x.start ≤ a ∧ a < x.start + x.length) →
          t'.omByte a = t.omByte a

/-- Every step keeps a sound state sound: the memory stays canonical and inside `OM` (20_memory.md R62), the
parameters legal (00_scope.md R11), the digest counters in agreement (10_state.md R37), a nonzero `RETVAL` with
`OK` (60_exceptions.md R251). -/
def Obligations.EveryStepKeepsSoundness : Prop :=
  ∀ s t : State, s.Sound → step s = .next t → t.Sound

/-- The reset state is sound; its parameters are the model's choice (log 2), its empty memory is too (log 3). -/
def Obligations.ResetIsSound : Prop := State.reset.Sound

/-- Every step keeps the digest state meaningful (10_state.md R37): Corrupted, or final with the hash of a whole
message, or holding exactly some message; and the reset state is so. -/
def Obligations.EveryStepKeepsTheDigestMeaningful : Prop :=
  State.reset.digest.Meaningful
  ∧ ∀ s t : State, s.digest.Meaningful → step s = .next t → t.digest.Meaningful

/-- No step changes a parameter of the instance (00_scope.md R11, 10_state.md R38, R42). That the state carries
them is the model's choice (log 2). -/
def Obligations.NoStepChangesTheParameters : Prop :=
  ∀ s t : State, step s = .next t → t.params = s.params

end
end

