-- ==== Sys2Proof/Laws/Bytes.lean ====
section
/-! SUPPORT. Byte sequences as numbers, and the one law of the carry chain that gives ADDC, SUBB, MAC
and MUL their values. -/
namespace Sys2Proof.Machine

@[simp] theorem intLe_nil : intLe [] = 0 := rfl

@[simp] theorem intLe_cons (b : Byte) (bs : List Byte) : intLe (b :: bs) = b.toNat + 256 * intLe bs := rfl

theorem toNat_byte (v : Nat) : (BitVec.ofNat 8 v).toNat = v % 256 := by simp

@[simp] theorem leBytes_length (n v : Nat) : (leBytes n v).length = n := by
  induction n generalizing v with
  | zero => rfl
  | succ n ih => simp [leBytes, ih]

theorem intLe_lt (bs : List Byte) : intLe bs < 256 ^ bs.length := by
  induction bs with
  | nil => simp
  | cons b bs ih =>
    have hb : b.toNat < 256 := b.isLt
    simp only [intLe_cons, List.length_cons, pow_succ]
    omega

theorem intLe_leBytes (n v : Nat) : intLe (leBytes n v) = v % 256 ^ n := by
  induction n generalizing v with
  | zero => simp [leBytes, Nat.mod_one]
  | succ n ih =>
    rw [leBytes, intLe_cons, ih, toNat_byte, pow_succ', Nat.mod_mul]

theorem intLe_leBytes_of_lt {n v : Nat} (h : v < 256 ^ n) : intLe (leBytes n v) = v := by
  rw [intLe_leBytes, Nat.mod_eq_of_lt h]

theorem intLe_append (as bs : List Byte) :
    intLe (as ++ bs) = intLe as + 256 ^ as.length * intLe bs := by
  induction as with
  | nil => simp
  | cons a as ih => simp only [List.cons_append, intLe_cons, ih, List.length_cons, pow_succ]; ring

theorem intLe_injective {as bs : List Byte} (hl : as.length = bs.length) (h : intLe as = intLe bs) :
    as = bs := by
  induction as generalizing bs with
  | nil => cases bs with
    | nil => rfl
    | cons b bs => simp at hl
  | cons a as ih =>
    cases bs with
    | nil => simp at hl
    | cons b bs =>
      simp only [intLe_cons] at h
      have ha : a.toNat < 256 := a.isLt
      have hb : b.toNat < 256 := b.isLt
      have hab : a = b := BitVec.eq_of_toNat_eq (by omega)
      have hr : intLe as = intLe bs := by subst hab; omega
      rw [hab, ih (by simpa using hl) hr]

@[simp] theorem intLe_replicate_zero (n : Nat) : intLe (List.replicate n 0#8) = 0 := by
  induction n with
  | zero => rfl
  | succ n ih => simp [List.replicate_succ, ih]

theorem intLe_eq_zero_iff (bs : List Byte) : intLe bs = 0 ↔ ∀ b ∈ bs, b = 0 := by
  induction bs with
  | nil => simp
  | cons b bs ih =>
    have : b.toNat = 0 ↔ b = 0 := ⟨fun h => BitVec.eq_of_toNat_eq (by simpa using h), fun h => by simp [h]⟩
    simp only [intLe_cons, List.mem_cons, forall_eq_or_imp, ← ih, ← this]
    omega

/-- The number a list of intermediates denotes: `Σ t_i · 256^i`. -/
def sumLe : List Nat → Nat
  | [] => 0
  | t :: ts => t + 256 * sumLe ts

@[simp] theorem ripple_length (ts : List Nat) (c : Nat) : (ripple ts c).1.length = ts.length := by
  induction ts generalizing c with
  | nil => rfl
  | cons t ts ih => simp [ripple, ih]

/-- The law of the carry chain: stored bytes and final carry together are the exact sum. -/
theorem ripple_exact (ts : List Nat) (c : Nat) :
    intLe (ripple ts c).1 + 256 ^ ts.length * (ripple ts c).2 = sumLe ts + c := by
  induction ts generalizing c with
  | nil => simp [ripple, sumLe]
  | cons t ts ih =>
    have h := ih ((t + c) / 256)
    simp only [ripple, intLe_cons, toNat_byte, List.length_cons, pow_succ', sumLe]
    rw [mul_assoc]
    have hm := Nat.mod_add_div (t + c) 256
    generalize intLe (ripple ts ((t + c) / 256)).1 = x at *
    generalize 256 ^ ts.length * (ripple ts ((t + c) / 256)).2 = y at *
    omega

theorem ripple_value (ts : List Nat) (c : Nat) :
    intLe (ripple ts c).1 = (sumLe ts + c) % 256 ^ ts.length
      ∧ (ripple ts c).2 = (sumLe ts + c) / 256 ^ ts.length := by
  have h := ripple_exact ts c
  have hl := intLe_lt (ripple ts c).1
  rw [ripple_length] at hl
  rw [← h]
  refine ⟨?_, ?_⟩
  · rw [Nat.add_mul_mod_self_left, Nat.mod_eq_of_lt hl]
  · rw [Nat.add_mul_div_left _ _ (by positivity), Nat.div_eq_of_lt hl, Nat.zero_add]

theorem sumLe_addTerms {as bs : List Byte} (h : as.length = bs.length) :
    sumLe (addTerms as bs) = intLe as + intLe bs := by
  induction as generalizing bs with
  | nil => cases bs <;> simp_all [addTerms, sumLe]
  | cons a as ih =>
    cases bs with
    | nil => simp at h
    | cons b bs =>
      have := ih (bs := bs) (by simpa using h)
      simp only [addTerms, List.zipWith_cons_cons, sumLe, intLe_cons] at this ⊢
      omega

theorem sumLe_subTerms {as bs : List Byte} (h : as.length = bs.length) :
    sumLe (subTerms as bs) + intLe bs + 1 = intLe as + 256 ^ as.length := by
  induction as generalizing bs with
  | nil => cases bs <;> simp_all [subTerms, sumLe]
  | cons a as ih =>
    cases bs with
    | nil => simp at h
    | cons b bs =>
      have := ih (bs := bs) (by simpa using h)
      have hb : b.toNat < 256 := b.isLt
      simp only [subTerms, List.zipWith_cons_cons, sumLe, intLe_cons, List.length_cons, pow_succ] at this ⊢
      omega

theorem sumLe_macTerms {ws as : List Byte} (scalar : Byte) (h : ws.length = as.length) :
    sumLe (macTerms ws as scalar) = intLe ws + intLe as * scalar.toNat := by
  induction ws generalizing as with
  | nil => cases as <;> simp_all [macTerms, sumLe]
  | cons w ws ih =>
    cases as with
    | nil => simp at h
    | cons a as =>
      have := ih (as := as) (by simpa using h)
      simp only [macTerms, List.zipWith_cons_cons, sumLe, intLe_cons] at this ⊢
      rw [this]; ring

@[simp] theorem addTerms_length (as bs : List Byte) :
    (addTerms as bs).length = min as.length bs.length := by simp [addTerms]

@[simp] theorem subTerms_length (as bs : List Byte) :
    (subTerms as bs).length = min as.length bs.length := by simp [subTerms]

@[simp] theorem macTerms_length (ws as : List Byte) (scalar : Byte) :
    (macTerms ws as scalar).length = min ws.length as.length := by simp [macTerms]

/-- The carry of one multiply-accumulate pass is a byte (R171). -/
theorem macPass_spec {ws as : List Byte} (scalar : Byte) (h : ws.length = as.length) :
    (macPass ws as scalar).1.length = as.length
      ∧ intLe (macPass ws as scalar).1 + 256 ^ as.length * (macPass ws as scalar).2
          = intLe ws + intLe as * scalar.toNat
      ∧ (macPass ws as scalar).2 < 256 := by
  have hx := ripple_exact (macTerms ws as scalar) 0
  rw [sumLe_macTerms scalar h, macTerms_length, h, min_self, Nat.add_zero] at hx
  refine ⟨by simp [macPass, h], hx, ?_⟩
  have hw := intLe_lt ws
  have ha := intLe_lt as
  rw [h] at hw
  have hs : scalar.toNat ≤ 255 := by have := scalar.isLt; omega
  have hle : intLe as * scalar.toNat ≤ intLe as * 255 := Nat.mul_le_mul_left _ hs
  have : 256 ^ as.length * (macPass ws as scalar).2 < 256 ^ as.length * 256 := by
    simp only [macPass] at hx ⊢
    omega
  exact lt_of_mul_lt_mul_left this (Nat.zero_le _)

theorem mulPasses_spec (as bs ws : List Byte) (h : ws.length = as.length) :
    intLe (mulPasses as bs ws) = intLe ws + intLe as * intLe bs
      ∧ (mulPasses as bs ws).length = as.length + bs.length := by
  induction bs generalizing ws with
  | nil => simp [mulPasses, h]
  | cons b bs ih =>
    obtain ⟨hl, hx, hc⟩ := macPass_spec b h
    have hcat : intLe ((macPass ws as b).1 ++ [BitVec.ofNat 8 (macPass ws as b).2])
        = intLe ws + intLe as * b.toNat := by
      rw [intLe_append, hl, intLe_cons, intLe_nil, toNat_byte, Nat.mod_eq_of_lt hc]
      simpa using hx
    have hlen : ((macPass ws as b).1 ++ [BitVec.ofNat 8 (macPass ws as b).2]).length
        = as.length + 1 := by simp [hl]
    simp only [mulPasses]
    split
    · rename_i e; rw [e] at hlen; simp at hlen
    · rename_i low rest e
      rw [e] at hcat hlen
      have hr : rest.length = as.length := by simpa using hlen
      obtain ⟨i1, i2⟩ := ih rest hr
      refine ⟨?_, by simp [i2]; omega⟩
      rw [intLe_cons, i1, intLe_cons]
      rw [intLe_cons] at hcat
      rw [Nat.mul_add, Nat.mul_add, Nat.mul_left_comm (intLe as) 256]
      omega

/-- Schoolbook multiplication is exact (R177). -/
theorem mulBytes_spec (as bs : List Byte) :
    intLe (mulBytes as bs) = intLe as * intLe bs
      ∧ (mulBytes as bs).length = as.length + bs.length := by
  have := mulPasses_spec as bs (List.replicate as.length 0) (by simp)
  simpa [mulBytes] using this

theorem compareBytes_append (as bs : List Byte) (a b : Byte) (h : as.length = bs.length) :
    compareBytes (as ++ [a]) (bs ++ [b])
      = (compareBytes as bs).then (compareBytes [a] [b]) := by
  induction as generalizing bs with
  | nil => cases bs with
    | nil => simp [compareBytes]
    | cons b bs => simp at h
  | cons x xs ih =>
    cases bs with
    | nil => simp at h
    | cons y ys =>
      simp only [List.cons_append, compareBytes]
      rw [ih ys (by simpa using h)]
      split
      · rfl
      · split <;> rfl

/-- The scan of CMP is the comparison of the numbers (R124, R129). -/
theorem compareBytes_reverse {as bs : List Byte} (h : as.length = bs.length) :
    compareBytes as.reverse bs.reverse = compare (intLe as) (intLe bs) := by
  induction as generalizing bs with
  | nil => cases bs <;> simp_all [compareBytes]
  | cons a as ih =>
    cases bs with
    | nil => simp at h
    | cons b bs =>
      have hl : as.length = bs.length := by simpa using h
      rw [List.reverse_cons, List.reverse_cons, compareBytes_append _ _ _ _ (by simp [hl]), ih hl]
      have ha : a.toNat < 256 := a.isLt
      have hb : b.toNat < 256 := b.isLt
      simp only [intLe_cons, compareBytes, BitVec.lt_def]
      rcases lt_trichotomy (intLe as) (intLe bs) with hlt | heq | hgt
      · rw [compare_lt_iff_lt.mpr hlt, compare_lt_iff_lt.mpr (by omega)]; rfl
      · rw [heq, compare_eq_iff_eq.mpr rfl]
        rcases lt_trichotomy a.toNat b.toNat with h1 | h1 | h1
        · rw [compare_lt_iff_lt.mpr (by omega), if_neg (by omega), if_pos h1]; rfl
        · rw [compare_eq_iff_eq.mpr (by omega), if_neg (by omega), if_neg (by omega)]; rfl
        · rw [compare_gt_iff_gt.mpr (by omega), if_pos h1]; rfl
      · rw [compare_gt_iff_gt.mpr hgt, compare_gt_iff_gt.mpr (by omega)]; rfl

end Sys2Proof.Machine
end

