-- ==== Sys2Proof/Laws/State.lean ====
section
/-! SUPPORT. What each named update of the state does to each field: true by definition, so that no
later proof unfolds an update. -/
namespace Sys2Proof.Machine

variable (s : State)

/-! ### withOm -/

@[simp] theorem State.withOm_cmd (m : Memory) : (s.withOm m).cmd = s.cmd := rfl
@[simp] theorem State.withOm_code (m : Memory) : (s.withOm m).code = s.code := rfl
@[simp] theorem State.withOm_retval (m : Memory) : (s.withOm m).retval = s.retval := rfl
@[simp] theorem State.withOm_omAddr (m : Memory) : (s.withOm m).omAddr = s.omAddr := rfl
@[simp] theorem State.withOm_arg (m : Memory) : (s.withOm m).arg = s.arg := rfl
@[simp] theorem State.withOm_digest (m : Memory) : (s.withOm m).digest = s.digest := rfl
@[simp] theorem State.withOm_om (m : Memory) : (s.withOm m).om = m := rfl
@[simp] theorem State.withOm_params (m : Memory) : (s.withOm m).params = s.params := rfl
@[simp] theorem State.withOm_host (m : Memory) : (s.withOm m).host = s.host := rfl
@[simp] theorem State.withOm_readData (m : Memory) : (s.withOm m).readData = s.readData := rfl
@[simp] theorem State.withOm_resets (m : Memory) : (s.withOm m).resets = s.resets := rfl
@[simp] theorem State.withOm_overlaps (m : Memory) : (s.withOm m).overlaps = s.overlaps := rfl

/-! ### withCmd -/

@[simp] theorem State.withCmd_cmd (w : Word) : (s.withCmd w).cmd = w := rfl
@[simp] theorem State.withCmd_code (w : Word) : (s.withCmd w).code = s.code := rfl
@[simp] theorem State.withCmd_retval (w : Word) : (s.withCmd w).retval = s.retval := rfl
@[simp] theorem State.withCmd_omAddr (w : Word) : (s.withCmd w).omAddr = s.omAddr := rfl
@[simp] theorem State.withCmd_arg (w : Word) : (s.withCmd w).arg = s.arg := rfl
@[simp] theorem State.withCmd_digest (w : Word) : (s.withCmd w).digest = s.digest := rfl
@[simp] theorem State.withCmd_om (w : Word) : (s.withCmd w).om = s.om := rfl
@[simp] theorem State.withCmd_params (w : Word) : (s.withCmd w).params = s.params := rfl
@[simp] theorem State.withCmd_host (w : Word) : (s.withCmd w).host = s.host := rfl
@[simp] theorem State.withCmd_readData (w : Word) : (s.withCmd w).readData = s.readData := rfl
@[simp] theorem State.withCmd_resets (w : Word) : (s.withCmd w).resets = s.resets := rfl
@[simp] theorem State.withCmd_overlaps (w : Word) : (s.withCmd w).overlaps = s.overlaps := rfl

/-! ### withOmAddr -/

@[simp] theorem State.withOmAddr_cmd (a : Word) : (s.withOmAddr a).cmd = s.cmd := rfl
@[simp] theorem State.withOmAddr_code (a : Word) : (s.withOmAddr a).code = s.code := rfl
@[simp] theorem State.withOmAddr_retval (a : Word) : (s.withOmAddr a).retval = s.retval := rfl
@[simp] theorem State.withOmAddr_omAddr (a : Word) : (s.withOmAddr a).omAddr = a := rfl
@[simp] theorem State.withOmAddr_arg (a : Word) : (s.withOmAddr a).arg = s.arg := rfl
@[simp] theorem State.withOmAddr_digest (a : Word) : (s.withOmAddr a).digest = s.digest := rfl
@[simp] theorem State.withOmAddr_om (a : Word) : (s.withOmAddr a).om = s.om := rfl
@[simp] theorem State.withOmAddr_params (a : Word) : (s.withOmAddr a).params = s.params := rfl
@[simp] theorem State.withOmAddr_host (a : Word) : (s.withOmAddr a).host = s.host := rfl
@[simp] theorem State.withOmAddr_readData (a : Word) : (s.withOmAddr a).readData = s.readData := rfl
@[simp] theorem State.withOmAddr_resets (a : Word) : (s.withOmAddr a).resets = s.resets := rfl
@[simp] theorem State.withOmAddr_overlaps (a : Word) : (s.withOmAddr a).overlaps = s.overlaps := rfl

/-! ### withArgs -/

@[simp] theorem State.withArgs_cmd (g : Vector Word 6) : (s.withArgs g).cmd = s.cmd := rfl
@[simp] theorem State.withArgs_code (g : Vector Word 6) : (s.withArgs g).code = s.code := rfl
@[simp] theorem State.withArgs_retval (g : Vector Word 6) : (s.withArgs g).retval = s.retval := rfl
@[simp] theorem State.withArgs_omAddr (g : Vector Word 6) : (s.withArgs g).omAddr = s.omAddr := rfl
@[simp] theorem State.withArgs_arg (g : Vector Word 6) : (s.withArgs g).arg = g := rfl
@[simp] theorem State.withArgs_digest (g : Vector Word 6) : (s.withArgs g).digest = s.digest := rfl
@[simp] theorem State.withArgs_om (g : Vector Word 6) : (s.withArgs g).om = s.om := rfl
@[simp] theorem State.withArgs_params (g : Vector Word 6) : (s.withArgs g).params = s.params := rfl
@[simp] theorem State.withArgs_host (g : Vector Word 6) : (s.withArgs g).host = s.host := rfl
@[simp] theorem State.withArgs_readData (g : Vector Word 6) : (s.withArgs g).readData = s.readData := rfl
@[simp] theorem State.withArgs_resets (g : Vector Word 6) : (s.withArgs g).resets = s.resets := rfl
@[simp] theorem State.withArgs_overlaps (g : Vector Word 6) : (s.withArgs g).overlaps = s.overlaps := rfl

/-! ### withDigest -/

@[simp] theorem State.withDigest_cmd (d : Digest) : (s.withDigest d).cmd = s.cmd := rfl
@[simp] theorem State.withDigest_code (d : Digest) : (s.withDigest d).code = s.code := rfl
@[simp] theorem State.withDigest_retval (d : Digest) : (s.withDigest d).retval = s.retval := rfl
@[simp] theorem State.withDigest_omAddr (d : Digest) : (s.withDigest d).omAddr = s.omAddr := rfl
@[simp] theorem State.withDigest_arg (d : Digest) : (s.withDigest d).arg = s.arg := rfl
@[simp] theorem State.withDigest_digest (d : Digest) : (s.withDigest d).digest = d := rfl
@[simp] theorem State.withDigest_om (d : Digest) : (s.withDigest d).om = s.om := rfl
@[simp] theorem State.withDigest_params (d : Digest) : (s.withDigest d).params = s.params := rfl
@[simp] theorem State.withDigest_host (d : Digest) : (s.withDigest d).host = s.host := rfl
@[simp] theorem State.withDigest_readData (d : Digest) : (s.withDigest d).readData = s.readData := rfl
@[simp] theorem State.withDigest_resets (d : Digest) : (s.withDigest d).resets = s.resets := rfl
@[simp] theorem State.withDigest_overlaps (d : Digest) : (s.withDigest d).overlaps = s.overlaps := rfl

/-! ### withHost -/

@[simp] theorem State.withHost_cmd (xs : List HostAccess) : (s.withHost xs).cmd = s.cmd := rfl
@[simp] theorem State.withHost_code (xs : List HostAccess) : (s.withHost xs).code = s.code := rfl
@[simp] theorem State.withHost_retval (xs : List HostAccess) : (s.withHost xs).retval = s.retval := rfl
@[simp] theorem State.withHost_omAddr (xs : List HostAccess) : (s.withHost xs).omAddr = s.omAddr := rfl
@[simp] theorem State.withHost_arg (xs : List HostAccess) : (s.withHost xs).arg = s.arg := rfl
@[simp] theorem State.withHost_digest (xs : List HostAccess) : (s.withHost xs).digest = s.digest := rfl
@[simp] theorem State.withHost_om (xs : List HostAccess) : (s.withHost xs).om = s.om := rfl
@[simp] theorem State.withHost_params (xs : List HostAccess) : (s.withHost xs).params = s.params := rfl
@[simp] theorem State.withHost_host (xs : List HostAccess) : (s.withHost xs).host = xs := rfl
@[simp] theorem State.withHost_readData (xs : List HostAccess) : (s.withHost xs).readData = s.readData := rfl
@[simp] theorem State.withHost_resets (xs : List HostAccess) : (s.withHost xs).resets = s.resets := rfl
@[simp] theorem State.withHost_overlaps (xs : List HostAccess) : (s.withHost xs).overlaps = s.overlaps := rfl

/-! ### withReadData -/

@[simp] theorem State.withReadData_cmd (v : Word) : (s.withReadData v).cmd = s.cmd := rfl
@[simp] theorem State.withReadData_code (v : Word) : (s.withReadData v).code = s.code := rfl
@[simp] theorem State.withReadData_retval (v : Word) : (s.withReadData v).retval = s.retval := rfl
@[simp] theorem State.withReadData_omAddr (v : Word) : (s.withReadData v).omAddr = s.omAddr := rfl
@[simp] theorem State.withReadData_arg (v : Word) : (s.withReadData v).arg = s.arg := rfl
@[simp] theorem State.withReadData_digest (v : Word) : (s.withReadData v).digest = s.digest := rfl
@[simp] theorem State.withReadData_om (v : Word) : (s.withReadData v).om = s.om := rfl
@[simp] theorem State.withReadData_params (v : Word) : (s.withReadData v).params = s.params := rfl
@[simp] theorem State.withReadData_host (v : Word) : (s.withReadData v).host = s.host := rfl
@[simp] theorem State.withReadData_readData (v : Word) : (s.withReadData v).readData = v := rfl
@[simp] theorem State.withReadData_resets (v : Word) : (s.withReadData v).resets = s.resets := rfl
@[simp] theorem State.withReadData_overlaps (v : Word) : (s.withReadData v).overlaps = s.overlaps := rfl

/-! ### done -/

@[simp] theorem State.done_cmd (c : ResultCode) (r : Word) : (s.done c r).cmd = s.cmd := rfl
@[simp] theorem State.done_code (c : ResultCode) (r : Word) : (s.done c r).code = c := rfl
@[simp] theorem State.done_retval (c : ResultCode) (r : Word) : (s.done c r).retval = r := rfl
@[simp] theorem State.done_omAddr (c : ResultCode) (r : Word) : (s.done c r).omAddr = s.omAddr := rfl
@[simp] theorem State.done_arg (c : ResultCode) (r : Word) : (s.done c r).arg = s.arg := rfl
@[simp] theorem State.done_digest (c : ResultCode) (r : Word) : (s.done c r).digest = s.digest := rfl
@[simp] theorem State.done_om (c : ResultCode) (r : Word) : (s.done c r).om = s.om := rfl
@[simp] theorem State.done_params (c : ResultCode) (r : Word) : (s.done c r).params = s.params := rfl
@[simp] theorem State.done_host (c : ResultCode) (r : Word) : (s.done c r).host = s.host := rfl
@[simp] theorem State.done_readData (c : ResultCode) (r : Word) : (s.done c r).readData = s.readData := rfl
@[simp] theorem State.done_resets (c : ResultCode) (r : Word) : (s.done c r).resets = s.resets := rfl
@[simp] theorem State.done_overlaps (c : ResultCode) (r : Word) : (s.done c r).overlaps = s.overlaps := rfl

/-! ### fail -/

@[simp] theorem State.fail_cmd (c : ResultCode) : (s.fail c).cmd = s.cmd := rfl
@[simp] theorem State.fail_code (c : ResultCode) : (s.fail c).code = c := rfl
@[simp] theorem State.fail_retval (c : ResultCode) : (s.fail c).retval = 0 := rfl
@[simp] theorem State.fail_omAddr (c : ResultCode) : (s.fail c).omAddr = s.omAddr := rfl
@[simp] theorem State.fail_arg (c : ResultCode) : (s.fail c).arg = s.arg := rfl
@[simp] theorem State.fail_digest (c : ResultCode) : (s.fail c).digest = s.digest := rfl
@[simp] theorem State.fail_om (c : ResultCode) : (s.fail c).om = s.om := rfl
@[simp] theorem State.fail_params (c : ResultCode) : (s.fail c).params = s.params := rfl
@[simp] theorem State.fail_host (c : ResultCode) : (s.fail c).host = s.host := rfl
@[simp] theorem State.fail_readData (c : ResultCode) : (s.fail c).readData = s.readData := rfl
@[simp] theorem State.fail_resets (c : ResultCode) : (s.fail c).resets = s.resets := rfl
@[simp] theorem State.fail_overlaps (c : ResultCode) : (s.fail c).overlaps = s.overlaps := rfl

/-! ### writeBytes -/

@[simp] theorem State.writeBytes_cmd (a : Nat) (bs : List Byte) : (s.writeBytes a bs).cmd = s.cmd := rfl
@[simp] theorem State.writeBytes_code (a : Nat) (bs : List Byte) : (s.writeBytes a bs).code = s.code := rfl
@[simp] theorem State.writeBytes_retval (a : Nat) (bs : List Byte) : (s.writeBytes a bs).retval = s.retval := rfl
@[simp] theorem State.writeBytes_omAddr (a : Nat) (bs : List Byte) : (s.writeBytes a bs).omAddr = s.omAddr := rfl
@[simp] theorem State.writeBytes_arg (a : Nat) (bs : List Byte) : (s.writeBytes a bs).arg = s.arg := rfl
@[simp] theorem State.writeBytes_digest (a : Nat) (bs : List Byte) : (s.writeBytes a bs).digest = s.digest := rfl
@[simp] theorem State.writeBytes_om (a : Nat) (bs : List Byte) : (s.writeBytes a bs).om = s.om.putBytes a bs := rfl
@[simp] theorem State.writeBytes_params (a : Nat) (bs : List Byte) : (s.writeBytes a bs).params = s.params := rfl
@[simp] theorem State.writeBytes_host (a : Nat) (bs : List Byte) : (s.writeBytes a bs).host = s.host := rfl
@[simp] theorem State.writeBytes_readData (a : Nat) (bs : List Byte) : (s.writeBytes a bs).readData = s.readData := rfl
@[simp] theorem State.writeBytes_resets (a : Nat) (bs : List Byte) : (s.writeBytes a bs).resets = s.resets := rfl
@[simp] theorem State.writeBytes_overlaps (a : Nat) (bs : List Byte) : (s.writeBytes a bs).overlaps = s.overlaps := rfl

/-! ### doneUnspecified -/

@[simp] theorem State.doneUnspecified_cmd (w n : Nat) (r : Word) : (s.doneUnspecified w n r).cmd = s.cmd := rfl
@[simp] theorem State.doneUnspecified_code (w n : Nat) (r : Word) : (s.doneUnspecified w n r).code = .ok := rfl
@[simp] theorem State.doneUnspecified_retval (w n : Nat) (r : Word) : (s.doneUnspecified w n r).retval = r := rfl
@[simp] theorem State.doneUnspecified_omAddr (w n : Nat) (r : Word) : (s.doneUnspecified w n r).omAddr = s.omAddr := rfl
@[simp] theorem State.doneUnspecified_arg (w n : Nat) (r : Word) : (s.doneUnspecified w n r).arg = s.arg := rfl
@[simp] theorem State.doneUnspecified_digest (w n : Nat) (r : Word) : (s.doneUnspecified w n r).digest = s.digest := rfl
@[simp] theorem State.doneUnspecified_om (w n : Nat) (r : Word) : (s.doneUnspecified w n r).om = s.om.putBytes w ((List.range n).map fun i => Config.overlapByte s.overlaps (w + i)) := rfl
@[simp] theorem State.doneUnspecified_params (w n : Nat) (r : Word) : (s.doneUnspecified w n r).params = s.params := rfl
@[simp] theorem State.doneUnspecified_host (w n : Nat) (r : Word) : (s.doneUnspecified w n r).host = s.host := rfl
@[simp] theorem State.doneUnspecified_readData (w n : Nat) (r : Word) : (s.doneUnspecified w n r).readData = s.readData := rfl
@[simp] theorem State.doneUnspecified_resets (w n : Nat) (r : Word) : (s.doneUnspecified w n r).resets = s.resets := rfl
@[simp] theorem State.doneUnspecified_overlaps (w n : Nat) (r : Word) : (s.doneUnspecified w n r).overlaps = s.overlaps + 1 := rfl

/-! ### hardReset -/

@[simp] theorem State.hardReset_cmd : (s.hardReset).cmd = 0 := rfl
@[simp] theorem State.hardReset_code : (s.hardReset).code = .ok := rfl
@[simp] theorem State.hardReset_retval : (s.hardReset).retval = 0 := rfl
@[simp] theorem State.hardReset_omAddr : (s.hardReset).omAddr = 0 := rfl
@[simp] theorem State.hardReset_arg : (s.hardReset).arg = Vector.replicate 6 0 := rfl
@[simp] theorem State.hardReset_digest : (s.hardReset).digest = Digest.atReset := rfl
@[simp] theorem State.hardReset_om : (s.hardReset).om = [] := rfl
@[simp] theorem State.hardReset_params : (s.hardReset).params = s.params := rfl
@[simp] theorem State.hardReset_host : (s.hardReset).host = s.host := rfl
@[simp] theorem State.hardReset_readData : (s.hardReset).readData = s.readData := rfl
@[simp] theorem State.hardReset_resets : (s.hardReset).resets = s.resets + 1 := rfl
@[simp] theorem State.hardReset_overlaps : (s.hardReset).overlaps = s.overlaps := rfl

end Sys2Proof.Machine
end

