-- ==== Sys2Proof/Laws/Memory.lean ====
section
/-! SUPPORT. The operand memory: a read after a write, the canonical form and the address bound, which
every memory operation keeps. -/
namespace Sys2Proof.Machine

/-- Every listed address lies below `omSize` (20_memory.md R61). -/
abbrev Memory.below (m : Memory) (omSize : Nat) : Prop := ∀ c ∈ m, c.1 < omSize

@[simp] theorem Memory.get_put_self (m : Memory) (a : Nat) (b : Byte) : (m.put a b).get a = some b := by
  induction m with
  | nil => simp [Memory.put, Memory.get]
  | cons c cs ih =>
    simp only [Memory.put]
    split
    · simp [Memory.get]
    · split
      · simp [Memory.get]
      · rename_i h1 h2
        simp only [Memory.get]
        rw [if_neg (fun h => h2 h.symm), ih]

theorem Memory.get_put_ne (m : Memory) {a x : Nat} (b : Byte) (h : x ≠ a) :
    (m.put a b).get x = m.get x := by
  induction m with
  | nil => simp [Memory.put, Memory.get, h.symm]
  | cons c cs ih =>
    simp only [Memory.put]
    split
    · simp [Memory.get, h.symm]
    · split
      · rename_i h1 h2
        simp only [Memory.get]
        rw [if_neg (fun e => h e.symm), if_neg (fun e => h (by omega))]
      · simp only [Memory.get, ih]

theorem Memory.mem_put {m : Memory} {a : Nat} {b : Byte} {c : Host.Cell} (h : c ∈ m.put a b) :
    c = (a, b) ∨ c ∈ m := by
  induction m with
  | nil => simpa [Memory.put] using h
  | cons d ds ih =>
    simp only [Memory.put] at h
    split at h
    · simpa using h
    · split at h
      · rcases List.mem_cons.mp h with h | h
        · exact .inl h
        · exact .inr (List.mem_cons_of_mem _ h)
      · rcases List.mem_cons.mp h with h | h
        · exact .inr (by simp [h])
        · rcases ih h with h | h
          · exact .inl h
          · exact .inr (List.mem_cons_of_mem _ h)

theorem Memory.put_wf {m : Memory} (h : m.wf) (a : Nat) (b : Byte) : (m.put a b).wf := by
  induction m with
  | nil => simp [Memory.put, Memory.wf]
  | cons c cs ih =>
    obtain ⟨h1, h2⟩ := List.pairwise_cons.mp h
    simp only [Memory.put]
    split
    · rename_i ha
      refine List.pairwise_cons.mpr ⟨fun d hd => ?_, h⟩
      rcases List.mem_cons.mp hd with rfl | hd
      · exact ha
      · exact lt_trans ha (h1 d hd)
    · split
      · rename_i _ e
        exact List.pairwise_cons.mpr ⟨fun d hd => by simpa [e] using h1 d hd, h2⟩
      · rename_i n1 n2
        refine List.pairwise_cons.mpr ⟨fun d hd => ?_, ih h2⟩
        rcases Memory.mem_put hd with rfl | hd
        · show c.1 < a
          omega
        · exact h1 d hd

theorem Memory.putBytes_wf {m : Memory} (h : m.wf) (a : Nat) (bs : List Byte) : (m.putBytes a bs).wf := by
  induction bs generalizing m a with
  | nil => exact h
  | cons b bs ih => exact ih (Memory.put_wf h a b) (a + 1)

theorem Memory.putBytes_below {m : Memory} {k a : Nat} {bs : List Byte} (h : m.below k)
    (hb : a + bs.length ≤ k) : (m.putBytes a bs).below k := by
  induction bs generalizing m a with
  | nil => exact h
  | cons b bs ih =>
    simp only [List.length_cons] at hb
    refine ih (fun c hc => ?_) (by omega)
    rcases Memory.mem_put hc with rfl | hc
    · show a < k
      omega
    · exact h c hc

/-- What a multi-byte write leaves at an address: the stored byte inside the range, the old byte
outside it. -/
theorem Memory.get_putBytes (m : Memory) (a : Nat) (bs : List Byte) (x : Nat) :
    (m.putBytes a bs).get x = if a ≤ x ∧ x < a + bs.length then bs[x - a]? else m.get x := by
  induction bs generalizing m a with
  | nil => rw [if_neg (by simp)]; rfl
  | cons b bs ih =>
    simp only [Memory.putBytes, ih, List.length_cons]
    by_cases h0 : x = a
    · subst h0
      rw [if_neg (by omega), if_pos (by omega)]
      simp
    · by_cases h1 : a + 1 ≤ x ∧ x < a + 1 + bs.length
      · rw [if_pos h1, if_pos (by omega)]
        obtain ⟨k, rfl⟩ : ∃ k, x = a + 1 + k := ⟨x - (a + 1), by omega⟩
        rw [show a + 1 + k - (a + 1) = k by omega, show a + 1 + k - a = k + 1 by omega]
        simp
      · rw [if_neg h1, if_neg (by omega), Memory.get_put_ne _ _ h0]

/-! ### Reading the machine's memory -/

@[simp] theorem State.omByte_congr {s t : State} (h1 : t.om = s.om) (h2 : t.resets = s.resets) (a : Nat) :
    t.omByte a = s.omByte a := by simp [State.omByte, h1, h2]

theorem State.omByte_writeBytes (s : State) (a : Nat) (bs : List Byte) (x : Nat) :
    (s.writeBytes a bs).omByte x
      = if h : a ≤ x ∧ x < a + bs.length then bs[x - a]'(by omega) else s.omByte x := by
  simp only [State.omByte, State.writeBytes_om, State.writeBytes_resets, Memory.get_putBytes]
  split
  · rename_i h
    rw [List.getElem?_eq_getElem (by omega)]
    rfl
  · rfl

theorem State.omByte_writeBytes_outside (s : State) {a x : Nat} {bs : List Byte}
    (h : ¬(a ≤ x ∧ x < a + bs.length)) : (s.writeBytes a bs).omByte x = s.omByte x := by
  rw [State.omByte_writeBytes, dif_neg h]

@[simp] theorem State.readBytes_length (s : State) (a n : Nat) : (s.readBytes a n).length = n := by
  simp [State.readBytes]

theorem State.readBytes_eq_nil {s : State} {a n : Nat} : s.readBytes a n = [] ↔ n = 0 := by
  rw [← List.length_eq_zero_iff, State.readBytes_length]

@[simp] theorem State.readBytes_getElem (s : State) (a n i : Nat) (h : i < (s.readBytes a n).length) :
    (s.readBytes a n)[i] = s.omByte (a + i) := by
  simp [State.readBytes]

/-- Two states that agree on the bytes of a range read the same sequence from it. -/
theorem State.readBytes_eq {s t : State} {a n : Nat} (h : ∀ x, a ≤ x → x < a + n → t.omByte x = s.omByte x) :
    t.readBytes a n = s.readBytes a n := by
  simp only [State.readBytes, List.map_inj_left, List.mem_range]
  exact fun i hi => h _ (by omega) (by omega)

theorem State.readBytes_congr {s t : State} (h1 : t.om = s.om) (h2 : t.resets = s.resets) (a n : Nat) :
    t.readBytes a n = s.readBytes a n :=
  State.readBytes_eq fun x _ _ => by rw [State.omByte_congr h1 h2]

/-- Reading back what was just written. -/
theorem State.readBytes_writeBytes (s : State) (a : Nat) (bs : List Byte) :
    (s.writeBytes a bs).readBytes a bs.length = bs := by
  refine List.ext_getElem (by simp) fun i h1 h2 => ?_
  rw [State.readBytes_getElem, State.omByte_writeBytes, dif_pos (by omega)]
  congr 1
  omega

theorem State.readBytes_writeBytes' (s : State) {a n : Nat} {bs : List Byte} (h : bs.length = n) :
    (s.writeBytes a bs).readBytes a n = bs := by
  subst h; exact s.readBytes_writeBytes a bs

@[simp] theorem State.readBytes_done (s : State) (c : ResultCode) (r : Word) (a n : Nat) :
    (s.done c r).readBytes a n = s.readBytes a n := State.readBytes_congr rfl rfl a n

@[simp] theorem State.omByte_done (s : State) (c : ResultCode) (r : Word) (a : Nat) :
    (s.done c r).omByte a = s.omByte a := State.omByte_congr rfl rfl a

theorem State.readBytes_append (s : State) (a n m : Nat) :
    s.readBytes a (n + m) = s.readBytes a n ++ s.readBytes (a + n) m := by
  simp [State.readBytes, List.range_add, Nat.add_assoc]

/-- Reading back the two halves of a write. -/
theorem State.readBytes_writeBytes_append {s : State} {a n : Nat} {x y : List Byte} (hx : x.length = n)
    (hy : y.length = n) : (s.writeBytes a (x ++ y)).readBytes a n = x
      ∧ (s.writeBytes a (x ++ y)).readBytes (a + n) n = y := by
  have h := State.readBytes_writeBytes' s (a := a) (n := n + n) (bs := x ++ y) (by simp [hx, hy])
  rw [State.readBytes_append] at h
  exact List.append_inj h (by simp [hx])

theorem State.omByte_doneUnspecified_outside (s : State) {w n x : Nat} (r : Word)
    (h : ¬(w ≤ x ∧ x < w + n)) : (s.doneUnspecified w n r).omByte x = s.omByte x := by
  simp only [State.omByte, State.doneUnspecified_om, State.doneUnspecified_resets, Memory.get_putBytes,
    List.length_map, List.length_range]
  rw [if_neg h]

end Sys2Proof.Machine
end

