-- ==== Sys2Proof/Laws/Issue.lean ====
section
/-! SUPPORT. The generic checks (spec/30_encoding.md R92, R96, R97): everything `issue` can do, and that
every command is one. -/
namespace Sys2Proof.Machine

/-- The machine's length check is well-formedness (R96). -/
theorem lengthsLegal_eq (i : Instr) : lengthsLegal i = i.wellFormed := by cases i <;> rfl

theorem rangesInside_iff (k : Nat) (i : Instr) :
    rangesInside k i = true ↔ ∀ r ∈ readRanges i ++ writtenRanges i, r.start + r.length ≤ k := by
  simp only [rangesInside, Range.inside, List.all_eq_true, decide_eq_true_eq]

/-- Everything `issue` can do (R92, R254). -/
theorem issue_cases (i : Instr) (body : State → State) (s : State) :
    (i.wellFormed = false ∧ issue i body s = s.fail .badarg)
    ∨ (i.wellFormed = true ∧ ¬s.Reaches i ∧ issue i body s = s.fail .range)
    ∨ (i.wellFormed = true ∧ s.Reaches i ∧ issue i body s = body s) := by
  have hr := rangesInside_iff s.params.omSize i
  simp only [issue, lengthsLegal_eq]
  cases hw : i.wellFormed
  · exact .inl ⟨rfl, rfl⟩
  · cases h : rangesInside s.params.omSize i
    · exact .inr (.inl ⟨rfl, fun hc => by simp [hr.mpr hc] at h, rfl⟩)
    · exact .inr (.inr ⟨rfl, hr.mp h, rfl⟩)

theorem issue_badarg {i : Instr} (body : State → State) (s : State) (h : i.wellFormed = false) :
    issue i body s = s.fail .badarg := by
  simp [issue, lengthsLegal_eq, h]

theorem issue_range {i : Instr} (body : State → State) {s : State} (h : i.wellFormed = true)
    (hr : ¬s.Reaches i) : issue i body s = s.fail .range := by
  rcases issue_cases i body s with ⟨h1, _⟩ | ⟨_, _, h3⟩ | ⟨_, h2, _⟩
  · simp [h] at h1
  · exact h3
  · exact absurd h2 hr

theorem issue_runs {i : Instr} (body : State → State) {s : State} (h : i.wellFormed = true)
    (hr : s.Reaches i) : issue i body s = body s := by
  rcases issue_cases i body s with ⟨h1, _⟩ | ⟨_, h2, _⟩ | ⟨_, _, h3⟩
  · simp [h] at h1
  · exact absurd hr h2
  · exact h3

/-- Every command is its generic checks and its own rule, and always answers a next state (R301). -/
theorem exec_eq_issue (i : Instr) (s : State) : ∃ body, exec i s = .next (issue i body s) := by
  cases i <;> exact ⟨_, rfl⟩

@[simp] theorem wfLength_iff (n : Word) : wfLength n = true ↔ 1 ≤ n.toNat := by simp [wfLength]

@[simp] theorem wfLengthUpTo_iff (k : Nat) (n : Word) :
    wfLengthUpTo k n = true ↔ 1 ≤ n.toNat ∧ n.toNat ≤ k := by simp [wfLengthUpTo]

end Sys2Proof.Machine
end

