-- ==== Sys2Proof/Laws/Command.lean ====
section
/-! SUPPORT. The three ways every command goes: an illegal length, a range outside `OM`, its own rule; and
what the shared endings leave of a state (spec/30_encoding.md R92, 60_exceptions.md R251). -/
namespace Sys2Proof.Machine

theorem fails_badarg {i : Instr} {s : State} (h : i.wellFormed = false) : Fails i s .badarg := by
  obtain ⟨body, he⟩ := exec_eq_issue i s
  rw [Fails, he, issue_badarg body s h]; rfl

theorem fails_range {i : Instr} {s : State} (h : i.wellFormed = true) (hr : ¬s.Reaches i) :
    Fails i s .range := by
  obtain ⟨body, he⟩ := exec_eq_issue i s
  rw [Fails, he, issue_range body h hr]; rfl

/-- A command whose checks pass is its own rule. -/
theorem exec_runs {i : Instr} {body : State → State} {s : State}
    (he : exec i s = .next (issue i body s)) (h : i.wellFormed = true) (hr : s.Reaches i) :
    exec i s = .next (body s) := by rw [he, issue_runs body h hr]

/-- A command that ends with `OK` after writing a range. -/
theorem endsWriting_done (s : State) (a n : Nat) (bs : List Byte) (ret : Word) (h : bs.length = n) :
    s.EndsWriting ((s.writeBytes a bs).done .ok ret) ret a n := by
  refine ⟨rfl, fun x hx => ?_⟩
  rw [State.omByte_done, State.omByte_writeBytes_outside _ (by rwa [h])]

theorem endsUnspecified_done (s : State) (w n : Nat) (ret : Word) :
    s.EndsUnspecified (s.doneUnspecified w n ret) w n :=
  ⟨rfl, fun _ hx => State.omByte_doneUnspecified_outside s ret hx⟩

/-- Ranges of one length are partly overlapping unless they are identical or apart (40_byte_array.md R128). -/
theorem partlyOverlaps_iff (w r n : Nat) : partlyOverlaps w r n = true ↔ ¬CleanRanges w r n := by
  simp only [partlyOverlaps, overlap, CleanRanges, Bool.and_eq_true, decide_eq_true_eq, bne_iff_ne]
  omega

theorem overlap_iff (a n b m : Nat) (hn : 0 < n) (hm : 0 < m) : overlap a n b m = true ↔ ¬Apart a n b m := by
  simp only [overlap, Apart, decide_eq_true_eq]
  omega

end Sys2Proof.Machine
end

