-- ==== Sys2Proof/Laws/Decode.lean ====
section
/-! SUPPORT. Reading operands from the argument registers, and the one way a command is shown to be encoded
by its word and operand list (spec/30_encoding.md R90, R93). -/
namespace Sys2Proof.Machine

theorem arg_eq {g : Args} {k : Nat} {v : Word} (hk : k < 6) (h : g[k]? = some v) : g[k] = v := by
  rw [Vector.getElem?_eq_getElem hk] at h; simpa using h

@[simp] theorem byteOperand_setWidth (v : Byte) : byteOperand (v.setWidth 32) = v := by
  apply BitVec.eq_of_toNat_eq
  have := v.isLt
  simp only [byteOperand, BitVec.extractLsb'_toNat, BitVec.toNat_setWidth, Nat.shiftRight_zero]
  omega

/-- The decoder on a word whose `Z` field is 0. -/
theorem decode_of_op {w : Word} {g : Args} {i : Instr} (hz : zField w = 0)
    (h : decodeOp (opField w).toNat g = some i) : decode w g = .ok i := by
  simp [decode, hz, h]

theorem encoded_of {i : Instr} {w : Word} {ops : List Word} (hz : zField w = 0)
    (h : ∀ g : Args, (∀ k v, ∀ hk : k < 6, ops[k]? = some v → g[k] = v) →
      decodeOp (opField w).toNat g = some i) : Encoded i w ops :=
  fun g hg => decode_of_op hz (h g fun k v hk hv => arg_eq hk (hg k v hv))

/-- Everything the decoder can accept: an opcode word with `Z = 0` (R98). -/
theorem decode_ok {w : Word} {g : Args} {i : Instr} (h : decode w g = .ok i) :
    zField w = 0 ∧ decodeOp (opField w).toNat g = some i := by
  unfold decode at h
  split at h
  · cases h
  · rename_i hz
    split at h
    · rename_i j hj
      cases h
      exact ⟨by simpa using hz, hj⟩
    · cases h

/-- A word is its two fields. -/
theorem word_toNat (w : Word) : w.toNat = (opField w).toNat + 256 * (zField w).toNat := by
  have := w.isLt
  simp only [opField, zField, BitVec.extractLsb'_toNat, Nat.shiftRight_eq_div_pow]
  omega

/-- The twenty words of R100. -/
theorem encodeWord_mem (i : Instr) : encodeWord i ∈ ([0x01, 0x02, 0x03, 0x04, 0x05, 0x06, 0x07, 0x10, 0x11,
    0x12, 0x20, 0x21, 0x22, 0x30, 0x31, 0x32, 0x33, 0x40, 0x41, 0x42] : List Word) := by
  cases i <;> simp [encodeWord]

theorem encodeWord_zField (i : Instr) : zField (encodeWord i) = 0 := by
  cases i <;> simp [encodeWord, zField]

end Sys2Proof.Machine
end

