-- ==== Sys2Proof/Laws/Sha1.lean ====
section
/-! SUPPORT. The digest engine against the whole-message description: what consuming bytes and padding
do to a digest state that holds a message (spec/10_state.md R37, spec/41_sha1.md R142 to R153). -/
namespace Sys2Proof.Machine

/-! ### Chaining -/

theorem chainBlocks_append (k : Nat) (h : HashWords) (as bs : List Byte) (hk : 64 * k ≤ as.length) :
    chainBlocks k h (as ++ bs) = chainBlocks k h as := by
  induction k generalizing h as with
  | zero => rfl
  | succ k ih =>
    simp only [chainBlocks]
    rw [List.take_append_of_le_length (by omega), List.drop_append_of_le_length (by omega)]
    exact ih _ _ (by simp; omega)

theorem chainBlocks_add (j k : Nat) (h : HashWords) (bs : List Byte) :
    chainBlocks (j + k) h bs = chainBlocks k (chainBlocks j h bs) (bs.drop (64 * j)) := by
  induction j generalizing h bs with
  | zero => simp [chainBlocks]
  | succ j ih =>
    rw [show j + 1 + k = (j + k) + 1 by omega]
    simp only [chainBlocks]
    rw [ih, List.drop_drop]
    congr 2
    omega

theorem chainBlocks_snoc (k : Nat) (h : HashWords) (bs : List Byte) :
    chainBlocks (k + 1) h bs = compressBlock (chainBlocks k h bs) ((bs.drop (64 * k)).take 64) := by
  rw [chainBlocks_add]; rfl

/-! ### reset, store, consume -/

@[simp] theorem Digest.restart_hash (d : Digest) : d.restart.hash = HashWords.init := rfl
@[simp] theorem Digest.restart_len (d : Digest) : d.restart.len = 0 := rfl
@[simp] theorem Digest.restart_blk (d : Digest) : d.restart.blk = d.blk := rfl
@[simp] theorem Digest.restart_idx (d : Digest) : d.restart.idx = 0 := rfl
@[simp] theorem Digest.restart_fin (d : Digest) : d.restart.fin = false := rfl
@[simp] theorem Digest.restart_cor (d : Digest) : d.restart.cor = false := rfl

theorem Digest.restart_holds (d : Digest) : d.restart.Holds [] where
  notCorrupted := rfl
  notFinal := rfl
  length := rfl
  index := rfl
  hash := rfl
  buffer := by simp

/-- Storing a byte before the end of the block (R142). -/
theorem Digest.store_inside (d : Digest) (b : Byte) (h : d.idx.val + 1 < 64) :
    d.store b = { d with blk := d.blk.set d.idx.val b d.idx.isLt, idx := ⟨d.idx.val + 1, h⟩ } := by
  simp [Digest.store, h]

/-- Storing the last byte of a block (R144). -/
theorem Digest.store_last (d : Digest) (b : Byte) (h : d.idx.val = 63) :
    d.store b = { d with
      blk := d.blk.set d.idx.val b d.idx.isLt
      idx := 0
      hash := compressBlock d.hash (d.blk.set d.idx.val b d.idx.isLt).toList } := by
  simp [Digest.store, h, Digest.compress]

@[simp] theorem Digest.store_len (d : Digest) (b : Byte) : (d.store b).len = d.len := by
  unfold Digest.store Digest.compress; split <;> rfl

@[simp] theorem Digest.store_fin (d : Digest) (b : Byte) : (d.store b).fin = d.fin := by
  unfold Digest.store Digest.compress; split <;> rfl

@[simp] theorem Digest.store_cor (d : Digest) (b : Byte) : (d.store b).cor = d.cor := by
  unfold Digest.store Digest.compress; split <;> rfl

theorem Digest.store_idx (d : Digest) (b : Byte) : (d.store b).idx.val = (d.idx.val + 1) % 64 := by
  have := d.idx.isLt
  by_cases h : d.idx.val + 1 < 64
  · rw [Digest.store_inside d b h, Nat.mod_eq_of_lt h]
  · rw [Digest.store_last d b (by omega)]
    show 0 = _
    omega

/-- `LEN` after a byte that does not overflow it (R143). -/
theorem len_add_eight {len : BitVec 64} (h : len.toNat + 8 < 2 ^ 64) : (len + 8).toNat = len.toNat + 8 := by
  rw [BitVec.toNat_add]
  exact Nat.mod_eq_of_lt h

theorem Digest.consume_cons (d : Digest) (b : Byte) (bs : List Byte) (h : d.len.toNat + 8 < 2 ^ 64) :
    d.consume (b :: bs) = (Digest.store { d with len := d.len + 8 } b).consume bs := by
  simp only [Digest.consume]
  rw [if_neg (by omega)]

theorem Digest.consume_overflow (d : Digest) (b : Byte) (bs : List Byte) (h : 2 ^ 64 ≤ d.len.toNat + 8) :
    d.consume (b :: bs) = (.corrupt, { d with len := d.len + 8, cor := true }) := by
  simp only [Digest.consume]
  rw [if_pos h]

/-- Consuming `x` and then `y` is consuming `x ++ y`, as long as `x` ends well (R142). -/
theorem Digest.consume_append (d : Digest) (xs ys : List Byte) (h : (d.consume xs).1 = .ok) :
    d.consume (xs ++ ys) = (d.consume xs).2.consume ys := by
  induction xs generalizing d with
  | nil => rfl
  | cons x xs ih =>
    by_cases ho : d.len.toNat + 8 < 2 ^ 64
    · rw [List.cons_append, Digest.consume_cons _ _ _ ho, Digest.consume_cons _ _ _ ho] at *
      exact ih _ h
    · rw [Digest.consume_overflow _ _ _ (by omega)] at h
      cases h

/-- What a successful or failed consumption leaves of the flags and the counter. -/
theorem Digest.consume_frame (d : Digest) (bs : List Byte) :
    (d.consume bs).2.fin = d.fin
      ∧ (((d.consume bs).1 = .ok ∧ (d.consume bs).2.cor = d.cor
            ∧ d.len.toNat + 8 * bs.length < 2 ^ 64
            ∧ (d.consume bs).2.len.toNat = d.len.toNat + 8 * bs.length
            ∧ (d.consume bs).2.idx.val = (d.idx.val + bs.length) % 64)
        ∨ ((d.consume bs).1 = .corrupt ∧ (d.consume bs).2.cor = true
            ∧ 2 ^ 64 ≤ d.len.toNat + 8 * bs.length)) := by
  induction bs generalizing d with
  | nil =>
    refine ⟨rfl, .inl ⟨rfl, rfl, by have := d.len.isLt; simp only [List.length_nil]; omega, rfl, ?_⟩⟩
    have := d.idx.isLt
    simp [Digest.consume, Nat.mod_eq_of_lt this]
  | cons b bs ih =>
    by_cases ho : d.len.toNat + 8 < 2 ^ 64
    · rw [Digest.consume_cons _ _ _ ho]
      have h := ih (Digest.store { d with len := d.len + 8 } b)
      have hl : (Digest.store { d with len := d.len + 8 } b).len.toNat = d.len.toNat + 8 := by
        rw [Digest.store_len]; exact len_add_eight ho
      have hi := Digest.store_idx { d with len := d.len + 8 } b
      simp only [Digest.store_fin, Digest.store_cor, hl, hi, List.length_cons] at h ⊢
      refine ⟨h.1, ?_⟩
      rcases h.2 with ⟨h1, h2, h3, h4, h5⟩ | ⟨h1, h2, h3⟩
      · exact .inl ⟨h1, h2, by omega, by omega, by omega⟩
      · exact .inr ⟨h1, h2, by omega⟩
    · rw [Digest.consume_overflow _ _ _ (by omega)]
      exact ⟨rfl, .inr ⟨rfl, rfl, by simp only [List.length_cons]; omega⟩⟩

theorem List.take_set_succ {α : Type} (l : List α) (i : Nat) (x : α) (h : i < l.length) :
    (l.set i x).take (i + 1) = l.take i ++ [x] := by
  rw [List.take_succ_eq_append_getElem (by simpa using h), List.take_set_of_le (le_refl i),
    List.getElem_set_self]

/-- One more byte of the message. -/
theorem Digest.Holds.store {d : Digest} {m : List Byte} (h : d.Holds m) (b : Byte)
    (ho : d.len.toNat + 8 < 2 ^ 64) : (Digest.store { d with len := d.len + 8 } b).Holds (m ++ [b]) := by
  have hi := h.index
  have hlen : (d.len + 8).toNat = 8 * (m ++ [b]).length := by
    rw [len_add_eight ho, h.length]; simp; omega
  have hset : (d.blk.set d.idx.val b d.idx.isLt).toList.take (d.idx.val + 1)
      = m.drop (64 * (m.length / 64)) ++ [b] := by
    rw [← h.buffer, Vector.toList_set, List.take_set_succ _ _ _ (by simp)]
  by_cases hb : d.idx.val + 1 < 64
  · rw [Digest.store_inside { d with len := d.len + 8 } b hb]
    have hq : (m ++ [b]).length / 64 = m.length / 64 := by simp; omega
    exact {
      notCorrupted := h.notCorrupted
      notFinal := h.notFinal
      length := hlen
      index := by simp; omega
      hash := by
        rw [hq, chainBlocks_append _ _ _ _ (by omega)]
        exact h.hash
      buffer := by
        rw [hq, List.drop_append_of_le_length (by omega)]
        exact hset }
  · have h63 : d.idx.val = 63 := by omega
    rw [Digest.store_last { d with len := d.len + 8 } b h63]
    have hq : (m ++ [b]).length / 64 = m.length / 64 + 1 := by simp; omega
    exact {
      notCorrupted := h.notCorrupted
      notFinal := h.notFinal
      length := hlen
      index := by simp; omega
      hash := by
        rw [hq, chainBlocks_snoc, chainBlocks_append _ _ _ _ (by omega), ← h.hash,
          List.drop_append_of_le_length (by omega)]
        have h64 : (d.blk.set d.idx.val b d.idx.isLt).toList
            = m.drop (64 * (m.length / 64)) ++ [b] := by
          rw [← hset]
          exact (List.take_of_length_le (by simp; omega)).symm
        have hl : (m.drop (64 * (m.length / 64)) ++ [b]).length ≤ 64 := by simp; omega
        rw [List.take_of_length_le hl, ← h64]
      buffer := by
        rw [hq]
        symm
        simp; omega }

/-- R37 along an input: a state that holds `m` holds `m ++ bs` after consuming `bs`. -/
theorem Digest.Holds.consume {d : Digest} {m : List Byte} (h : d.Holds m) (bs : List Byte)
    (hl : m.length + bs.length < 2 ^ 61) :
    (d.consume bs).1 = .ok ∧ (d.consume bs).2.Holds (m ++ bs) := by
  induction bs generalizing d m with
  | nil => exact ⟨rfl, by simpa [Digest.consume] using h⟩
  | cons b bs ih =>
    simp only [List.length_cons] at hl
    have ho : d.len.toNat + 8 < 2 ^ 64 := by rw [h.length]; omega
    rw [Digest.consume_cons _ _ _ ho]
    have := ih (h.store b ho) (by simp; omega)
    simpa using this

/-! ### Padding -/

@[simp] theorem zeroBlock_getElem (v : Vector Byte 64) (lo hi i : Nat) (h : i < 64) :
    (zeroBlock v lo hi)[i] = if lo ≤ i ∧ i < hi then 0 else v[i] := by
  simp [zeroBlock]

@[simp] theorem lengthBlock_getElem (v : Vector Byte 64) (len : BitVec 64) (i : Nat) (h : i < 64) :
    (lengthBlock v len)[i] = if 56 ≤ i then len.extractLsb' (56 - 8 * (i - 56)) 8 else v[i] := by
  simp [lengthBlock]

@[simp] theorem beBytes_length (n v : Nat) : (beBytes n v).length = n := by simp [beBytes]

theorem leBytes_getElem (n v i : Nat) (h : i < (leBytes n v).length) :
    (leBytes n v)[i] = BitVec.ofNat 8 (v / 256 ^ i) := by
  induction n generalizing v i with
  | zero => simp [leBytes] at h
  | succ n ih =>
    cases i with
    | zero => simp [leBytes]
    | succ i =>
      simp only [leBytes, List.getElem_cons_succ]
      rw [ih, Nat.div_div_eq_div_mul, pow_succ']

theorem beBytes_getElem (n v i : Nat) (h : i < (beBytes n v).length) :
    (beBytes n v)[i] = BitVec.ofNat 8 (v / 256 ^ (n - 1 - i)) := by
  simp only [beBytes, List.getElem_reverse, leBytes_getElem, leBytes_length]

/-- The length bytes of the padding are the big-endian bit count (R148). -/
theorem lengthByte_eq (len : BitVec 64) (j : Nat) (h : j < 8) :
    len.extractLsb' (56 - 8 * j) 8 = BitVec.ofNat 8 (len.toNat / 256 ^ (7 - j)) := by
  apply BitVec.eq_of_toNat_eq
  rw [BitVec.extractLsb'_toNat, BitVec.toNat_ofNat, Nat.shiftRight_eq_div_pow]
  rw [show 56 - 8 * j = 8 * (7 - j) by omega, pow_mul]
  norm_num

/-- A block buffer padded in one block (R148): the stored bytes, `0x80`, zeros, the length. -/
theorem padBlock_short (v : Vector Byte 64) (i : Nat) (h : i < 56) (len : BitVec 64) :
    (lengthBlock (zeroBlock (v.set i 0x80 (by omega)) (i + 1) 56) len).toList
      = v.toList.take i ++ (0x80 :: (List.replicate (55 - i) 0 ++ beBytes 8 len.toNat)) := by
  refine List.ext_getElem (by simp; omega) fun k h1 h2 => ?_
  have hk : k < 64 := by simpa using h1
  rw [Vector.getElem_toList, lengthBlock_getElem _ _ _ hk, zeroBlock_getElem _ _ _ _ hk,
    Vector.getElem_set]
  by_cases c1 : k < i
  · rw [if_neg (by omega), if_neg (by omega), if_neg (by omega),
      List.getElem_append_left (by simp; omega)]
    simp
  · rw [List.getElem_append_right (by simp; omega)]
    simp only [List.length_take, Vector.length_toList, Nat.min_eq_left (by omega : i ≤ 64)]
    by_cases c2 : k = i
    · subst c2; simp; omega
    · rw [List.getElem_cons, dif_neg (by omega)]
      by_cases c3 : k < 56
      · rw [if_neg (by omega), if_pos (by omega), List.getElem_append_left (by simp; omega)]
        simp
      · rw [if_pos (by omega), List.getElem_append_right (by simp; omega), beBytes_getElem,
          lengthByte_eq _ _ (by omega)]
        simp only [List.length_replicate]
        congr 3
        omega

/-- The first of two padding blocks (R148): the stored bytes, `0x80`, zeros to the end. -/
theorem padBlock_first (v : Vector Byte 64) (i : Nat) (h : i < 64) :
    (zeroBlock (v.set i 0x80 h) (i + 1) 64).toList
      = v.toList.take i ++ (0x80 :: List.replicate (63 - i) 0) := by
  refine List.ext_getElem (by simp; omega) fun k h1 h2 => ?_
  have hk : k < 64 := by simpa using h1
  rw [Vector.getElem_toList, zeroBlock_getElem _ _ _ _ hk, Vector.getElem_set]
  by_cases c1 : k < i
  · rw [if_neg (by omega), if_neg (by omega), List.getElem_append_left (by simp; omega)]
    simp
  · rw [List.getElem_append_right (by simp; omega)]
    simp only [List.length_take, Vector.length_toList, Nat.min_eq_left (by omega : i ≤ 64)]
    by_cases c2 : k = i
    · subst c2; simp
    · rw [List.getElem_cons, dif_neg (by omega), if_pos (by omega)]
      simp

/-- The second of two padding blocks (R148): zeros and the length. -/
theorem padBlock_second (v : Vector Byte 64) (len : BitVec 64) :
    (lengthBlock (zeroBlock v 0 56) len).toList = List.replicate 56 0 ++ beBytes 8 len.toNat := by
  refine List.ext_getElem (by simp) fun k h1 h2 => ?_
  have hk : k < 64 := by simpa using h1
  rw [Vector.getElem_toList, lengthBlock_getElem _ _ _ hk, zeroBlock_getElem _ _ _ _ hk]
  by_cases c3 : k < 56
  · rw [if_neg (by omega), if_pos (by omega),
      List.getElem_append_left (by rw [List.length_replicate]; exact c3), List.getElem_replicate]
  · rw [if_pos (by omega), List.getElem_append_right (by rw [List.length_replicate]; omega),
      beBytes_getElem, lengthByte_eq _ _ (by omega)]
    simp only [List.length_replicate]

/-! The fields of an updated digest state. Each proof goes through a constructor whose other fields are
variables, so that the kernel never compares a computed hash with a stored one. -/

theorem Digest.mk_hash (h : HashWords) (l : BitVec 64) (v : Vector Byte 64) (i : Fin 64) (f c : Bool) :
    (Digest.mk h l v i f c).hash = h := rfl
theorem Digest.mk_len (h : HashWords) (l : BitVec 64) (v : Vector Byte 64) (i : Fin 64) (f c : Bool) :
    (Digest.mk h l v i f c).len = l := rfl
theorem Digest.mk_blk (h : HashWords) (l : BitVec 64) (v : Vector Byte 64) (i : Fin 64) (f c : Bool) :
    (Digest.mk h l v i f c).blk = v := rfl
theorem Digest.mk_idx (h : HashWords) (l : BitVec 64) (v : Vector Byte 64) (i : Fin 64) (f c : Bool) :
    (Digest.mk h l v i f c).idx = i := rfl
theorem Digest.mk_fin (h : HashWords) (l : BitVec 64) (v : Vector Byte 64) (i : Fin 64) (f c : Bool) :
    (Digest.mk h l v i f c).fin = f := rfl
theorem Digest.mk_cor (h : HashWords) (l : BitVec 64) (v : Vector Byte 64) (i : Fin 64) (f c : Bool) :
    (Digest.mk h l v i f c).cor = c := rfl

/-- The end of the padding, all fields at once (R148). -/
theorem Digest.finishBlock_eq (d : Digest) (h : HashWords) (v : Vector Byte 64) : d.finishBlock h v
    = Digest.mk (compressBlock h (lengthBlock v d.len).toList) d.len (lengthBlock v d.len) 56 d.fin
        d.cor := rfl

theorem Digest.finishBlock_hash (d : Digest) (h : HashWords) (v : Vector Byte 64) :
    (d.finishBlock h v).hash = compressBlock h (lengthBlock v d.len).toList :=
  (congrArg Digest.hash (Digest.finishBlock_eq d h v)).trans (Digest.mk_hash ..)
theorem Digest.finishBlock_len (d : Digest) (h : HashWords) (v : Vector Byte 64) :
    (d.finishBlock h v).len = d.len :=
  (congrArg Digest.len (Digest.finishBlock_eq d h v)).trans (Digest.mk_len ..)
theorem Digest.finishBlock_fin (d : Digest) (h : HashWords) (v : Vector Byte 64) :
    (d.finishBlock h v).fin = d.fin :=
  (congrArg Digest.fin (Digest.finishBlock_eq d h v)).trans (Digest.mk_fin ..)
theorem Digest.finishBlock_cor (d : Digest) (h : HashWords) (v : Vector Byte 64) :
    (d.finishBlock h v).cor = d.cor :=
  (congrArg Digest.cor (Digest.finishBlock_eq d h v)).trans (Digest.mk_cor ..)

/-- The padding takes one block or two (R148). -/
theorem Digest.pad_cases (d : Digest) :
    (56 ≤ d.idx.val ∧ ∃ h v, d.pad = d.finishBlock h v
        ∧ h = compressBlock d.hash (zeroBlock (d.blk.set d.idx.val 0x80 d.idx.isLt) (d.idx.val + 1) 64).toList
        ∧ v = zeroBlock (zeroBlock (d.blk.set d.idx.val 0x80 d.idx.isLt) (d.idx.val + 1) 64) 0 56)
    ∨ (d.idx.val < 56 ∧ ∃ v, d.pad = d.finishBlock d.hash v
        ∧ v = zeroBlock (d.blk.set d.idx.val 0x80 d.idx.isLt) (d.idx.val + 1) 56) := by
  by_cases h : 56 < d.idx.val + 1
  · exact .inl ⟨by omega, _, _, if_pos h, rfl, rfl⟩
  · exact .inr ⟨by omega, _, if_neg h, rfl⟩

/-- The hash words after the padding (R148): one block or two. -/
theorem Digest.pad_hash (d : Digest) :
    d.pad.hash = if d.idx.val < 56 then
        compressBlock d.hash (d.blk.toList.take d.idx.val
          ++ (0x80 :: (List.replicate (55 - d.idx.val) 0 ++ beBytes 8 d.len.toNat)))
      else
        compressBlock (compressBlock d.hash (d.blk.toList.take d.idx.val
          ++ (0x80 :: List.replicate (63 - d.idx.val) 0)))
          (List.replicate 56 0 ++ beBytes 8 d.len.toNat) := by
  rcases d.pad_cases with ⟨hi, h, v, e, rfl, rfl⟩ | ⟨hi, v, e, rfl⟩
  · rw [if_neg (by omega), e, Digest.finishBlock_hash, padBlock_first, padBlock_second]
  · rw [if_pos hi, e, Digest.finishBlock_hash, padBlock_short _ _ hi]

@[simp] theorem Digest.pad_len (d : Digest) : d.pad.len = d.len := by
  rcases d.pad_cases with ⟨_, h, v, e, _⟩ | ⟨_, v, e, _⟩
  · rw [e, Digest.finishBlock_len]
  · rw [e, Digest.finishBlock_len]

@[simp] theorem Digest.pad_fin (d : Digest) : d.pad.fin = d.fin := by
  rcases d.pad_cases with ⟨_, h, v, e, _⟩ | ⟨_, v, e, _⟩
  · rw [e, Digest.finishBlock_fin]
  · rw [e, Digest.finishBlock_fin]

@[simp] theorem Digest.pad_cor (d : Digest) : d.pad.cor = d.cor := by
  rcases d.pad_cases with ⟨_, h, v, e, _⟩ | ⟨_, v, e, _⟩
  · rw [e, Digest.finishBlock_cor]
  · rw [e, Digest.finishBlock_cor]

theorem sha1Padding_length (n : Nat) : (sha1Padding n).length = 9 + (119 - n % 64) % 64 := by
  simp [sha1Padding]; omega

/-- The engine's padding and last compressions give the hash of the whole message. -/
theorem Digest.Holds.pad {d : Digest} {m : List Byte} (h : d.Holds m) : d.pad.hash = sha1Hash m := by
  have hi := h.index
  rw [Digest.pad_hash, h.buffer, h.hash, h.length, sha1Hash, sha1Padding_length]
  have hm := Nat.mod_add_div m.length 64
  have hdl : (m.drop (64 * (m.length / 64))).length = m.length % 64 := by simp; omega
  by_cases c : d.idx.val < 56
  · rw [if_pos c]
    rw [show (m.length + (9 + (119 - m.length % 64) % 64)) / 64 = m.length / 64 + 1 by omega,
      chainBlocks_snoc, chainBlocks_append _ _ _ _ (by omega),
      List.drop_append_of_le_length (by omega), List.take_of_length_le
        (by rw [List.length_append, hdl, sha1Padding_length]; omega)]
    congr 2
    rw [sha1Padding, hi]
    congr 3
    omega
  · rw [if_neg c]
    have hz : sha1Padding m.length = (0x80 :: List.replicate (63 - m.length % 64) 0)
        ++ (List.replicate 56 0 ++ beBytes 8 (8 * m.length)) := by
      rw [sha1Padding, List.cons_append, ← List.append_assoc, List.replicate_append_replicate]
      congr 3
      omega
    have hfl : (m ++ (0x80 :: List.replicate (63 - m.length % 64) 0) : List Byte).length
        = 64 * (m.length / 64 + 1) := by
      rw [List.length_append, List.length_cons, List.length_replicate]; omega
    have e2 : (m ++ sha1Padding m.length).drop (64 * (m.length / 64 + 1))
        = List.replicate 56 0 ++ beBytes 8 (8 * m.length) := by
      rw [hz, ← List.append_assoc, List.drop_left' hfl]
    have e1 : chainBlocks (m.length / 64 + 1) HashWords.init (m ++ sha1Padding m.length)
        = compressBlock (chainBlocks (m.length / 64) HashWords.init m)
          (m.drop (64 * (m.length / 64)) ++ (0x80 :: List.replicate (63 - m.length % 64) 0)) := by
      rw [hz, ← List.append_assoc, chainBlocks_append _ _ _ _ (by omega), chainBlocks_snoc,
        chainBlocks_append _ _ _ _ (by omega), List.drop_append_of_le_length (by omega),
        List.take_of_length_le (by
          rw [List.length_append, hdl, List.length_cons, List.length_replicate]; omega)]
    rw [show (m.length + (9 + (119 - m.length % 64) % 64)) / 64 = m.length / 64 + 1 + 1 by omega,
      chainBlocks_snoc, e1, e2, List.take_of_length_le (by
        rw [List.length_append, List.length_replicate, beBytes_length]), hi]

/-! ### sha1_run -/

/-- `sha1_run` of a non-empty message (R153): the code, the digest and the state it leaves. -/
theorem Digest.run_spec (d : Digest) (m : List Byte) (h0 : m ≠ []) (hl : m.length < 2 ^ 61) :
    (d.run m).1 = .ok ∧ (d.run m).2.1 = sha1 m ∧ (d.run m).2.2.fin = true
      ∧ (d.run m).2.2.cor = false ∧ (d.run m).2.2.hash = sha1Hash m := by
  obtain ⟨h1, h2⟩ := (Digest.restart_holds d).consume m (by simpa using hl)
  rw [List.nil_append] at h2
  have hin : d.restart.input m = d.restart.consume m := by simp [Digest.input, h0]
  have hres : (d.restart.consume m).2.result
      = (.ok, { (d.restart.consume m).2.pad with fin := true }) := by
    simp [Digest.result, h2.notCorrupted, h2.notFinal]
  simp [Digest.run, hin, h1, hres, h2.pad, h2.notCorrupted, sha1]

/-- `sha1_run` of the empty message (R153). -/
theorem Digest.run_empty (d : Digest) :
    d.run [] = (.corrupt, [], { d.restart with cor := true }) := by
  simp [Digest.run, Digest.input]

end Sys2Proof.Machine
end

