-- ==== Sys2Proof/Laws/Digest.lean ====
section
/-! SUPPORT. Everything the three operations on the digest state can do (spec/41_sha1.md R142, R147, R153),
said once each, and the length of a digest. -/
namespace Sys2Proof.Machine

/-- The three misuses of SHA_INPUT leave the digest state with `COR` set, otherwise as it was. -/
theorem Digest.input_refuses {d : Digest} {bs : List Byte} (h : bs = [] ∨ d.fin = true ∨ d.cor = true) :
    d.input bs = (.corrupt, { d with cor := true }) := by
  unfold Digest.input
  by_cases h0 : bs = []
  · rw [if_pos h0]
  · rw [if_neg h0]
    cases hf : d.fin
    · cases hc : d.cor
      · simp [h0, hf, hc] at h
      · obtain ⟨_, _, _, _, f, c⟩ := d
        cases hc
        simpa using hf
    · simp

theorem Digest.input_consumes {d : Digest} {bs : List Byte} (h0 : bs ≠ []) (hf : d.fin = false)
    (hc : d.cor = false) : d.input bs = d.consume bs := by
  simp [Digest.input, h0, hf, hc]

/-- Everything SHA_INPUT can do to a digest state that is neither finalized nor corrupted. -/
theorem Digest.input_open {d : Digest} {bs : List Byte} (h0 : bs ≠ []) (hf : d.fin = false)
    (hc : d.cor = false) :
    ((d.input bs).1 = .ok ∧ (d.input bs).2.cor = false ∧ (d.input bs).2.fin = false
        ∧ d.len.toNat + 8 * bs.length < 2 ^ 64
        ∧ (d.input bs).2.len.toNat = d.len.toNat + 8 * bs.length
        ∧ (d.input bs).2.idx.val = (d.idx.val + bs.length) % 64)
      ∨ ((d.input bs).1 = .corrupt ∧ (d.input bs).2.cor = true ∧ (d.input bs).2.fin = false
        ∧ 2 ^ 64 ≤ d.len.toNat + 8 * bs.length) := by
  rw [Digest.input_consumes h0 hf hc]
  obtain ⟨h1, h2⟩ := d.consume_frame bs
  rw [hf] at h1
  rcases h2 with ⟨a, b, c, e, f⟩ | ⟨a, b, c⟩
  · exact .inl ⟨a, b.trans hc, h1, c, e, f⟩
  · exact .inr ⟨a, b, h1, c⟩

theorem Digest.result_corrupted {d : Digest} (h : d.cor = true) : d.result = (.corrupt, d) := by
  simp [Digest.result, h]

theorem Digest.result_final {d : Digest} (hc : d.cor = false) (hf : d.fin = true) : d.result = (.ok, d) := by
  simp [Digest.result, hc, hf]

theorem Digest.result_pads {d : Digest} (hc : d.cor = false) (hf : d.fin = false) :
    d.result = (.ok, { d.pad with fin := true }) := by
  simp [Digest.result, hc, hf]

/-- `H` after finalizing: `FIN` does not touch it. -/
theorem Digest.finalized_hash (d : Digest) : ({ d with fin := true } : Digest).hash = d.hash :=
  Digest.mk_hash ..

theorem Digest.finalized_len (d : Digest) : ({ d with fin := true } : Digest).len = d.len :=
  Digest.mk_len ..

theorem Digest.finalized_cor (d : Digest) : ({ d with fin := true } : Digest).cor = d.cor :=
  Digest.mk_cor ..

@[simp] theorem HashWords.bytes_length (h : HashWords) : h.bytes.length = 20 := by
  simp [HashWords.bytes, wordBytes]

/-- Everything `sha1_run` can do (R153): the empty message corrupts, any other of representable length is
digested. -/
theorem Digest.run_cases (d : Digest) (m : List Byte) (hl : m.length < 2 ^ 61) :
    (m = [] ∧ d.run m = (.corrupt, [], { d.restart with cor := true }))
      ∨ (m ≠ [] ∧ (d.run m).1 = .ok ∧ (d.run m).2.1 = sha1 m ∧ (d.run m).2.2.Finalized
          ∧ (d.run m).2.2.hash = sha1Hash m) := by
  by_cases h0 : m = []
  · subst h0
    exact .inl ⟨rfl, d.run_empty⟩
  · obtain ⟨a, b, c, e, f⟩ := d.run_spec m h0 hl
    exact .inr ⟨h0, a, b, ⟨e, c⟩, f⟩

end Sys2Proof.Machine
end

