-- ==== Sys2Proof/Laws/Modular.lean ====
section
/-! SUPPORT. The square-and-multiply scan is exponentiation, and the Euclidean iteration finds the
canonical inverse exactly when there is one (spec/43_modular.md R195, R197). -/
namespace Sys2Proof.Machine

theorem powStep_spec {base m acc e : Nat} {bit : Bool} (h : acc = base ^ e % m) :
    powStep base m acc bit = base ^ (2 * e + bit.toNat) % m := by
  subst h
  cases bit
  · simp [powStep, Nat.mul_comm 2 e, pow_mul, pow_two, Nat.mul_mod]
  · simp [powStep, Nat.mul_comm 2 e, pow_succ, pow_mul, Nat.mul_mod]

theorem powScan_spec (base e m k acc : Nat) (h : acc = base ^ (e / 2 ^ k) % m) :
    powScan base e m k acc = base ^ e % m := by
  induction k generalizing acc with
  | zero => simpa [powScan] using h
  | succ k ih =>
    refine ih _ ?_
    rw [powStep_spec h]
    congr 2
    rw [Nat.testBit_eq_decide_div_mod_eq, pow_succ, ← Nat.div_div_eq_div_mul]
    rcases Nat.mod_two_eq_zero_or_one (e / 2 ^ k) with h0 | h0 <;> simp [h0] <;> omega

/-- The scan of R195 gives the identity of R194. -/
theorem powMod_eq {base e m k : Nat} (h : e < 2 ^ k) : powMod base e m k = base ^ e % m :=
  powScan_spec base e m k _ (by simp [Nat.div_eq_of_lt h])

/-- What the Euclidean iteration keeps (R197): the remainders' gcd, the congruences of the coefficient
magnitudes with their alternating sign, and the relation that bounds the magnitudes. -/
structure EuclidInv (a m r0 r1 t0 t1 : Nat) (odd : Bool) : Prop where
  gcd : Nat.gcd r0 r1 = Nat.gcd a m
  first : (m : Int) ∣ a * t0 + (if odd then -(r0 : Int) else (r0 : Int))
  second : (m : Int) ∣ a * t1 + (if odd then (r1 : Int) else -(r1 : Int))
  sum : t0 * r1 + t1 * r0 = m
  le : t0 ≤ t1
  lt : r1 < r0

theorem EuclidInv.step {a m r0 r1 t0 t1 : Nat} {odd : Bool} (h : EuclidInv a m r0 r1 t0 t1 odd)
    (hr : r1 ≠ 0) : EuclidInv a m r1 (r0 % r1) t1 (t0 + r0 / r1 * t1) (!odd) where
  gcd := by rw [← h.gcd, Nat.gcd_comm r0 r1, Nat.gcd_rec r1 r0, Nat.gcd_comm]
  first := by cases odd <;> simpa using h.second
  second := by
    have hd := Nat.div_add_mod r0 r1
    have hz : (r0 : Int) = r1 * (r0 / r1 : Nat) + (r0 % r1 : Nat) := by exact_mod_cast hd.symm
    have := dvd_add h.first (Dvd.dvd.mul_left h.second (r0 / r1 : Nat))
    cases odd
    · simp only [Bool.false_eq_true, if_false, Bool.not_false, if_true] at this ⊢
      refine (Int.dvd_iff_dvd_of_dvd_sub ?_).mp this
      rw [hz]; push_cast; ring_nf; simp
    · simp only [Bool.not_true, Bool.false_eq_true, if_false, if_true] at this ⊢
      refine (Int.dvd_iff_dvd_of_dvd_sub ?_).mp this
      rw [hz]; push_cast; ring_nf; simp
  sum := by
    rw [← h.sum]
    conv_rhs => rw [← Nat.div_add_mod r0 r1]
    ring
  le := by
    have : 1 ≤ r0 / r1 := (Nat.one_le_div_iff (by omega)).mpr h.lt.le
    nlinarith [Nat.zero_le t0]
  lt := Nat.mod_lt _ (by omega)

theorem euclid_spec {a m fuel r0 r1 t0 t1 : Nat} {odd : Bool} (hf : r1 ≤ fuel)
    (h : EuclidInv a m r0 r1 t0 t1 odd) :
    ∃ t, EuclidInv a m (euclid fuel r0 r1 t0 t1 odd).1 0 (euclid fuel r0 r1 t0 t1 odd).2.1 t
      (euclid fuel r0 r1 t0 t1 odd).2.2 := by
  induction fuel generalizing r0 r1 t0 t1 odd with
  | zero => obtain rfl : r1 = 0 := by omega
            exact ⟨t1, h⟩
  | succ fuel ih =>
    simp only [euclid]
    split
    · rename_i e; subst e; exact ⟨t1, h⟩
    · rename_i hr
      have := Nat.mod_lt r0 (Nat.pos_of_ne_zero hr)
      exact ih (by omega) (h.step hr)

theorem EuclidInv.start {a m : Nat} (h : a < m) : EuclidInv a m m a 0 1 false where
  gcd := Nat.gcd_comm m a
  first := by simp
  second := by simp
  sum := by simp
  le := by omega
  lt := h

/-- The gcd the iteration ends with. -/
theorem euclid_gcd {a m : Nat} (h : a < m) : (euclid a m a 0 1 false).1 = Nat.gcd a m := by
  obtain ⟨t, ht⟩ := euclid_spec (fuel := a) le_rfl (EuclidInv.start h)
  simpa using ht.gcd

/-- Everything `modInverse` can answer (R196): the failures in their order, else the canonical
inverse. -/
theorem modInverse_spec (a m : Nat) :
    (a = 0 ∧ modInverse a m = .error .zero)
    ∨ (a ≠ 0 ∧ m = 0 ∧ modInverse a m = .error .zero)
    ∨ (a ≠ 0 ∧ m ≠ 0 ∧ m ≤ a ∧ modInverse a m = .error .notless)
    ∨ (a ≠ 0 ∧ a < m ∧ Nat.gcd a m ≠ 1 ∧ modInverse a m = .error .noinv)
    ∨ (a ≠ 0 ∧ a < m ∧ Nat.gcd a m = 1
        ∧ ∃ x, modInverse a m = .ok x ∧ 0 < x ∧ x < m ∧ a * x % m = 1) := by
  by_cases h0 : a = 0
  · exact .inl ⟨h0, by simp [modInverse, h0]⟩
  by_cases h1 : m = 0
  · exact .inr (.inl ⟨h0, h1, by simp [modInverse, h0, h1]⟩)
  by_cases h2 : m ≤ a
  · exact .inr (.inr (.inl ⟨h0, h1, h2, by simp [modInverse, h0, h1, h2]⟩))
  have hlt : a < m := by omega
  by_cases h3 : Nat.gcd a m = 1
  · refine .inr (.inr (.inr (.inr ⟨h0, hlt, h3, ?_⟩)))
    obtain ⟨t, ht⟩ := euclid_spec (fuel := a) le_rfl (EuclidInv.start hlt)
    have hg := euclid_gcd hlt
    have hi : modInverse a m = .ok (if (euclid a m a 0 1 false).2.2 then (euclid a m a 0 1 false).2.1
        else m - (euclid a m a 0 1 false).2.1) := by
      simp [modInverse, h0, h1, h2, hg, h3]
    rw [hg, h3] at ht
    generalize (euclid a m a 0 1 false).2.1 = u at *
    generalize (euclid a m a 0 1 false).2.2 = odd at *
    have hum : u ≤ m := by have := ht.sum; have := ht.le; omega
    have hm : (2 : Int) ≤ m := by omega
    have hd := ht.first
    have ne0 : u ≠ 0 := by
      rintro rfl
      have h5 : (m : Int) ∣ 1 := by cases odd <;> simpa using hd
      have := Int.le_of_dvd (by norm_num) h5
      omega
    have nem : u ≠ m := by
      rintro rfl
      have h5 : (u : Int) ∣ 1 := by
        have h6 := dvd_sub hd (Dvd.intro_left (a : Int) rfl)
        cases odd <;> simpa using h6
      have := Int.le_of_dvd (by norm_num) h5
      omega
    have key : ∀ x : Nat, (m : Int) ∣ a * x - 1 → a * x % m = 1 := by
      intro x hx
      have h7 : (a * x : Int) % m = 1 % m :=
        Int.emod_eq_emod_iff_emod_sub_eq_zero.mpr (Int.emod_eq_zero_of_dvd hx)
      rw [Int.emod_eq_of_lt (a := 1) (by norm_num) (by omega)] at h7
      exact_mod_cast h7
    cases odd
    · refine ⟨m - u, by simpa using hi, by omega, by omega, key _ ?_⟩
      rw [Nat.cast_sub hum]
      have h8 : (m : Int) ∣ a * m := Dvd.intro_left _ rfl
      have := dvd_sub h8 hd
      simp only [Bool.false_eq_true, if_false] at this
      rw [show (a : Int) * ((m : Int) - u) - 1 = a * m - (a * u + 1) by ring]
      exact this
    · refine ⟨u, by simpa using hi, by omega, by omega, key _ ?_⟩
      simpa [sub_eq_add_neg] using hd
  · exact .inr (.inr (.inr (.inl ⟨h0, hlt, h3, by
      simp [modInverse, h0, h1, h2, euclid_gcd hlt, h3]⟩)))

/-- The canonical inverse is the only one below the modulus. -/
theorem inverse_unique {a m x y : Nat} (hx : x < m) (hy : y < m) (h1 : a * x % m = 1)
    (h2 : a * y % m = 1) : x = y := by
  have e1 : x * (a * y) % m = x := by
    rw [Nat.mul_mod, h2, Nat.mul_one, Nat.mod_mod, Nat.mod_eq_of_lt hx]
  have e2 : y * (a * x) % m = y := by
    rw [Nat.mul_mod, h1, Nat.mul_one, Nat.mod_mod, Nat.mod_eq_of_lt hy]
  have e3 : x * (a * y) = y * (a * x) := by ring
  rw [← e1, e3, e2]

end Sys2Proof.Machine
end

