-- ==== Sys2Proof/Laws/Dsa.lean ====
section
/-! SUPPORT. The constant ROM holds the parameters, and everything `dsaVerify` can answer
(spec/44_dsa.md R221 to R223). -/
namespace Sys2Proof.Machine

theorem toNat_lt_bytes {n : Nat} (x : BitVec (8 * n)) : x.toNat < 256 ^ n :=
  lt_of_lt_of_eq x.isLt (pow_mul 2 8 n)

theorem intLe_romP (k : Config.Params) : intLe (romP k) = k.p.toNat :=
  intLe_leBytes_of_lt (toNat_lt_bytes (n := Config.nP) k.p)

theorem intLe_romQ (k : Config.Params) : intLe (romQ k) = k.q.toNat :=
  intLe_leBytes_of_lt (toNat_lt_bytes (n := Config.nQ) k.q)

theorem intLe_romG (k : Config.Params) : intLe (romG k) = k.g.toNat :=
  intLe_leBytes_of_lt (toNat_lt_bytes (n := Config.nP) k.g)

theorem intLe_romY (k : Config.Params) : intLe (romY k) = k.y.toNat :=
  intLe_leBytes_of_lt (toNat_lt_bytes (n := Config.nP) k.y)

/-- Steps 4 to 7 of R221 for a positive `Q`. -/
theorem dsaCheck_eq (k : Config.Params) (r w z : Nat) (hq : 0 < k.q.toNat) :
    dsaCheck k r w z = if k.p.toNat = 0 then none else
      some (decide ((k.g.toNat ^ (z * w % k.q.toNat) % k.p.toNat)
        * (k.y.toNat ^ (r * w % k.q.toNat) % k.p.toNat) % k.p.toNat % k.q.toNat = r)) := by
  have hb : ∀ x, x % k.q.toNat < 2 ^ (8 * Config.nQ) := fun x =>
    lt_trans (Nat.mod_lt x hq) (lt_of_lt_of_eq k.q.isLt (by norm_num [Config.nQ]))
  simp only [dsaCheck, intLe_romP, intLe_romQ, intLe_romG, intLe_romY, powMod_eq (hb _)]

/-- DSAVFY's steps where step 2 fails (R222, R223). -/
theorem dsaVerify_error {k : Config.Params} {d : Digest} {msg rw sw : List Byte} {c : ResultCode}
    (h : modInverse (intBe sw) k.q.toNat = .error c) : dsaVerify k d msg rw sw = (c, 0, d) := by
  simp [dsaVerify, intLe_romQ, h]

/-- DSAVFY's steps on an empty message (R222). -/
theorem dsaVerify_empty {k : Config.Params} {d : Digest} {rw sw : List Byte} {w : Nat}
    (h : modInverse (intBe sw) k.q.toNat = .ok w) :
    dsaVerify k d [] rw sw = (.corrupt, 0, { d.restart with cor := true }) := by
  simp [dsaVerify, intLe_romQ, h, Digest.run_empty]

/-- DSAVFY's steps on a message where step 2 succeeds (R221). -/
theorem dsaVerify_runs {k : Config.Params} {d : Digest} {msg rw sw : List Byte} {w : Nat}
    (h : modInverse (intBe sw) k.q.toNat = .ok w) (hq : 0 < k.q.toNat) (h0 : msg ≠ [])
    (hl : msg.length < 2 ^ 61) :
    dsaVerify k d msg rw sw =
      if k.p.toNat = 0 then (.zero, 0, (d.run msg).2.2)
      else (.ok, boolRet (decide ((k.g.toNat ^ (intBe (sha1 msg) * w % k.q.toNat) % k.p.toNat)
        * (k.y.toNat ^ (intBe rw * w % k.q.toNat) % k.p.toNat) % k.p.toNat % k.q.toNat = intBe rw)),
        (d.run msg).2.2) := by
  obtain ⟨h1, h2, _⟩ := d.run_spec msg h0 hl
  simp only [dsaVerify, intLe_romQ, h, h1, h2, if_true, dsaCheck_eq k _ _ _ hq]
  by_cases hp : k.p.toNat = 0
  · simp [hp]
  · simp [hp]

end Sys2Proof.Machine
end

