-- ==== Sys2Proof/Laws/Effect.lean ====
section
/-! SUPPORT. Everything a command whose generic checks pass can do to a state, said once for all twenty, so
that the rules of the whole machine need no case split over their meanings. -/
namespace Sys2Proof.Machine

/-- Everything DSAVFY's steps can answer (spec/44_dsa.md R222, R223). -/
theorem dsaVerify_cases (k : Config.Params) (d : Digest) (msg rw sw : List Byte) (hl : msg.length < 2 ^ 61) :
    (∃ c, (c = .zero ∨ c = .notless ∨ c = .noinv) ∧ dsaVerify k d msg rw sw = (c, 0, d))
      ∨ (msg = [] ∧ dsaVerify k d msg rw sw = (.corrupt, 0, { d.restart with cor := true }))
      ∨ (msg ≠ [] ∧ dsaVerify k d msg rw sw = (.zero, 0, (d.run msg).2.2))
      ∨ (msg ≠ [] ∧ ∃ b, dsaVerify k d msg rw sw = (.ok, boolRet b, (d.run msg).2.2)) := by
  rcases modInverse_spec (intBe sw) k.q.toNat with ⟨_, e⟩ | ⟨_, _, e⟩ | ⟨_, _, _, e⟩ | ⟨_, _, _, e⟩ |
    ⟨_, hq, _, w, e, _⟩
  · exact .inl ⟨_, .inl rfl, dsaVerify_error e⟩
  · exact .inl ⟨_, .inl rfl, dsaVerify_error e⟩
  · exact .inl ⟨_, .inr (.inl rfl), dsaVerify_error e⟩
  · exact .inl ⟨_, .inr (.inr rfl), dsaVerify_error e⟩
  · by_cases h0 : msg = []
    · subst h0
      exact .inr (.inl ⟨rfl, dsaVerify_empty e⟩)
    · have hr := dsaVerify_runs (d := d) (rw := rw) e (by omega) h0 hl
      by_cases hp : k.p.toNat = 0
      · rw [if_pos hp] at hr
        exact .inr (.inr (.inl ⟨h0, hr⟩))
      · rw [if_neg hp] at hr
        exact .inr (.inr (.inr ⟨h0, _, hr⟩))

/-- What a verifying command leaves of the digest state, with its code: untouched, corrupted by an empty
message, or final with the hash of a message. -/
abbrev VerifyEffect (s t : State) : Prop :=
  (t.digest = s.digest ∧ (t.code = .short ∨ t.code = .zero ∨ t.code = .notless ∨ t.code = .noinv))
    ∨ (t.digest = { s.digest.restart with cor := true } ∧ t.code = .corrupt)
    ∨ ((t.code = .zero ∨ t.code = .ok) ∧ t.digest.Finalized ∧ ∃ m, t.digest.hash = sha1Hash m)

/-- What a command does to the digest state, with its code. -/
def DigestEffect (s t : State) : Instr → Prop
  | .shaReset => t.digest = s.digest.restart ∧ t.code = .ok
  | .shaInput data length => t.digest = (s.digest.input (s.readBytes data.toNat length.toNat)).2
      ∧ t.code = (s.digest.input (s.readBytes data.toNat length.toNat)).1
  | .shaResult _ => t.digest = s.digest.result.2 ∧ t.code = s.digest.result.1
  | .dsavfy _ _ _ _ => VerifyEffect s t ∧ t.code ≠ .short
  | .ksvvfy _ _ => (t.digest = s.digest ∧ t.code = .short)
      ∨ (t.code = .ok ∧ t.digest.Finalized ∧ ∃ m, t.digest.hash = sha1Hash m)
  | .srmvfy _ _ => VerifyEffect s t
  | .mul _ _ _ _ => t.digest = s.digest ∧ (t.code = .ok ∨ t.code = .aliased)
  | .div _ _ _ _ | .modred _ _ _ _ _ | .modmul _ _ _ _ _ | .modexp _ _ _ _ _ _ =>
    t.digest = s.digest ∧ (t.code = .ok ∨ t.code = .zero)
  | .modinv _ _ _ _ =>
    t.digest = s.digest ∧ (t.code = .ok ∨ t.code = .zero ∨ t.code = .notless ∨ t.code = .noinv)
  | _ => t.digest = s.digest ∧ t.code = .ok

/-- Everything a command whose generic checks pass can do. -/
structure Effect (i : Instr) (s t : State) : Prop where
  frame : t = { s with
    om := t.om, digest := t.digest, code := t.code, retval := t.retval, overlaps := t.overlaps }
  memory : t.om = s.om ∨ ∃ r ∈ writtenRanges i, ∃ bs : List Byte, bs.length = r.length
    ∧ t.om = s.om.putBytes r.start bs
  failing : t.code ≠ .ok → t.om = s.om ∧ t.retval = 0 ∧ t.overlaps = s.overlaps
  digest : DigestEffect s t i

theorem Effect.of_write {i : Instr} {s : State} {d : Digest} {r : Range} {bs : List Byte} {ret : Word}
    (hr : r ∈ writtenRanges i) (hl : bs.length = r.length)
    (hd : DigestEffect s (((s.withDigest d).writeBytes r.start bs).done .ok ret) i) :
    Effect i s (((s.withDigest d).writeBytes r.start bs).done .ok ret) :=
  ⟨rfl, .inr ⟨r, hr, bs, hl, rfl⟩, fun h => absurd rfl h, hd⟩

theorem Effect.of_done {i : Instr} {s : State} {r : Range} {bs : List Byte} {ret : Word}
    (hr : r ∈ writtenRanges i) (hl : bs.length = r.length)
    (hd : DigestEffect s ((s.writeBytes r.start bs).done .ok ret) i) :
    Effect i s ((s.writeBytes r.start bs).done .ok ret) :=
  .of_write (d := s.digest) hr hl hd

theorem Effect.of_ok {i : Instr} {s : State} {d : Digest} {ret : Word}
    (hd : DigestEffect s ((s.withDigest d).done .ok ret) i) : Effect i s ((s.withDigest d).done .ok ret) :=
  ⟨rfl, .inl rfl, fun h => absurd rfl h, hd⟩

theorem Effect.of_fail {i : Instr} {s : State} {d : Digest} {c : ResultCode}
    (hd : DigestEffect s ((s.withDigest d).done c 0) i) : Effect i s ((s.withDigest d).done c 0) :=
  ⟨rfl, .inl rfl, fun _ => ⟨rfl, rfl, rfl⟩, hd⟩

theorem Effect.of_unspecified {i : Instr} {s : State} {w n : Nat} {ret : Word}
    (hr : ⟨w, n⟩ ∈ writtenRanges i) (hd : DigestEffect s (s.doneUnspecified w n ret) i) :
    Effect i s (s.doneUnspecified w n ret) :=
  ⟨rfl, .inr ⟨⟨w, n⟩, hr, _, by simp, rfl⟩, fun h => absurd rfl h, hd⟩

theorem verify_effect {i : Instr} {s : State} {msg rw sw : List Byte} (hl : msg.length < 2 ^ 61)
    (hd : ∀ t, VerifyEffect s t → t.code ≠ .short → DigestEffect s t i) :
    Effect i s ((s.withDigest (dsaVerify s.params s.digest msg rw sw).2.2).done
      (dsaVerify s.params s.digest msg rw sw).1 (dsaVerify s.params s.digest msg rw sw).2.1) := by
  rcases dsaVerify_cases s.params s.digest msg rw sw hl with ⟨c, hc, e⟩ | ⟨_, e⟩ | ⟨h0, e⟩ | ⟨h0, b, e⟩
  · rw [e]
    refine Effect.of_fail (hd _ (.inl ⟨rfl, .inr hc⟩) ?_)
    rcases hc with rfl | rfl | rfl <;> simp
  · rw [e]
    exact Effect.of_fail (hd _ (.inr (.inl ⟨rfl, rfl⟩)) (by simp))
  · rw [e]
    rcases s.digest.run_cases msg hl with ⟨h, _⟩ | ⟨_, _, _, hf, hh⟩
    · exact absurd h h0
    · exact Effect.of_fail (hd _ (.inr (.inr ⟨.inl rfl, hf, msg, hh⟩)) (by simp))
  · rw [e]
    rcases s.digest.run_cases msg hl with ⟨h, _⟩ | ⟨_, _, _, hf, hh⟩
    · exact absurd h h0
    · exact Effect.of_ok (hd _ (.inr (.inr ⟨.inr rfl, hf, msg, hh⟩)) (by simp))

theorem shaResult_effect {out : Word} {s : State} {p : ResultCode × Digest} (hp : s.digest.result = p) :
    Effect (.shaResult out) s
      (if p.1 = .ok then ((s.withDigest p.2).writeBytes out.toNat p.2.hash.bytes).done .ok 1
      else (s.withDigest p.2).fail p.1) := by
  have hd : ∀ t : State, t.digest = p.2 → t.code = p.1 → DigestEffect s t (.shaResult out) :=
    fun t h1 h2 => by rw [DigestEffect, hp]; exact ⟨h1, h2⟩
  obtain ⟨c, d⟩ := p
  split
  · rename_i h
    exact .of_write (r := ⟨out.toNat, Config.digestSize⟩) (by simp [writtenRanges])
      (HashWords.bytes_length _) (hd _ rfl h.symm)
  · exact .of_fail (hd _ rfl rfl)

/-- Everything any command can do: an illegal length, a range outside `OM`, or its effect. -/
theorem exec_cases (i : Instr) (s : State) :
    (i.wellFormed = false ∧ exec i s = .next (s.fail .badarg))
    ∨ (i.wellFormed = true ∧ ¬s.Reaches i ∧ exec i s = .next (s.fail .range))
    ∨ (i.wellFormed = true ∧ s.Reaches i ∧ ∃ t, exec i s = .next t ∧ Effect i s t) := by
  by_cases hw : i.wellFormed = true
  swap
  · exact .inl ⟨by simpa using hw, fails_badarg (by simpa using hw)⟩
  by_cases hr : s.Reaches i
  swap
  · exact .inr (.inl ⟨hw, hr, fails_range hw hr⟩)
  refine .inr (.inr ⟨hw, hr, ?_⟩)
  cases i with
  | copy dst src n =>
    have hx := exec_runs (i := .copy dst src n) (s := s) rfl hw hr
    split at hx
    · exact ⟨_, hx, .of_unspecified (by simp [writtenRanges, rangeOf]) ⟨rfl, rfl⟩⟩
    · exact ⟨_, hx, .of_done (r := rangeOf dst n) (by simp [writtenRanges]) (by simp [rangeOf]) ⟨rfl, rfl⟩⟩
  | fill dst v n =>
    exact ⟨_, exec_runs (i := .fill dst v n) (s := s) rfl hw hr,
      .of_done (r := rangeOf dst n) (by simp [writtenRanges]) (by simp [rangeOf]) ⟨rfl, rfl⟩⟩
  | rev buf n =>
    exact ⟨_, exec_runs (i := .rev buf n) (s := s) rfl hw hr,
      .of_done (r := rangeOf buf n) (by simp [writtenRanges]) (by simp [rangeOf]) ⟨rfl, rfl⟩⟩
  | cmp a b n =>
    exact ⟨_, exec_runs (i := .cmp a b n) (s := s) rfl hw hr, .of_ok (d := s.digest) ⟨rfl, rfl⟩⟩
  | alleq a v n =>
    exact ⟨_, exec_runs (i := .alleq a v n) (s := s) rfl hw hr, .of_ok (d := s.digest) ⟨rfl, rfl⟩⟩
  | addc out a b n =>
    have hx := exec_runs (i := .addc out a b n) (s := s) rfl hw hr
    split at hx
    · exact ⟨_, hx, .of_unspecified (by simp [writtenRanges, rangeOf]) ⟨rfl, rfl⟩⟩
    · exact ⟨_, hx, .of_done (r := rangeOf out n) (by simp [writtenRanges]) (by simp [rangeOf]) ⟨rfl, rfl⟩⟩
  | subb out a b n =>
    have hx := exec_runs (i := .subb out a b n) (s := s) rfl hw hr
    split at hx
    · exact ⟨_, hx, .of_unspecified (by simp [writtenRanges, rangeOf]) ⟨rfl, rfl⟩⟩
    · exact ⟨_, hx, .of_done (r := rangeOf out n) (by simp [writtenRanges]) (by simp [rangeOf]) ⟨rfl, rfl⟩⟩
  | shaReset =>
    exact ⟨_, exec_runs (i := .shaReset) (s := s) rfl hw hr, .of_ok ⟨rfl, rfl⟩⟩
  | shaInput data length =>
    exact ⟨_, exec_runs (i := .shaInput data length) (s := s) rfl hw hr, .of_fail ⟨rfl, rfl⟩⟩
  | shaResult out =>
    exact ⟨_, exec_runs (i := .shaResult out) (s := s) rfl hw hr, shaResult_effect rfl⟩
  | mac w a v n =>
    have hx := exec_runs (i := .mac w a v n) (s := s) rfl hw hr
    split at hx
    · exact ⟨_, hx, .of_unspecified (by simp [writtenRanges, rangeOf]) ⟨rfl, rfl⟩⟩
    · exact ⟨_, hx, .of_done (r := rangeOf w n) (by simp [writtenRanges]) (by simp [rangeOf, macPass])
        ⟨rfl, rfl⟩⟩
  | mul out a b n =>
    have hx := exec_runs (i := .mul out a b n) (s := s) rfl hw hr
    split at hx
    · exact ⟨_, hx, .of_fail (d := s.digest) ⟨rfl, .inr rfl⟩⟩
    · exact ⟨_, hx, .of_done (r := ⟨out.toNat, 2 * n.toNat⟩) (by simp [writtenRanges])
        (by rw [(mulBytes_spec _ _).2]; simp; omega) ⟨rfl, .inl rfl⟩⟩
  | div out a b n =>
    have hx := exec_runs (i := .div out a b n) (s := s) rfl hw hr
    simp only at hx
    split at hx
    · exact ⟨_, hx, .of_fail (d := s.digest) ⟨rfl, .inr rfl⟩⟩
    · exact ⟨_, hx, .of_done (r := ⟨out.toNat, 2 * n.toNat⟩) (by simp [writtenRanges])
        (by simp; omega) ⟨rfl, .inl rfl⟩⟩
  | modred out a b n k =>
    have hx := exec_runs (i := .modred out a b n k) (s := s) rfl hw hr
    simp only at hx
    split at hx
    · exact ⟨_, hx, .of_fail (d := s.digest) ⟨rfl, .inr rfl⟩⟩
    · exact ⟨_, hx, .of_done (r := rangeOf out n) (by simp [writtenRanges]) (by simp [rangeOf])
        ⟨rfl, .inl rfl⟩⟩
  | modmul out a b m n =>
    have hx := exec_runs (i := .modmul out a b m n) (s := s) rfl hw hr
    simp only at hx
    split at hx
    · exact ⟨_, hx, .of_fail (d := s.digest) ⟨rfl, .inr rfl⟩⟩
    · exact ⟨_, hx, .of_done (r := rangeOf out n) (by simp [writtenRanges]) (by simp [rangeOf])
        ⟨rfl, .inl rfl⟩⟩
  | modexp out a b m n k =>
    have hx := exec_runs (i := .modexp out a b m n k) (s := s) rfl hw hr
    simp only at hx
    split at hx
    · exact ⟨_, hx, .of_fail (d := s.digest) ⟨rfl, .inr rfl⟩⟩
    · exact ⟨_, hx, .of_done (r := rangeOf out n) (by simp [writtenRanges]) (by simp [rangeOf])
        ⟨rfl, .inl rfl⟩⟩
  | modinv out a m n =>
    have hx := exec_runs (i := .modinv out a m n) (s := s) rfl hw hr
    rcases modInverse_spec (intLe (s.readBytes a.toNat n.toNat)) (intLe (s.readBytes m.toNat n.toNat)) with
      ⟨_, e⟩ | ⟨_, _, e⟩ | ⟨_, _, _, e⟩ | ⟨_, _, _, e⟩ | ⟨_, _, _, _, e, _⟩ <;> rw [e] at hx
    · exact ⟨_, hx, .of_fail (d := s.digest) ⟨rfl, .inr (.inl rfl)⟩⟩
    · exact ⟨_, hx, .of_fail (d := s.digest) ⟨rfl, .inr (.inl rfl)⟩⟩
    · exact ⟨_, hx, .of_fail (d := s.digest) ⟨rfl, .inr (.inr (.inl rfl))⟩⟩
    · exact ⟨_, hx, .of_fail (d := s.digest) ⟨rfl, .inr (.inr (.inr rfl))⟩⟩
    · exact ⟨_, hx, .of_done (r := rangeOf out n) (by simp [writtenRanges]) (by simp [rangeOf])
        ⟨rfl, .inl rfl⟩⟩
  | dsavfy m k r g =>
    have hx := exec_runs (i := .dsavfy m k r g) (s := s) rfl hw hr
    exact ⟨_, hx, verify_effect (by have := k.isLt; simp; omega) fun t h1 h2 => ⟨h1, h2⟩⟩
  | ksvvfy b k =>
    have hx := exec_runs (i := .ksvvfy b k) (s := s) rfl hw hr
    simp only at hx
    split at hx
    · exact ⟨_, hx, .of_fail (d := s.digest) (.inl ⟨rfl, rfl⟩)⟩
    · rename_i hk
      simp only [Config.ksvHeaderSize, Config.digestSize] at hk
      rcases s.digest.run_cases (s.readBytes b.toNat (k.toNat - Config.digestSize))
        (by have := k.isLt; simp; omega) with ⟨h, _⟩ | ⟨_, h1, _, hf, hh⟩
      · rw [← List.length_eq_zero_iff, State.readBytes_length, Config.digestSize] at h
        omega
      · rw [if_pos h1] at hx
        exact ⟨_, hx, .of_ok (.inr ⟨rfl, hf, _, hh⟩)⟩
  | srmvfy b k =>
    have hx := exec_runs (i := .srmvfy b k) (s := s) rfl hw hr
    simp only at hx
    split at hx
    · exact ⟨_, hx, .of_fail (d := s.digest) (.inl ⟨rfl, .inl rfl⟩)⟩
    · exact ⟨_, hx, verify_effect (by have := k.isLt; simp; omega) fun t h1 _ => h1⟩

/-- `exec` answers one next state. -/
theorem exec_det {i : Instr} {s t u : State} (h1 : exec i s = .next t) (h2 : exec i s = .next u) : t = u :=
  Host.Outcome.next.inj (h1.symm.trans h2)

/-- `exec_cases` from a known next state. -/
theorem exec_inv {i : Instr} {s t : State} (h : exec i s = .next t) :
    (i.wellFormed = false ∧ t = s.fail .badarg)
    ∨ (i.wellFormed = true ∧ ¬s.Reaches i ∧ t = s.fail .range)
    ∨ (i.wellFormed = true ∧ s.Reaches i ∧ Effect i s t) := by
  rcases exec_cases i s with ⟨a, b⟩ | ⟨a, b, c⟩ | ⟨a, b, u, c, d⟩
  · exact .inl ⟨a, exec_det h b⟩
  · exact .inr (.inl ⟨a, b, exec_det h c⟩)
  · exact .inr (.inr ⟨a, b, by rw [exec_det h c]; exact d⟩)

end Sys2Proof.Machine
end

