-- ==== Sys2Proof/Laws/PerInstr.lean ====
section
/-! SUPPORT. One lemma per command: its word is a legal one (`Z` zero, an opcode that is not 0), and its
operands fit the six argument registers (spec/30_encoding.md R90, R93, R98). -/
namespace Sys2Proof.Laws.OpcodeWord
open Sys2Proof.Machine

/-- The command word has `Z = 0` and a nonzero opcode, and there are at most six operands. -/
def Statement (i : Instr) : Prop :=
  zField (encodeWord i) = 0 ∧ opField (encodeWord i) ≠ 0 ∧ (encodeOperands i).length ≤ 6

theorem copy (dst : Word) (src : Word) (n : Word) : Statement (.copy dst src n) :=
  ⟨encodeWord_zField _, by simp [encodeWord, opField], by simp [encodeOperands]⟩

theorem fill (dst : Word) (value : Byte) (n : Word) : Statement (.fill dst value n) :=
  ⟨encodeWord_zField _, by simp [encodeWord, opField], by simp [encodeOperands]⟩

theorem rev (buf : Word) (n : Word) : Statement (.rev buf n) :=
  ⟨encodeWord_zField _, by simp [encodeWord, opField], by simp [encodeOperands]⟩

theorem cmp (a : Word) (b : Word) (n : Word) : Statement (.cmp a b n) :=
  ⟨encodeWord_zField _, by simp [encodeWord, opField], by simp [encodeOperands]⟩

theorem alleq (a : Word) (value : Byte) (n : Word) : Statement (.alleq a value n) :=
  ⟨encodeWord_zField _, by simp [encodeWord, opField], by simp [encodeOperands]⟩

theorem addc (out : Word) (a : Word) (b : Word) (n : Word) : Statement (.addc out a b n) :=
  ⟨encodeWord_zField _, by simp [encodeWord, opField], by simp [encodeOperands]⟩

theorem subb (out : Word) (a : Word) (b : Word) (n : Word) : Statement (.subb out a b n) :=
  ⟨encodeWord_zField _, by simp [encodeWord, opField], by simp [encodeOperands]⟩

theorem shaReset : Statement (.shaReset) :=
  ⟨encodeWord_zField _, by simp [encodeWord, opField], by simp [encodeOperands]⟩

theorem shaInput (data : Word) (length : Word) : Statement (.shaInput data length) :=
  ⟨encodeWord_zField _, by simp [encodeWord, opField], by simp [encodeOperands]⟩

theorem shaResult (out : Word) : Statement (.shaResult out) :=
  ⟨encodeWord_zField _, by simp [encodeWord, opField], by simp [encodeOperands]⟩

theorem mac (window : Word) (a : Word) (scalar : Byte) (n : Word) : Statement (.mac window a scalar n) :=
  ⟨encodeWord_zField _, by simp [encodeWord, opField], by simp [encodeOperands]⟩

theorem mul (out : Word) (a : Word) (b : Word) (n : Word) : Statement (.mul out a b n) :=
  ⟨encodeWord_zField _, by simp [encodeWord, opField], by simp [encodeOperands]⟩

theorem div (out : Word) (dividend : Word) (divisor : Word) (n : Word) : Statement (.div out dividend divisor n) :=
  ⟨encodeWord_zField _, by simp [encodeWord, opField], by simp [encodeOperands]⟩

theorem modred (out : Word) (value : Word) (modulus : Word) (n : Word) (vlen : Word) : Statement (.modred out value modulus n vlen) :=
  ⟨encodeWord_zField _, by simp [encodeWord, opField], by simp [encodeOperands]⟩

theorem modmul (out : Word) (a : Word) (b : Word) (modulus : Word) (n : Word) : Statement (.modmul out a b modulus n) :=
  ⟨encodeWord_zField _, by simp [encodeWord, opField], by simp [encodeOperands]⟩

theorem modexp (out : Word) (base : Word) (exponent : Word) (modulus : Word) (n : Word) (exponentN : Word) : Statement (.modexp out base exponent modulus n exponentN) :=
  ⟨encodeWord_zField _, by simp [encodeWord, opField], by simp [encodeOperands]⟩

theorem modinv (out : Word) (value : Word) (modulus : Word) (n : Word) : Statement (.modinv out value modulus n) :=
  ⟨encodeWord_zField _, by simp [encodeWord, opField], by simp [encodeOperands]⟩

theorem dsavfy (message : Word) (mlen : Word) (r : Word) (sig : Word) : Statement (.dsavfy message mlen r sig) :=
  ⟨encodeWord_zField _, by simp [encodeWord, opField], by simp [encodeOperands]⟩

theorem ksvvfy (blob : Word) (blen : Word) : Statement (.ksvvfy blob blen) :=
  ⟨encodeWord_zField _, by simp [encodeWord, opField], by simp [encodeOperands]⟩

theorem srmvfy (blob : Word) (blen : Word) : Statement (.srmvfy blob blen) :=
  ⟨encodeWord_zField _, by simp [encodeWord, opField], by simp [encodeOperands]⟩

end Sys2Proof.Laws.OpcodeWord
end

