-- ==== Sys2Proof/Laws/Runs.lean ====
section
/-! SUPPORT. The digest commands and DSAVFY when their ranges lie inside `OM`: each is its own rule. -/
namespace Sys2Proof.Machine

theorem exec_shaReset (s : State) : exec .shaReset s = .next ((s.withDigest s.digest.restart).done .ok 0) :=
  exec_runs (i := .shaReset) (s := s) rfl rfl (by simp [State.Reaches, readRanges, writtenRanges])

theorem exec_shaInput {data length : Word} {s : State} (h : s.Inside data length.toNat) :
    exec (.shaInput data length) s
      = .next ((s.withDigest (s.digest.input (s.readBytes data.toNat length.toNat)).2).done
          (s.digest.input (s.readBytes data.toNat length.toNat)).1 0) :=
  exec_runs (i := .shaInput data length) (s := s) rfl rfl
    (by simpa [State.Reaches, readRanges, writtenRanges, rangeOf] using h)

theorem exec_shaResult {out : Word} {s : State} (h : s.Inside out 20) :
    exec (.shaResult out) s = .next (if s.digest.result.1 = .ok
      then ((s.withDigest s.digest.result.2).writeBytes out.toNat s.digest.result.2.hash.bytes).done .ok 1
      else (s.withDigest s.digest.result.2).fail s.digest.result.1) :=
  exec_runs (i := .shaResult out) (s := s) rfl rfl
    (by simpa [State.Reaches, readRanges, writtenRanges, rangeOf, Config.digestSize] using h)

/-- SHA_RESULT on a message in progress (41_sha1.md R147, R148). -/
theorem exec_shaResult_open {out : Word} {s : State} (h : s.Inside out 20) (hc : s.digest.cor = false)
    (hf : s.digest.fin = false) :
    exec (.shaResult out) s = .next
      (((s.withDigest { s.digest.pad with fin := true }).writeBytes out.toNat s.digest.pad.hash.bytes).done
        .ok 1) := by
  rw [exec_shaResult h, Digest.result_pads hc hf, if_pos rfl, Digest.finalized_hash]

theorem exec_dsavfy {m k r g : Word} {s : State} (h1 : s.Inside m k.toNat) (h2 : s.Inside r 20)
    (h3 : s.Inside g 20) : ∃ v, v = dsaVerify s.params s.digest (s.readBytes m.toNat k.toNat)
        (s.readBytes r.toNat 20) (s.readBytes g.toNat 20)
      ∧ exec (.dsavfy m k r g) s = .next ((s.withDigest v.2.2).done v.1 v.2.1) := by
  have hx := exec_runs (i := .dsavfy m k r g) (s := s) rfl rfl
    (by simpa [State.Reaches, readRanges, writtenRanges, rangeOf, Config.sigSize] using ⟨h1, h2, h3⟩)
  simp only [Config.sigSize] at hx
  exact ⟨_, rfl, hx⟩

end Sys2Proof.Machine
end

