-- ==== Sys2Proof/Laws/Step.lean ====
section
/-! SUPPORT. Everything one step of the machine can do, by the host's next access (spec/10_state.md R21 to
R29, 20_memory.md R73), so that an invariant of the step is one case split. -/
namespace Sys2Proof.Machine

/-- What a step that answers a next state has done: nothing, a register read, a command, an illegal word, a
byte through the data port, a write of `OM_ADDR` or of an argument register (or of a register that ignores
it), a hardware reset. -/
theorem step_cases {s t : State} (h : step s = .next t) :
    (s.host = [] ∧ t = s)
    ∨ ∃ x rest, s.host = x :: rest ∧
      ((∃ a v, t = { s with host := rest, readData := v, omAddr := a })
      ∨ (∃ w i, x = .write 4 0x00 w ∧ decode w s.arg = .ok i
          ∧ exec i { s with host := rest, cmd := w } = .next t)
      ∨ (∃ w, x = .write 4 0x00 w ∧ t = { s with host := rest, cmd := w, code := .illegal, retval := 0 })
      ∨ (∃ a b, s.omAddr.toNat < s.params.omSize
          ∧ t = { s with host := rest, omAddr := a, om := s.om.put s.omAddr.toNat b })
      ∨ (∃ a g, t = { s with host := rest, omAddr := a, arg := g })
      ∨ (x = .hardReset ∧ t = { s with host := rest }.hardReset)) := by
  simp only [step, hostStep] at h
  split at h
  · rename_i hh
    cases h
    exact .inl ⟨hh, rfl⟩
  · rename_i x rest hh
    refine .inr ⟨x, rest, hh, ?_⟩
    cases x with
    | read b o =>
      left
      simp only [performAccess] at h
      split at h
      · cases h
        unfold hostRead
        split <;> exact ⟨_, _, rfl⟩
      · cases h
    | write b o d =>
      simp only [performAccess] at h
      split at h
      swap
      · cases h
      rename_i hd
      obtain rfl : b = 4 := by simp only [accessDefined, Bool.and_eq_true, beq_iff_eq] at hd; exact hd.1.1
      unfold hostWrite at h
      split at h
      · unfold issueCommand at h
        split at h
        · rename_i i hi
          exact .inr (.inl ⟨d, i, rfl, hi, h⟩)
        · cases h; exact .inr (.inr (.inl ⟨d, rfl, rfl⟩))
      · cases h; exact .inr (.inr (.inr (.inr (.inl ⟨_, _, rfl⟩))))
      · unfold writeDataPort at h
        cases h
        split
        · rename_i hlt
          exact .inr (.inr (.inr (.inl ⟨_, _, hlt, rfl⟩)))
        · exact .inr (.inr (.inr (.inr (.inl ⟨_, _, rfl⟩))))
      all_goals (cases h; exact .inr (.inr (.inr (.inr (.inl ⟨_, _, rfl⟩)))))
    | hardReset =>
      cases h
      exact .inr (.inr (.inr (.inr (.inr ⟨rfl, rfl⟩))))

end Sys2Proof.Machine
end

