-- ==== Sys2Proof/Tests/Slice0.lean ====
section
/-! SUPPORT. The model's own tests, each expected value from spec/95_test_vectors.md (the vector is named) or from
the encoding rules, and for every statement with hypotheses a witness: states and operands that meet them, for each
clause, at the boundary values of its ranges. -/
namespace Sys2Proof.Tests
open Sys2Proof Sys2Proof.Machine

/-! ### States to start from -/

/-- The toy key of program P4, `SRM_MIN_HEADER = 8`, the smallest legal `OM_SIZE`. -/
def toyKey : Config.Params := ⟨1024, 23, 11, 2, 13, 8⟩

/-- The test key of spec/95_test_vectors.md 6.1, `SRM_MIN_HEADER = 8` as in its section 7.2. -/
def testKey : Config.Params where
  omSize := 1024
  p := 0xB40095A267CB0EC4978F5E0E18B0D2E9751040E304C3EE5AAF7CF2EC6140371D5A826DAD3BE48315FFA81054A4AD8E41CD560BAAD638EAEAF71F9B975FAA0D2EBE58A69966B8538ECF0FDD0D6DCA844A2F230024F8F58AD384192906B550EEF3B4B5413EE35F186E2854EA54EB972011F03C3AD0E6A452DA34C6ABFBE20CC7AB
  q := 0xFF6E634459D7259560BA7E6B8786FEC912C5A30F
  g := 0x499955D85D5A1179F75A2844D05D60183F499219787555DA69FA609911888573E574632425F20234579A0925C8EF7EFE91BB6B07046948F0F3BF2938CE74C20D2347D5DE51C5D88DDE2C530B7293F456419B1D141CDE4BA1C5125B022DD2ACD10C23A976904AAB852684C0B8718F94E00E4F4799729BCFA7572EB028F0709480
  y := 0x796B33AC6459E35F89FCFE06A391E52C2C517F3D5EB85B2CA0F9A4590493420B8B25FF4C8FD5A118D1AA4DBCF043B1EBE847D833166792B280CCACADB19AFFB6012CB2BE277262A6A341641FC21C5543FBD304DA68941C5D0ADD8E6A0D67A46989B652D6D36CACB18419D9F9C44BD7DA237CDC234744123D33A56737B396695B
  srmMinHeader := 8

/-- The reset state under the toy key. -/
def plain : State := { State.reset with params := toyKey }

/-- `plain` with its digest state changed to hold the given counter, index and flags. -/
def digesting (len : BitVec 64) (idx : Fin 64) (fin cor : Bool) : State :=
  { plain with digest := { Digest.atReset with len := len, idx := idx, fin := fin, cor := cor } }

/-- The state after a command (the state itself where it does not end in a next state). -/
def after (i : Instr) (s : State) : State := match exec i s with | .next t => t | _ => s

/-- Code, return value and the bytes `[a, a+n)` after a command. -/
def outcome (i : Instr) (s : State) (a n : Nat) : Option (ResultCode × Nat × List Byte) :=
  match exec i s with
  | .next t => some (t.code, t.retval.toNat, t.readBytes a n)
  | _ => none

/-- Code, return value and `STATUS` after the host's next access. -/
def stepOutcome (s : State) : Option (ResultCode × Nat × Nat) :=
  match step s with
  | .next t => some (t.code, t.retval.toNat, t.status.toNat)
  | _ => none

/-! ### Well-formedness: every check of R96 refuses an ill-formed command -/

theorem test_wf_copy : (Instr.copy 0 0 0).wellFormed = false := by decide
theorem test_wf_fill : (Instr.fill 0 0 0).wellFormed = false := by decide
theorem test_wf_rev : (Instr.rev 0 0).wellFormed = false := by decide
theorem test_wf_cmp : (Instr.cmp 0 0 0).wellFormed = false := by decide
theorem test_wf_alleq : (Instr.alleq 0 0 0).wellFormed = false := by decide
theorem test_wf_addc : (Instr.addc 0 0 0 0).wellFormed = false := by decide
theorem test_wf_subb : (Instr.subb 0 0 0 0).wellFormed = false := by decide
theorem test_wf_mac : (Instr.mac 0 0 0 0).wellFormed = false := by decide
theorem test_wf_mul : (Instr.mul 0 0 0 0).wellFormed = false := by decide
theorem test_wf_div : (Instr.div 0 0 0 0).wellFormed = false := by decide
theorem test_wf_modred_n0 : (Instr.modred 0 0 0 0 4).wellFormed = false := by decide
theorem test_wf_modred_n129 : (Instr.modred 0 0 0 129 4).wellFormed = false := by decide
theorem test_wf_modred_vlen0 : (Instr.modred 0 0 0 2 0).wellFormed = false := by decide
theorem test_wf_modred_vlen257 : (Instr.modred 0 0 0 2 257).wellFormed = false := by decide
theorem test_wf_modmul_n0 : (Instr.modmul 0 0 0 0 0).wellFormed = false := by decide
theorem test_wf_modmul_n129 : (Instr.modmul 0 0 0 0 129).wellFormed = false := by decide
theorem test_wf_modexp_n0 : (Instr.modexp 0 0 0 0 0 1).wellFormed = false := by decide
theorem test_wf_modexp_n129 : (Instr.modexp 0 0 0 0 129 1).wellFormed = false := by decide
theorem test_wf_modexp_k0 : (Instr.modexp 0 0 0 0 2 0).wellFormed = false := by decide
theorem test_wf_modexp_k129 : (Instr.modexp 0 0 0 0 2 129).wellFormed = false := by decide
theorem test_wf_modinv_n0 : (Instr.modinv 0 0 0 0).wellFormed = false := by decide
theorem test_wf_modinv_n129 : (Instr.modinv 0 0 0 129).wellFormed = false := by decide

/-- The largest legal lengths are accepted, and the lengths R96 leaves free. -/
theorem test_wf_accepts :
    (Instr.modred 0 0 0 128 256).wellFormed = true ∧ (Instr.modexp 0 0 0 0 128 128).wellFormed = true
    ∧ (Instr.copy 0 0 0xFFFFFFFF).wellFormed = true ∧ (Instr.shaInput 0 0).wellFormed = true
    ∧ (Instr.dsavfy 0 0 0 0).wellFormed = true ∧ (Instr.ksvvfy 0 0).wellFormed = true := by decide

/-! ### Decoding: the word of every row of R100, written out, with operands in the order of R93 -/

/-- Six distinct argument registers, the low bytes 1 to 6. -/
def someArgs : Args := #v[0xA01, 0xA02, 0xA03, 0xA04, 0xA05, 0xA06]

theorem test_decode_copy : decode 0x00000001 someArgs = .ok (.copy 0xA01 0xA02 0xA03) := by rfl
theorem test_decode_fill : decode 0x00000002 someArgs = .ok (.fill 0xA01 0x02 0xA03) := by rfl
theorem test_decode_rev : decode 0x00000003 someArgs = .ok (.rev 0xA01 0xA02) := by rfl
theorem test_decode_cmp : decode 0x00000004 someArgs = .ok (.cmp 0xA01 0xA02 0xA03) := by rfl
theorem test_decode_alleq : decode 0x00000005 someArgs = .ok (.alleq 0xA01 0x02 0xA03) := by rfl
theorem test_decode_addc : decode 0x00000006 someArgs = .ok (.addc 0xA01 0xA02 0xA03 0xA04) := by rfl
theorem test_decode_subb : decode 0x00000007 someArgs = .ok (.subb 0xA01 0xA02 0xA03 0xA04) := by rfl
theorem test_decode_shaReset : decode 0x00000010 someArgs = .ok (.shaReset) := by rfl
theorem test_decode_shaInput : decode 0x00000011 someArgs = .ok (.shaInput 0xA01 0xA02) := by rfl
theorem test_decode_shaResult : decode 0x00000012 someArgs = .ok (.shaResult 0xA01) := by rfl
theorem test_decode_mac : decode 0x00000020 someArgs = .ok (.mac 0xA01 0xA02 0x03 0xA04) := by rfl
theorem test_decode_mul : decode 0x00000021 someArgs = .ok (.mul 0xA01 0xA02 0xA03 0xA04) := by rfl
theorem test_decode_div : decode 0x00000022 someArgs = .ok (.div 0xA01 0xA02 0xA03 0xA04) := by rfl
theorem test_decode_modred : decode 0x00000030 someArgs = .ok (.modred 0xA01 0xA02 0xA03 0xA04 0xA05) := by rfl
theorem test_decode_modmul : decode 0x00000031 someArgs = .ok (.modmul 0xA01 0xA02 0xA03 0xA04 0xA05) := by rfl
theorem test_decode_modexp : decode 0x00000032 someArgs = .ok (.modexp 0xA01 0xA02 0xA03 0xA04 0xA05 0xA06) := by rfl
theorem test_decode_modinv : decode 0x00000033 someArgs = .ok (.modinv 0xA01 0xA02 0xA03 0xA04) := by rfl
theorem test_decode_dsavfy : decode 0x00000040 someArgs = .ok (.dsavfy 0xA01 0xA02 0xA03 0xA04) := by rfl
theorem test_decode_ksvvfy : decode 0x00000041 someArgs = .ok (.ksvvfy 0xA01 0xA02) := by rfl
theorem test_decode_srmvfy : decode 0x00000042 someArgs = .ok (.srmvfy 0xA01 0xA02) := by rfl

/-- The illegal words of vector F8. -/
theorem test_decode_illegal :
    decode 0x00000000 someArgs = .error .unknownOpcode ∧ decode 0x00000008 someArgs = .error .unknownOpcode
    ∧ decode 0x00000013 someArgs = .error .unknownOpcode ∧ decode 0x00000043 someArgs = .error .unknownOpcode
    ∧ decode 0x000000FF someArgs = .error .unknownOpcode ∧ decode 0x00000101 someArgs = .error .reservedBits
    ∧ decode 0x80000001 someArgs = .error .reservedBits := ⟨rfl, rfl, rfl, rfl, rfl, rfl, rfl⟩

/-- The bits of a command, the word for `CMD` lowest. -/
theorem test_decodeTableWord :
    decodeTableWord 32 0x10 = some .shaReset
    ∧ decodeTableWord 128 0x00000003_00000000_00000010_00000001 = some (.copy 0x10 0 3) := ⟨rfl, rfl⟩

/-! ### Commands -/

/-- B1. -/
theorem test_copy :
    outcome (.copy 0x10 0 3) (plain.writeBytes 0 [0x11, 0x22, 0x33]) 0x10 3
      = some (.ok, 0, [0x11, 0x22, 0x33]) := by decide

/-- B2: identical ranges. -/
theorem test_copy_in_place :
    outcome (.copy 0 0 3) (plain.writeBytes 0 [0x11, 0x22, 0x33]) 0 3
      = some (.ok, 0, [0x11, 0x22, 0x33]) := by decide

/-- B3. -/
theorem test_fill :
    outcome (.fill 0x20 0xAB 4) plain 0x20 4
      = some (.ok, 0, [0xAB, 0xAB, 0xAB, 0xAB]) := by decide

/-- B4. -/
theorem test_fill_again :
    outcome (.fill 0x20 0xFF 2) (plain.writeBytes 0x20 [0xAB, 0xAB, 0xAB, 0xAB]) 0x20 4
      = some (.ok, 0, [0xFF, 0xFF, 0xAB, 0xAB]) := by decide

/-- B5. -/
theorem test_rev :
    outcome (.rev 0 4) (plain.writeBytes 0 [0x01, 0x02, 0x03, 0x04]) 0 4
      = some (.ok, 0, [0x04, 0x03, 0x02, 0x01]) := by decide

/-- B6. -/
theorem test_rev_odd :
    outcome (.rev 0 5) (plain.writeBytes 0 [0x01, 0x02, 0x03, 0x04, 0x05]) 0 5
      = some (.ok, 0, [0x05, 0x04, 0x03, 0x02, 0x01]) := by decide

/-- B8. -/
theorem test_cmp_greater :
    outcome (.cmp 0 0x10 2) ((plain.writeBytes 0 [0x00, 0x01]).writeBytes 0x10 [0xFF, 0x00]) 0 2
      = some (.ok, 1, [0x00, 0x01]) := by decide

/-- B9. -/
theorem test_cmp_less :
    outcome (.cmp 0x10 0 2) ((plain.writeBytes 0 [0x00, 0x01]).writeBytes 0x10 [0xFF, 0x00]) 0 2
      = some (.ok, 2, [0x00, 0x01]) := by decide

/-- B13. -/
theorem test_alleq_no :
    outcome (.alleq 0 0 3) (plain.writeBytes 0 [0x00, 0x00, 0x01]) 0 3
      = some (.ok, 0, [0x00, 0x00, 0x01]) := by decide

/-- B14. -/
theorem test_alleq_yes :
    outcome (.alleq 0 0 2) (plain.writeBytes 0 [0x00, 0x00, 0x01]) 0 3
      = some (.ok, 1, [0x00, 0x00, 0x01]) := by decide

/-- B16. -/
theorem test_addc_carry :
    outcome (.addc 0x20 0 0x10 2) ((plain.writeBytes 0 [0xFF, 0xFF]).writeBytes 0x10 [0x01, 0x00]) 0x20 2
      = some (.ok, 1, [0x00, 0x00]) := by decide

/-- B18. -/
theorem test_addc_in_place :
    outcome (.addc 0 0 0x10 2) ((plain.writeBytes 0 [0x34, 0x12]).writeBytes 0x10 [0xCD, 0xAB]) 0 2
      = some (.ok, 0, [0x01, 0xBE]) := by decide

/-- B20. -/
theorem test_subb :
    outcome (.subb 0x20 0 0x10 2) ((plain.writeBytes 0 [0x00, 0x01]).writeBytes 0x10 [0x01, 0x00]) 0x20 2
      = some (.ok, 0, [0xFF, 0x00]) := by decide

/-- B21. -/
theorem test_subb_borrow :
    outcome (.subb 0x20 0x10 0 2) ((plain.writeBytes 0 [0x00, 0x01]).writeBytes 0x10 [0x01, 0x00]) 0x20 2
      = some (.ok, 1, [0x01, 0xFF]) := by decide

/-- S18: SHA_RESET leaves Corrupted for Idle, `STATUS` zero. -/
theorem test_shaReset : (after .shaReset (digesting 8 1 true true)).status = 0
    ∧ (after .shaReset (digesting 8 1 true true)).digest.Idle := by decide

/-- The state after SHA_INPUT of S2. -/
def abc : State := after (.shaInput 0x100 3) (plain.writeBytes 0x100 [0x61, 0x62, 0x63])

/-- S2: index, counter, flags and buffer before the padding. -/
theorem test_shaInput : abc.digest.idx = 3 ∧ abc.digest.len = 0x18 ∧ abc.status = 0
    ∧ abc.digest.blk.toList.take 3 = [0x61, 0x62, 0x63] := by decide

/-- S25: the overflowing byte corrupts the state and is not stored. -/
theorem test_shaInput_overflow :
    (let t := after (.shaInput 0x100 1) ((digesting 0xFFFFFFFFFFFFFFF8 63 false false).writeBytes 0x100 [0x7A])
     (t.status, t.digest.len, t.digest.idx, t.digest.blk[63])) = (0x206, 0, 63, 0) := by decide

/-- S2. -/
theorem test_shaResult : outcome (.shaResult 0x60) abc 0x60 20
    = some (.ok, 1, [0xA9, 0x99, 0x3E, 0x36, 0x47, 0x06, 0x81, 0x6A, 0xBA, 0x3E, 0x25, 0x71, 0x78, 0x50, 0xC2, 0x6C,
        0x9C, 0xD0, 0xD8, 0x9D]) := by decide +kernel

/-- S5: 56 bytes, the smallest message that needs a second block for its padding. -/
theorem test_sha1_56 : sha1 (List.replicate 56 0x61)
    = [0xC2, 0xDB, 0x33, 0x0F, 0x60, 0x83, 0x85, 0x4C, 0x99, 0xD4, 0xB5, 0xBF, 0xB6, 0xE8, 0xF2, 0x9F, 0x20, 0x1B,
        0xE6, 0x99] := by decide +kernel

/-- A1. -/
theorem test_mac :
    outcome (.mac 0x10 0 0xFF 2) ((plain.writeBytes 0 [0xFF, 0xFF]).writeBytes 0x10 [0xFF, 0xFF, 0x77]) 0x10 3
      = some (.ok, 255, [0x00, 0xFF, 0x77]) := by decide

/-- A3. -/
theorem test_mac_in_place :
    outcome (.mac 0 0 3 2) (plain.writeBytes 0 [0x10, 0x20]) 0 2
      = some (.ok, 0, [0x40, 0x80]) := by decide

/-- A5. -/
theorem test_mul :
    outcome (.mul 0x20 0 0 2) (plain.writeBytes 0 [0xFF, 0xFF]) 0x20 4
      = some (.ok, 0, [0x01, 0x00, 0xFE, 0xFF]) := by decide

/-- A10: one byte shared. -/
theorem test_mul_alias :
    outcome (.mul 0xD 0 0x10 2) ((plain.writeBytes 0 [0x03, 0x00]).writeBytes 0x10 [0xF0, 0xDE]) 0x10 2
      = some (.aliased, 0, [0xF0, 0xDE]) := by decide

/-- A12. -/
theorem test_div :
    outcome (.div 0x20 0 0x10 2) ((plain.writeBytes 0 [0xFF, 0xFF]).writeBytes 0x10 [0x80, 0x01]) 0x20 4
      = some (.ok, 0, [0xFF, 0x00, 0xAA, 0x00]) := by decide

/-- A17. -/
theorem test_div_zero :
    outcome (.div 0x20 0 0x10 2) (((plain.writeBytes 0 [0xFF, 0xFF]).writeBytes 0x10 [0x00, 0x00]).writeBytes 0x20 [0xEE, 0xEE, 0xEE, 0xEE]) 0x20 4
      = some (.zero, 0, [0xEE, 0xEE, 0xEE, 0xEE]) := by decide

/-- MR1. -/
theorem test_modred :
    outcome (.modred 0x20 0 0x10 1 3) ((plain.writeBytes 0 [0xFF, 0xFF, 0x01]).writeBytes 0x10 [0xFF]) 0x20 1
      = some (.ok, 0, [0x01]) := by decide

/-- MR6. -/
theorem test_modred_out_is_value :
    outcome (.modred 0 0 0x10 2 4) ((plain.writeBytes 0 [0x60, 0x00, 0x26, 0x06]).writeBytes 0x10 [0xF1, 0xFF]) 0 4
      = some (.ok, 0, [0x9A, 0x5C, 0x26, 0x06]) := by decide

/-- MM1. -/
theorem test_modmul :
    outcome (.modmul 0x30 0 0x10 0x20 2) (((plain.writeBytes 0 [0x34, 0x12]).writeBytes 0x10 [0x78, 0x56]).writeBytes 0x20 [0xF1, 0xFF]) 0x30 2
      = some (.ok, 0, [0x9A, 0x5C]) := by decide

/-- MM2. -/
theorem test_modmul_square :
    outcome (.modmul 0x30 0 0 0x20 2) ((plain.writeBytes 0 [0xFF, 0xFF]).writeBytes 0x20 [0xF1, 0xFF]) 0x30 2
      = some (.ok, 0, [0xC4, 0x00]) := by decide

/-- ME1. -/
theorem test_modexp :
    outcome (.modexp 0x30 0 0x10 0x20 1 1) (((plain.writeBytes 0 [0x03]).writeBytes 0x10 [0x0D]).writeBytes 0x20 [0xFB]) 0x30 1
      = some (.ok, 0, [0xDE]) := by decide

/-- ME8. -/
theorem test_modexp_three_bytes :
    outcome (.modexp 0x30 0 0x10 0x20 2 3) (((plain.writeBytes 0 [0x02, 0x00]).writeBytes 0x10 [0x00, 0x01, 0x00]).writeBytes 0x20 [0xF1, 0xFF]) 0x30 2
      = some (.ok, 0, [0xBD, 0xD1]) := by decide

/-- MI1. -/
theorem test_modinv :
    outcome (.modinv 0x20 0 0x10 1) ((plain.writeBytes 0 [0x03]).writeBytes 0x10 [0x07]) 0x20 1
      = some (.ok, 1, [0x05]) := by decide

/-- MI2. -/
theorem test_modinv_none :
    outcome (.modinv 0x20 0 0x10 1) (((plain.writeBytes 0 [0x02]).writeBytes 0x10 [0x04]).writeBytes 0x20 [0xEE]) 0x20 1
      = some (.noinv, 0, [0xEE]) := by decide

/-- V1: a valid signature under the test key; `r` and `s` stay in wire order. -/
theorem test_dsavfy :
    outcome (.dsavfy 0 3 0x100 0x120)
      (({ plain with params := testKey }).writeBytes 0 [0x61, 0x62, 0x63]
        |>.writeBytes 0x100 [0x79, 0x99, 0xE6, 0xB5, 0xC8, 0xEB, 0xC6, 0x49, 0x2F, 0xE8, 0xDB, 0x64, 0x9A, 0x47, 0x2E, 0xE5, 0xA4, 0xC7, 0x03, 0x90]
        |>.writeBytes 0x120 [0xED, 0x71, 0x55, 0x46, 0x7E, 0x2E, 0xDE, 0xF7, 0x69, 0xD3, 0xCA, 0x02, 0x8D, 0xD1, 0x2F, 0x4E, 0xA8, 0x7C, 0xBC, 0x13]) 0x100 2
      = some (.ok, 1, [0x79, 0x99]) := by decide +kernel

/-- The message, `r` and `s` of program P4's cross-check under the toy key. -/
def p4 : State := plain.writeBytes 0x10 [0x61, 0x62, 0x63]
  |>.writeBytes 0x20 (List.replicate 19 0 ++ [8]) |>.writeBytes 0x40 (List.replicate 19 0 ++ [7])

/-- P4's cross-check, and its digest state (R223). -/
theorem test_dsavfy_toy : (after (.dsavfy 0x10 3 0x20 0x40) p4).retval = 1
    ∧ (after (.dsavfy 0x10 3 0x20 0x40) p4).status = 0x100
    ∧ (after (.dsavfy 0x10 3 0x20 0x40) p4).digest.hash.h0 = 0xA9993E36 := by decide +kernel

/-- K2. -/
theorem test_ksvvfy :
    outcome (.ksvvfy 0x300 30) (plain.writeBytes 0x300 [0x02, 0x00, 0x11, 0x22, 0x33, 0x44, 0x55, 0x66, 0x77, 0x88, 0x4E, 0x66, 0x97, 0x64, 0xD6, 0xEE, 0x9F, 0x94, 0xAD, 0x1D, 0x3A, 0x77, 0x31, 0xC0, 0x3E, 0x78, 0x6C, 0xB9, 0x87, 0x29]) 0x300 2
      = some (.ok, 1, [0x02, 0x00]) := by decide +kernel

/-- K2 with its last byte changed, as in K4. -/
theorem test_ksvvfy_changed :
    outcome (.ksvvfy 0x300 30) ((plain.writeBytes 0x300 [0x02, 0x00, 0x11, 0x22, 0x33, 0x44, 0x55, 0x66, 0x77, 0x88, 0x4E, 0x66, 0x97, 0x64, 0xD6, 0xEE, 0x9F, 0x94, 0xAD, 0x1D, 0x3A, 0x77, 0x31, 0xC0, 0x3E, 0x78, 0x6C, 0xB9, 0x87, 0x29]).writeBytes 0x31D [0x28]) 0x300 2
      = some (.ok, 0, [0x02, 0x00]) := by decide +kernel

/-- M2: the smallest accepted blob. -/
theorem test_srmvfy :
    outcome (.srmvfy 0x200 48) (({ plain with params := testKey } : State).writeBytes 0x200 [0x80, 0x00, 0x00, 0x01, 0x00, 0x00, 0x00, 0x28, 0x5E, 0x5B, 0xD4, 0x30, 0x34, 0x8B, 0xE7, 0xD8, 0xC9, 0x92, 0x3D, 0x50, 0xCF, 0xF6, 0x69, 0x8F, 0x71, 0x28, 0x4B, 0xAC, 0xE2, 0x0A, 0xFD, 0xC5, 0x9E, 0xAC, 0x35, 0x94, 0xEC, 0xB6, 0xB7, 0xEB, 0x91, 0xE0, 0x03, 0xD5, 0x0F, 0xCE, 0x8B, 0xD6]) 0x200 1
      = some (.ok, 1, [0x80]) := by decide +kernel

/-- M3. -/
theorem test_srmvfy_short :
    outcome (.srmvfy 0x200 47) (plain.writeBytes 0x200 [0x80, 0x00, 0x00, 0x01, 0x00, 0x00, 0x00, 0x28, 0x5E, 0x5B, 0xD4, 0x30, 0x34, 0x8B, 0xE7, 0xD8, 0xC9, 0x92, 0x3D, 0x50, 0xCF, 0xF6, 0x69, 0x8F, 0x71, 0x28, 0x4B, 0xAC, 0xE2, 0x0A, 0xFD, 0xC5, 0x9E, 0xAC, 0x35, 0x94, 0xEC, 0xB6, 0xB7, 0xEB, 0x91, 0xE0, 0x03, 0xD5, 0x0F, 0xCE, 0x8B, 0xD6]) 0x200 1
      = some (.short, 0, [0x80]) := by decide

/-! ### Failures and the host port -/

/-- F2 and F7: one byte beyond `OM`; a bad length comes before a bad range. -/
theorem test_range_and_badarg : (after (.copy 0x3FE 0 3) plain).code = .range
    ∧ (after (.copy 0x3000 0 0) plain).code = .badarg := by decide

/-- F4: `start + length` is taken without wrap. -/
theorem test_range_no_wrap : (after (.copy 0xFFFFFFFF 0 2) plain).code = .range := by decide

/-- F9: an illegal word in a Finalized digest state; `STATUS` shows the live flag. -/
theorem test_illegal_word :
    stepOutcome { digesting 0 0 true false with host := [.write 4 0x00 0x13] } = some (.illegal, 0, 0x107) := by
  decide

/-- A word presented to the reset state is the next thing a step runs. -/
theorem test_withFetchWord : stepOutcome (State.reset.withFetchWord 32 0x12) = some (.ok, 1, 0x100) := by
  decide

/-- `LDB`, a command and `RDB` as host accesses (R101, R102): three bytes in, REV, the first byte back. -/
def session : List HostAccess :=
  [.write 4 0x0C 0x40, .write 4 0x10 0x11, .write 4 0x10 0x22, .write 4 0x20 0x40, .write 4 0x24 2,
    .write 4 0x00 0x03, .write 4 0x0C 0x40, .read 4 0x10]

theorem test_session :
    (match core.run 8 { plain with host := session } with
      | .next t => some (t.readData.toNat, t.omAddr.toNat, t.cmd.toNat)
      | _ => none) = some (0x22, 0x41, 0x03) := by decide

/-- Hardware reset (R280): the registers clear and the parameters stay. -/
theorem test_hardReset :
    (match step { digesting 8 1 true true with host := [.hardReset], cmd := 5, om := [(3, 4)] } with
      | .next t => some (t.status.toNat, t.cmd.toNat, t.om, t.params)
      | _ => none) = some (0, 0, [], toyKey) := by decide +kernel

/-! ### Witnesses: states and operands that meet the hypotheses of each statement -/
/-- `plain` with one host write, or one host read, to come. -/
def writing (offset : Nat) (data : Word) : State := { plain with host := [.write 4 offset data] }

def reading (offset : Nat) : State := { plain with host := [.read 4 offset] }

theorem witness_DecodedOperandsAreTheRegisters :
    decode 0x00000042 someArgs = .ok (.srmvfy 0xA01 0xA02) := rfl

theorem witness_StepRunsTheIssuedCommand :
    (writing 0x00 0x10).host = .write 4 0x00 0x10 :: [] ∧ decode 0x10 (writing 0x00 0x10).arg = .ok .shaReset :=
  ⟨rfl, rfl⟩

/-- The twenty command words of R100. -/
def commandWords : List Word :=
  [0x01, 0x02, 0x03, 0x04, 0x05, 0x06, 0x07, 0x10, 0x11, 0x12, 0x20, 0x21, 0x22,
    0x30, 0x31, 0x32, 0x33, 0x40, 0x41, 0x42]

theorem witness_IllegalWordOnlyReports :
    (writing 0x00 0).host = .write 4 0x00 0 :: [] ∧ 0x00 ∉ commandWords ∧ 0x08 ∉ commandWords
    ∧ 0x43 ∉ commandWords ∧ 0x101 ∉ commandWords ∧ 0xFFFFFFFF ∉ commandWords :=
  ⟨rfl, by decide, by decide, by decide, by decide, by decide⟩

theorem witness_PresentedCommandRunsNext : decodeTableWord 32 0x10 = some .shaReset := rfl

theorem witness_HostReadsReturnRegisters :
    (reading 0x0C).host = .read 4 0x0C :: [] ∧ (reading 0x3C).host = .read 4 0x3C :: []
    ∧ (reading 0x20).host = .read 4 (0x20 + 4 * (0 : Fin 6).val) :: []
    ∧ (reading 0x34).host = .read 4 (0x20 + 4 * (5 : Fin 6).val) :: [] := ⟨rfl, rfl, rfl, rfl⟩

theorem witness_HostWritesReachOnlyTheirRegister :
    (writing 0x0C 1).host = .write 4 0x0C 1 :: [] ∧ (writing 0x3C 1).host = .write 4 0x3C 1 :: []
    ∧ (writing 0x20 1).host = .write 4 (0x20 + 4 * (0 : Fin 6).val) 1 :: []
    ∧ (writing 0x34 1).host = .write 4 (0x20 + 4 * (5 : Fin 6).val) 1 :: [] := ⟨rfl, rfl, rfl, rfl⟩

theorem witness_DataPortMovesOneByte :
    ({ reading 0x10 with omAddr := 1023 } : State).host = .read 4 0x10 :: [] ∧ 1023 < plain.params.omSize
    ∧ ({ writing 0x10 7 with omAddr := 1024 } : State).host = .write 4 0x10 7 :: []
    ∧ ¬(1024 < plain.params.omSize) := ⟨rfl, by decide, rfl, by decide⟩

theorem witness_UndefinedAccessIsRefused :
    ¬(2 = 4 ∧ 0 % 4 = 0 ∧ 0 < 64) ∧ ¬(8 = 4 ∧ 0 % 4 = 0 ∧ 0 < 64) ∧ ¬(4 = 4 ∧ 2 % 4 = 0 ∧ 2 < 64)
    ∧ ¬(4 = 4 ∧ 64 % 4 = 0 ∧ 64 < 64)
    ∧ (reading 64).host = .read 4 64 :: [] ∧ (writing 2 0).host = .write 4 2 0 :: [] :=
  ⟨by decide, by decide, by decide, by decide, rfl, rfl⟩

theorem witness_EveryDefinedAccessCompletes :
    (∀ bytes offset rest, (reading 0x3C).host = .read bytes offset :: rest →
      bytes = 4 ∧ offset % 4 = 0 ∧ offset < 64)
    ∧ (∀ bytes offset data rest, (reading 0x3C).host = .write bytes offset data :: rest →
      bytes = 4 ∧ offset % 4 = 0 ∧ offset < 64) :=
  ⟨fun _ _ _ h => by cases h; decide, fun _ _ _ _ h => by cases h⟩

theorem witness_HardwareResetClears :
    ({ digesting 8 1 true true with host := [.hardReset] } : State).host = .hardReset :: [] := rfl

theorem witness_IdleEngineKeepsItsState : plain.host = [] := rfl

theorem witness_CopyMovesTheRange :
    (0 : Word).toNat = 0 ∧ ¬(plain.Inside 0 3 ∧ plain.Inside 0x3FE 3) ∧ plain.Inside 0 3 ∧ plain.Inside 0x3FD 3
    ∧ CleanRanges 0x3FD 0 3 ∧ CleanRanges 0 0 3 ∧ CleanRanges 3 0 3 ∧ CleanRanges 0 3 3
    ∧ ¬CleanRanges 2 0 3 ∧ ¬CleanRanges 0 2 3 := by decide

theorem witness_FillStoresTheByte :
    (0 : Word).toNat = 0 ∧ ¬plain.Inside 0x3FE 3 ∧ plain.Inside 0x3FD 3 ∧ (3 : Word).toNat ≠ 0 := by decide

theorem witness_RevReversesTheRange :
    (0 : Word).toNat = 0 ∧ ¬plain.Inside 0x400 1 ∧ plain.Inside 0x3FF 1 ∧ (1 : Word).toNat ≠ 0 := by decide

theorem witness_CmpOrdersTheNumbers :
    (0 : Word).toNat = 0 ∧ ¬(plain.Inside 0 2 ∧ plain.Inside 0x3FF 2) ∧ plain.Inside 0 2 ∧ plain.Inside 0x3FE 2 := by
  decide

theorem witness_AlleqTestsEveryByte :
    (0 : Word).toNat = 0 ∧ ¬plain.Inside 0xFFFFFFFF 2 ∧ plain.Inside 0x3FE 2 ∧ (2 : Word).toNat ≠ 0 := by decide

theorem witness_AddcAddsAndReturnsTheCarry :
    (0 : Word).toNat = 0 ∧ ¬(plain.Inside 0 2 ∧ plain.Inside 2 2 ∧ plain.Inside 0x3FF 2)
    ∧ plain.Inside 0 2 ∧ plain.Inside 2 2 ∧ plain.Inside 0x3FE 2
    ∧ CleanRanges 0x3FE 0 2 ∧ CleanRanges 0x3FE 2 2 ∧ CleanRanges 2 2 2
    ∧ ¬(CleanRanges 1 0 2 ∧ CleanRanges 1 2 2) := by decide

theorem witness_SubbSubtractsAndReturnsTheBorrow :
    (0 : Word).toNat = 0 ∧ ¬(plain.Inside 0 2 ∧ plain.Inside 0x400 2 ∧ plain.Inside 4 2)
    ∧ plain.Inside 0 2 ∧ plain.Inside 0x3FE 2 ∧ plain.Inside 4 2
    ∧ CleanRanges 0 0 2 ∧ CleanRanges 0 0x3FE 2 ∧ ¬(CleanRanges 3 0 2 ∧ CleanRanges 3 4 2) := by decide

theorem witness_ShaInputRefusals :
    ¬plain.Inside 0x3FF 2 ∧ plain.Inside 0x3FF 1 ∧ plain.Inside 0x400 (0 : Word).toNat
    ∧ (digesting 0 0 true false).digest.fin = true ∧ (digesting 0 0 false true).digest.cor = true
    ∧ (digesting 0xFFFFFFFFFFFFFFF8 63 false false).digest.fin = false
    ∧ (digesting 0xFFFFFFFFFFFFFFF8 63 false false).digest.cor = false
    ∧ 2 ^ 64 ≤ (digesting 0xFFFFFFFFFFFFFFF8 63 false false).digest.len.toNat + 8 * (1 : Word).toNat := by decide

theorem witness_ShaInputStoresOneByte :
    ∀ i ∈ ([0, 62, 63] : List (Fin 64)), (digesting 0xFFFFFFFFFFFFFFF0 i false false).Inside 0x3FF 1
      ∧ (digesting 0xFFFFFFFFFFFFFFF0 i false false).digest.fin = false
      ∧ (digesting 0xFFFFFFFFFFFFFFF0 i false false).digest.cor = false
      ∧ (digesting 0xFFFFFFFFFFFFFFF0 i false false).digest.len.toNat + 8 < 2 ^ 64 := by decide

theorem witness_ShaInputDependsOnTheConcatenation :
    (1 : Word).toNat ≠ 0 ∧ (0x3FE : Word).toNat + (1 : Word).toNat + (1 : Word).toNat < 2 ^ 32
    ∧ (digesting 0xFFFFFFFFFFFFFFE8 61 false false).Inside 0x3FE ((1 : Word).toNat + (1 : Word).toNat)
    ∧ (digesting 0xFFFFFFFFFFFFFFE8 61 false false).digest.fin = false
    ∧ (digesting 0xFFFFFFFFFFFFFFE8 61 false false).digest.cor = false
    ∧ (digesting 0xFFFFFFFFFFFFFFE8 61 false false).digest.len.toNat
        + 8 * ((1 : Word).toNat + (1 : Word).toNat) < 2 ^ 64 := by decide

theorem plain_holds : plain.digest.Holds [] := Digest.atReset.restart_holds

theorem witness_ShaInputExtendsTheMessage :
    plain.digest.Holds [] ∧ (1 : Word).toNat ≠ 0 ∧ plain.Inside 0x3FF (1 : Word).toNat
    ∧ 8 * (([] : List Byte).length + (1 : Word).toNat) < 2 ^ 64 :=
  ⟨plain_holds, by decide, by decide, by decide⟩

theorem witness_ShaResultDeliversTheDigest :
    ¬plain.Inside 0x3ED 20 ∧ plain.Inside 0x3EC 20 ∧ (digesting 0 0 true true).digest.Corrupted
    ∧ (digesting 0 0 true false).digest.Finalized ∧ plain.digest.cor = false ∧ plain.digest.fin = false
    ∧ plain.digest.Holds [] :=
  ⟨by decide, by decide, by decide, by decide, rfl, rfl, plain_holds⟩

theorem witness_ShaResultPadsTheBlock :
    plain.Inside 0x3EC 20 ∧ (digesting 0x1B8 55 false false).digest.cor = false
    ∧ (digesting 0x1B8 55 false false).digest.fin = false
    ∧ (digesting 0x1B8 55 false false).digest.idx.val ≤ 55 ∧ 56 ≤ (digesting 0x1C0 56 false false).digest.idx.val
    ∧ 56 ≤ (digesting 0x1F8 63 false false).digest.idx.val := by decide

theorem witness_ShaSequenceDigestsTheRange :
    (1 : Word).toNat ≠ 0 ∧ plain.Inside 0x3FF (1 : Word).toNat ∧ plain.Inside 0x3EC 20 := by decide

theorem witness_DigestStateTransitions :
    plain.Inside 0x3FF (1 : Word).toNat ∧ plain.Inside 0x3EC 20
    ∧ plain.digest.Idle ∧ (digesting 8 1 false false).digest.Accumulating
    ∧ (digesting 8 1 true false).digest.Finalized ∧ (digesting 8 1 true true).digest.Corrupted
    ∧ (digesting 0xFFFFFFFFFFFFFFF0 62 false false).digest.len.toNat + 8 * (1 : Word).toNat < 2 ^ 64
    ∧ 2 ^ 64 ≤ (digesting 0xFFFFFFFFFFFFFFF0 62 false false).digest.len.toNat + 8 * (2 : Word).toNat
    ∧ plain.digest.Holds []
    ∧ exec (.shaResult 0x3ED) plain = .next (plain.fail .range) :=
  ⟨by decide, by decide, by decide, by decide, by decide, by decide, by decide, by decide, plain_holds, rfl⟩

theorem witness_CorruptedIsTerminal :
    (digesting 8 1 true true).digest.Corrupted ∧ (digesting 8 1 true true).Inside 0x3FF (1 : Word).toNat
    ∧ (digesting 8 1 true true).Inside 0x3EC 20
    ∧ (∃ t, exec .shaReset (digesting 8 1 true true) = .next t ∧ ¬t.digest.Corrupted)
    ∧ ∃ t, step { digesting 8 1 true true with host := [.hardReset] } = .next t ∧ ¬t.digest.Corrupted :=
  ⟨rfl, by decide, by decide, ⟨_, rfl, by decide⟩, ⟨_, rfl, by decide⟩⟩

theorem witness_MacAddsTheProduct :
    (0 : Word).toNat = 0 ∧ ¬(plain.Inside 0 2 ∧ plain.Inside 0x3FF 2) ∧ plain.Inside 0 2 ∧ plain.Inside 0x3FE 2
    ∧ CleanRanges 0x3FE 0 2 ∧ CleanRanges 0 0 2 ∧ ¬CleanRanges 1 0 2 := by decide

theorem witness_MulIsExactOrAliased :
    (0 : Word).toNat = 0 ∧ ¬(plain.Inside 0 2 ∧ plain.Inside 0x10 2 ∧ plain.Inside 0x3FD (2 * (2 : Word).toNat))
    ∧ plain.Inside 0 2 ∧ plain.Inside 0x10 2 ∧ plain.Inside 0x3FC (2 * (2 : Word).toNat)
    ∧ ¬(Apart 0xD (2 * 2) 0 2 ∧ Apart 0xD (2 * 2) 0x10 2) ∧ Apart 0x2 (2 * 2) 0 2 ∧ Apart 0x2 (2 * 2) 0x10 2 := by
  decide

theorem witness_DivGivesRemainderAndQuotient :
    (0 : Word).toNat = 0 ∧ ¬(plain.Inside 0 1 ∧ plain.Inside 1 1 ∧ plain.Inside 0x3FF (2 * (1 : Word).toNat))
    ∧ plain.Inside 0 1 ∧ plain.Inside 1 1 ∧ plain.Inside 0x3FE (2 * (1 : Word).toNat)
    ∧ intLe ((plain.writeBytes 1 [0]).readBytes 1 1) = 0 ∧ intLe ((plain.writeBytes 1 [1]).readBytes 1 1) ≠ 0 := by
  decide

theorem witness_ModredReduces :
    ¬(1 ≤ (0 : Word).toNat ∧ (0 : Word).toNat ≤ 128 ∧ 1 ≤ (4 : Word).toNat ∧ (4 : Word).toNat ≤ 256)
    ∧ ¬(1 ≤ (129 : Word).toNat ∧ (129 : Word).toNat ≤ 128 ∧ 1 ≤ (4 : Word).toNat ∧ (4 : Word).toNat ≤ 256)
    ∧ ¬(1 ≤ (2 : Word).toNat ∧ (2 : Word).toNat ≤ 128 ∧ 1 ≤ (257 : Word).toNat ∧ (257 : Word).toNat ≤ 256)
    ∧ 1 ≤ (128 : Word).toNat ∧ (128 : Word).toNat ≤ 128 ∧ 1 ≤ (256 : Word).toNat ∧ (256 : Word).toNat ≤ 256
    ∧ ¬(plain.Inside 0x301 256 ∧ plain.Inside 0 128 ∧ plain.Inside 0 128)
    ∧ plain.Inside 0x300 256 ∧ plain.Inside 0x380 128 ∧ plain.Inside 0x3FF 1
    ∧ intLe ((plain.writeBytes 1 [0]).readBytes 1 1) = 0 ∧ intLe ((plain.writeBytes 1 [1]).readBytes 1 1) ≠ 0 := by
  decide

theorem witness_ModmulMultiplies :
    ¬(1 ≤ (0 : Word).toNat ∧ (0 : Word).toNat ≤ 128) ∧ ¬(1 ≤ (129 : Word).toNat ∧ (129 : Word).toNat ≤ 128)
    ∧ 1 ≤ (1 : Word).toNat ∧ (128 : Word).toNat ≤ 128
    ∧ ¬(plain.Inside 0 1 ∧ plain.Inside 0 1 ∧ plain.Inside 1 1 ∧ plain.Inside 0x400 1)
    ∧ plain.Inside 0 1 ∧ plain.Inside 1 1 ∧ plain.Inside 0x3FF 1
    ∧ intLe ((plain.writeBytes 1 [0]).readBytes 1 1) = 0 ∧ intLe ((plain.writeBytes 1 [1]).readBytes 1 1) ≠ 0 := by
  decide

theorem witness_ModexpExponentiates :
    ¬(1 ≤ (129 : Word).toNat ∧ (129 : Word).toNat ≤ 128 ∧ 1 ≤ (1 : Word).toNat ∧ (1 : Word).toNat ≤ 128)
    ∧ ¬(1 ≤ (2 : Word).toNat ∧ (2 : Word).toNat ≤ 128 ∧ 1 ≤ (0 : Word).toNat ∧ (0 : Word).toNat ≤ 128)
    ∧ ¬(1 ≤ (2 : Word).toNat ∧ (2 : Word).toNat ≤ 128 ∧ 1 ≤ (129 : Word).toNat ∧ (129 : Word).toNat ≤ 128)
    ∧ 1 ≤ (1 : Word).toNat ∧ (128 : Word).toNat ≤ 128
    ∧ ¬(plain.Inside 0 1 ∧ plain.Inside 0x381 128 ∧ plain.Inside 1 1 ∧ plain.Inside 0x3FF 1)
    ∧ plain.Inside 0 1 ∧ plain.Inside 0x380 128 ∧ plain.Inside 1 1 ∧ plain.Inside 0x3FF 1
    ∧ intLe ((plain.writeBytes 1 [0]).readBytes 1 1) = 0 ∧ intLe ((plain.writeBytes 1 [1]).readBytes 1 1) ≠ 0 := by
  decide

/-- `plain` with a one-byte value at 0 and a one-byte modulus at 1. -/
def inverting (a m : Byte) : State := plain.writeBytes 0 [a, m]

theorem witness_ModinvInverts :
    ¬(1 ≤ (0 : Word).toNat ∧ (0 : Word).toNat ≤ 128) ∧ ¬(1 ≤ (129 : Word).toNat ∧ (129 : Word).toNat ≤ 128)
    ∧ 1 ≤ (1 : Word).toNat ∧ (128 : Word).toNat ≤ 128
    ∧ ¬(plain.Inside 0 1 ∧ plain.Inside 1 1 ∧ plain.Inside 0x400 1)
    ∧ plain.Inside 0 1 ∧ plain.Inside 1 1 ∧ plain.Inside 0x3FF 1
    ∧ 0 = intLe ((inverting 0 7).readBytes 0 1) ∧ 0 = intLe ((inverting 1 0).readBytes 1 1)
    ∧ 7 = intLe ((inverting 7 7).readBytes 0 1) ∧ 7 = intLe ((inverting 7 7).readBytes 1 1)
    ∧ 2 = intLe ((inverting 2 4).readBytes 0 1) ∧ 4 = intLe ((inverting 2 4).readBytes 1 1) ∧ Nat.gcd 2 4 ≠ 1
    ∧ 6 = intLe ((inverting 6 7).readBytes 0 1) ∧ 7 = intLe ((inverting 6 7).readBytes 1 1) ∧ Nat.gcd 6 7 = 1 := by
  decide

theorem witness_ValueTimesItsInverseIsOne :
    ∃ t, exec (.modinv 0x11 0x10 0x12 1) (plain.writeBytes 0x10 [3, 0, 7]) = .next t ∧ t.code = .ok
      ∧ Apart 0x11 1 0x10 1 ∧ Apart 0x11 1 0x12 1 ∧ plain.Inside 0x3FF 1 :=
  ⟨_, rfl, by decide, by decide, by decide, by decide⟩

/-- `p4` under other values of `P` and `Q`, with `s` of one byte. -/
def signed (p : BitVec 1024) (q : BitVec 160) (v : Byte) : State :=
  { p4.writeBytes 0x53 [v] with params := { toyKey with p := p, q := q } }

/-- The hypotheses of every clause of `DsaSteps`, at the operands of P4: `s = 0`, `Q = 0`, `s = Q`, a common factor,
and an invertible `s` with an empty message, with `P = 0`, and as it is. -/
theorem witness_DsavfyRunsTheSevenSteps :
    ¬(p4.Inside 0x10 3 ∧ p4.Inside 0x20 20 ∧ p4.Inside 0x3ED 20)
    ∧ p4.Inside 0x10 3 ∧ p4.Inside 0x20 20 ∧ p4.Inside 0x40 20 ∧ p4.Inside 0x400 (0 : Word).toNat
    ∧ intBe ((signed 23 11 0).readBytes 0x40 20) = 0 ∧ (signed 23 0 7).params.q.toNat = 0
    ∧ (signed 23 11 11).params.q.toNat ≤ intBe ((signed 23 11 11).readBytes 0x40 20)
    ∧ intBe ((signed 23 11 11).readBytes 0x40 20) ≠ 0 ∧ (signed 23 11 11).params.q.toNat ≠ 0
    ∧ intBe ((signed 23 14 7).readBytes 0x40 20) < (signed 23 14 7).params.q.toNat
    ∧ Nat.gcd (intBe ((signed 23 14 7).readBytes 0x40 20)) (signed 23 14 7).params.q.toNat ≠ 1
    ∧ intBe ((signed 23 11 10).readBytes 0x40 20) < (signed 23 11 10).params.q.toNat
    ∧ Nat.gcd (intBe ((signed 23 11 10).readBytes 0x40 20)) (signed 23 11 10).params.q.toNat = 1
    ∧ (signed 23 11 10).readBytes 0x10 0 = [] ∧ (signed 23 11 10).readBytes 0x10 3 ≠ []
    ∧ (signed 0 11 10).params.p.toNat = 0 ∧ (signed 23 11 10).params.p.toNat ≠ 0 := by decide +kernel

theorem witness_KsvvfyChecksTheTrailingDigest :
    ¬plain.Inside 0x3E3 30 ∧ plain.Inside 0x3E2 (30 : Word).toNat ∧ (29 : Word).toNat < 30
    ∧ 30 ≤ (30 : Word).toNat := by decide

/-- The blob is `p4`'s 20 bytes of `r` at `0x20`, the bytes up to `0x40`, and its 20 bytes of `s`: 12 + 20 + 20. -/
theorem witness_SrmvfyChecksTheSignature :
    ¬plain.Inside 0x3D1 48 ∧ plain.Inside 0x3D0 (48 : Word).toNat ∧ plain.Inside 0x20 (52 : Word).toNat
    ∧ (47 : Word).toNat < plain.params.srmMinHeader + 40 ∧ plain.params.srmMinHeader + 40 ≤ (48 : Word).toNat
    ∧ intBe ((signed 23 11 0).readBytes (0x20 + (52 - 20)) 20) = 0
    ∧ (signed 23 0 7).params.q.toNat = 0
    ∧ (signed 23 11 11).params.q.toNat ≤ intBe ((signed 23 11 11).readBytes (0x20 + (52 - 20)) 20)
    ∧ Nat.gcd (intBe ((signed 23 14 7).readBytes (0x20 + (52 - 20)) 20)) (signed 23 14 7).params.q.toNat ≠ 1
    ∧ intBe ((signed 23 11 10).readBytes (0x20 + (52 - 20)) 20) < (signed 23 11 10).params.q.toNat
    ∧ Nat.gcd (intBe ((signed 23 11 10).readBytes (0x20 + (52 - 20)) 20)) (signed 23 11 10).params.q.toNat = 1
    ∧ (signed 23 11 10).readBytes 0x20 (52 - 40) ≠ [] ∧ (signed 23 11 10).readBytes 0x2C (40 - 40) = []
    ∧ (signed 0 11 10).params.p.toNat = 0 ∧ (signed 23 11 10).params.p.toNat ≠ 0
    ∧ ({ toyKey with srmMinHeader := 0 } : Config.Params).srmMinHeader + 40 ≤ (40 : Word).toNat := by
  decide +kernel

theorem witness_AcceptedSignatureIsInRange :
    ∃ t, exec (.dsavfy 0x10 3 0x20 0x40) p4 = .next t ∧ t.retval ≠ 0 := ⟨_, rfl, by decide +kernel⟩

/-- The digest state and the code of the two states differ; the bytes read and the parameters agree. -/
theorem witness_VerdictDependsOnlyOnTheBytes :
    ({ p4 with digest := (digesting 8 1 true true).digest, code := .short } : State).params = p4.params
    ∧ (∀ x ∈ readRanges (.dsavfy 0x10 3 0x20 0x40),
        ({ p4 with digest := (digesting 8 1 true true).digest, code := .short } : State).readBytes x.start x.length
          = p4.readBytes x.start x.length)
    ∧ (∃ t, exec (.dsavfy 0x10 3 0x20 0x40) p4 = .next t)
    ∧ ∃ t, exec (.dsavfy 0x10 3 0x20 0x40)
        { p4 with digest := (digesting 8 1 true true).digest, code := .short } = .next t :=
  ⟨rfl, by decide, ⟨_, rfl⟩, ⟨_, rfl⟩⟩

/-- A next state with each code the statement speaks of, and one with `OK`. -/
theorem witness_GenericChecksComeFirst :
    (∃ t, exec (.fill 0x3FE 0 0) plain = .next t ∧ t.code = .badarg)
    ∧ (∃ t, exec (.fill 0x3FE 0 3) plain = .next t ∧ t.code = .range)
    ∧ ∃ t, exec (.fill 0x3FE 0 2) plain = .next t ∧ t.code = .ok :=
  ⟨⟨_, rfl, by decide⟩, ⟨_, rfl, by decide⟩, ⟨_, rfl, by decide⟩⟩

theorem witness_CommandsKeepTheirFrame :
    (∃ t, exec (.fill 0x10 7 2) plain = .next t
      ∧ ∀ a ∈ [0x0F, 0x12], ∀ r ∈ writtenRanges (.fill 0x10 7 2), ¬(r.start ≤ a ∧ a < r.start + r.length))
    ∧ ∃ t, exec .shaReset (digesting 8 1 true true) = .next t ∧ t.digest ≠ (digesting 8 1 true true).digest :=
  ⟨⟨_, rfl, by decide⟩, ⟨_, rfl, by decide⟩⟩

theorem witness_FailingCommandWritesNothing :
    (∃ t, exec (.shaInput 0 0) plain = .next t ∧ t.code ≠ .ok)
    ∧ ∃ t, exec (.mul 0 0 0 1) plain = .next t ∧ t.code ≠ .ok := ⟨⟨_, rfl, by decide⟩, ⟨_, rfl, by decide⟩⟩

theorem witness_CommandsEndOnlyWithTheirCodes : ∃ t, exec (.mul 0 0 0 1) plain = .next t ∧ t.code = .aliased :=
  ⟨_, rfl, by decide⟩

theorem witness_NonzeroRetvalMeansOk :
    (writing 0x00 0x12).host = .write 4 0x00 0x12 :: []
    ∧ ∃ t, step (writing 0x00 0x12) = .next t ∧ t.retval ≠ 0 := ⟨rfl, _, rfl, by decide⟩

theorem witness_EarlierResultsAreNotRead : ∃ t, exec (.fill 0x10 7 2) plain = .next t := ⟨_, rfl⟩

theorem witness_OnlySignatureCommandsReadTheKey :
    testKey.omSize = plain.params.omSize ∧ (∀ m l r g, Instr.ksvvfy 0 30 ≠ .dsavfy m l r g)
    ∧ (∀ b l, Instr.ksvvfy 0 30 ≠ .srmvfy b l) ∧ ∃ t, exec (.ksvvfy 0 30) plain = .next t :=
  ⟨rfl, nofun, nofun, _, rfl⟩

/-- A memory that agrees with `p4` on the source range and nowhere else. -/
theorem witness_CommandsReadOnlyTheirRanges :
    (∃ t, exec (.copy 0 0x10 3) p4 = .next t ∧ t.code = .ok)
    ∧ ∀ x ∈ readRanges (.copy 0 0x10 3), ∀ a, x.start ≤ a → a < x.start + x.length →
        ({ p4 with om := [(0x10, 0x61), (0x11, 0x62), (0x12, 0x63), (0x20, 9)] } : State).omByte a = p4.omByte a := by
  refine ⟨⟨_, rfl, by decide⟩, fun x hx a h1 h2 => ?_⟩
  obtain rfl : x = ⟨0x10, 3⟩ := by simpa [readRanges, rangeOf] using hx
  obtain rfl | rfl | rfl : a = 0x10 ∨ a = 0x11 ∨ a = 0x12 := by
    change 0x10 ≤ a at h1; change a < 0x10 + 3 at h2; omega
  all_goals decide

theorem witness_EveryStepKeepsSoundness : p4.Sound ∧ ∃ t, step { p4 with host := [.hardReset] } = .next t :=
  ⟨⟨by decide, by decide, by decide, by decide, nofun⟩, _, rfl⟩

/-- Each of the three kinds of meaningful digest state. -/
theorem witness_EveryStepKeepsTheDigestMeaningful :
    plain.digest.Meaningful ∧ (digesting 8 1 true true).digest.Meaningful
    ∧ ({ plain.digest with fin := true, hash := sha1Hash [] } : Digest).Meaningful
    ∧ ∃ t, step plain = .next t :=
  ⟨.inr (.inr ⟨_, plain_holds⟩), .inl rfl, .inr (.inl ⟨⟨rfl, rfl⟩, _, rfl⟩), _, rfl⟩

theorem witness_NoStepChangesTheParameters : ∃ t, step (writing 0x00 0x10) = .next t := ⟨_, rfl⟩

end Sys2Proof.Tests
end

section
/-! PROOFS. The scope statements (spec/00_scope.md R11, 10_state.md R37, R41, R42): no step changes a parameter,
and soundness holds at reset and is kept by every step. Both are one case split over `step_cases`, with what a
command does taken from its `Effect`. -/
namespace Sys2Proof.Machine

/-! ### The digest counters (10_state.md R37) -/

/-- The counters are claimed only while neither flag is set. -/
theorem Digest.counted_of_flag {d : Digest} (h : d.cor = true ∨ d.fin = true) : d.Counted := by
  intro hc hf
  rcases h with h | h
  · exact absurd (hc.symm.trans h) Bool.false_ne_true
  · exact absurd (hf.symm.trans h) Bool.false_ne_true

theorem Digest.atReset_counted : Digest.atReset.Counted := fun _ _ => ⟨rfl, rfl⟩

theorem Digest.restart_counted (d : Digest) : d.restart.Counted := fun _ _ => by simp

/-- SHA_INPUT either sets `COR` or advances `LEN` and `IDX` together (41_sha1.md R142, R143). -/
theorem Digest.input_counted {d : Digest} (h : d.Counted) (bs : List Byte) : (d.input bs).2.Counted := by
  by_cases hr : bs = [] ∨ d.fin = true ∨ d.cor = true
  · rw [Digest.input_refuses hr]
    exact Digest.counted_of_flag (.inl rfl)
  · simp only [not_or, Bool.not_eq_true] at hr
    obtain ⟨h0, hf, hc⟩ := hr
    obtain ⟨hlen, hidx⟩ := h hc hf
    rcases Digest.input_open h0 hf hc with ⟨_, _, _, _, hlen', hidx'⟩ | ⟨_, hcor, _⟩
    · exact fun _ _ => by omega
    · exact Digest.counted_of_flag (.inl hcor)

/-- SHA_RESULT leaves one of the flags set, whatever the state before (41_sha1.md R147). -/
theorem Digest.result_counted (d : Digest) : d.result.2.Counted := by
  cases hc : d.cor with
  | true => rw [Digest.result_corrupted hc]; exact Digest.counted_of_flag (.inl hc)
  | false =>
    cases hf : d.fin with
    | true => rw [Digest.result_final hc hf]; exact Digest.counted_of_flag (.inr hf)
    | false => rw [Digest.result_pads hc hf]; exact Digest.counted_of_flag (.inr (Digest.mk_fin ..))

/-- A verifying command leaves the digest state untouched, corrupted or final (44_dsa.md R223). -/
theorem VerifyEffect.counted {s t : State} (h : VerifyEffect s t) (hs : s.digest.Counted) :
    t.digest.Counted := by
  rcases h with ⟨e, _⟩ | ⟨e, _⟩ | ⟨_, ⟨_, hf⟩, _⟩
  · rwa [e]
  · rw [e]; exact Digest.counted_of_flag (.inl rfl)
  · exact Digest.counted_of_flag (.inr hf)

theorem DigestEffect.counted {i : Instr} {s t : State} (h : DigestEffect s t i) (hs : s.digest.Counted) :
    t.digest.Counted := by
  cases i with
  | shaReset => rw [h.1]; exact s.digest.restart_counted
  | shaInput data length => rw [h.1]; exact Digest.input_counted hs _
  | shaResult out => rw [h.1]; exact s.digest.result_counted
  | dsavfy m k r g => exact VerifyEffect.counted h.1 hs
  | ksvvfy b k =>
    rcases h with ⟨e, _⟩ | ⟨_, ⟨_, hf⟩, _⟩
    · rwa [e]
    · exact Digest.counted_of_flag (.inr hf)
  | srmvfy b k => exact VerifyEffect.counted h hs
  | _ => rw [h.1]; exact hs

/-! ### What a command keeps -/

theorem Effect.params_eq {i : Instr} {s t : State} (h : Effect i s t) : t.params = s.params :=
  (congrArg State.params h.frame :)

theorem exec_params {i : Instr} {s t : State} (h : exec i s = .next t) : t.params = s.params := by
  rcases exec_inv h with ⟨_, rfl⟩ | ⟨_, _, rfl⟩ | ⟨_, _, he⟩
  · rfl
  · rfl
  · exact he.params_eq

/-- A command writes only inside its written ranges, which lie inside `OM` once the generic checks have passed
(30_encoding.md R97). -/
theorem Effect.sound {i : Instr} {s t : State} (h : Effect i s t) (hr : s.Reaches i) (hs : s.Sound) :
    t.Sound where
  canonical := by
    rcases h.memory with e | ⟨r, _, bs, _, e⟩
    · rw [e]; exact hs.canonical
    · rw [e]; exact Memory.putBytes_wf hs.canonical r.start bs
  inside := by
    rw [h.params_eq]
    rcases h.memory with e | ⟨r, hmem, bs, hlen, e⟩
    · rw [e]; exact hs.inside
    · have hfit : r.start + bs.length ≤ s.params.omSize := hlen ▸ hr r (List.mem_append_right _ hmem)
      rw [e]; exact Memory.putBytes_below hs.inside hfit
  legal := by rw [h.params_eq]; exact hs.legal
  counted := h.digest.counted hs.counted
  retval := fun hne => by
    by_contra hc
    obtain ⟨_, hzero, _⟩ := h.failing hc
    exact hne hzero

/-- `fail` changes the result registers only and returns 0 (60_exceptions.md R251). -/
theorem State.Sound.fail {s : State} (hs : s.Sound) (c : ResultCode) : (s.fail c).Sound :=
  ⟨hs.canonical, hs.inside, hs.legal, hs.counted, fun h => absurd rfl h⟩

theorem exec_sound {i : Instr} {s t : State} (h : exec i s = .next t) (hs : s.Sound) : t.Sound := by
  rcases exec_inv h with ⟨_, rfl⟩ | ⟨_, _, rfl⟩ | ⟨_, hr, he⟩
  · exact hs.fail .badarg
  · exact hs.fail .range
  · exact he.sound hr hs

/-! ### What the host's other accesses keep -/

/-- Soundness does not speak of the registers the host writes, nor of the model's record of the host. -/
theorem State.Sound.withRegisters {s : State} (hs : s.Sound) (w a v : Word) (g : Vector Word 6)
    (accesses : List HostAccess) :
    { s with cmd := w, omAddr := a, arg := g, host := accesses, readData := v }.Sound :=
  ⟨hs.canonical, hs.inside, hs.legal, hs.counted, hs.retval⟩

/-- A byte through the data port goes inside `OM` or nowhere (10_state.md R26). -/
theorem State.Sound.withOm_put {s : State} (hs : s.Sound) {a : Nat} (ha : a < s.params.omSize) (b : Byte) :
    (s.withOm (s.om.put a b)).Sound where
  canonical := Memory.put_wf hs.canonical a b
  inside := Memory.putBytes_below (bs := [b]) hs.inside ha
  legal := hs.legal
  counted := hs.counted
  retval := hs.retval

/-- What every reset leaves is sound when the parameters are legal (10_state.md R41). -/
theorem State.sound_of_cleared {s : State} (hom : s.om = []) (hd : s.digest = Digest.atReset)
    (hret : s.retval = 0) (hl : s.params.Legal) : s.Sound where
  canonical := by rw [hom]; exact List.Pairwise.nil
  inside := by rw [hom]; exact fun _ h => absurd h List.not_mem_nil
  legal := hl
  counted := by rw [hd]; exact Digest.atReset_counted
  retval := fun h => absurd hret h

/-- Hardware reset keeps the parameters (70_reset_and_hazards.md R280). -/
theorem State.Sound.hardReset {s : State} (hs : s.Sound) : s.hardReset.Sound :=
  State.sound_of_cleared s.hardReset_om s.hardReset_digest s.hardReset_retval hs.legal

/-! ### The statements -/

/-- The parameters of `State.reset` are legal for every value of the draws (log 2). -/
theorem State.reset_params_legal : State.reset.params.Legal := by
  have hdraw : Config.srmHeaderDraw % (2 ^ 31 - 39) < 2 ^ 31 - 39 := Nat.mod_lt _ (by decide)
  refine ⟨by decide, by decide, ?_⟩
  show Config.srmHeaderDraw % (2 ^ 31 - 39) + 40 ≤ 2 ^ 31
  omega

/-- Settles O57: reset lists no byte, and its draws give legal parameters. -/
theorem resetIsSound : Obligations.ResetIsSound :=
  State.sound_of_cleared rfl rfl rfl State.reset_params_legal

/-- Settles O59, by the cases of a step: a command by `exec_params`, every other case by the fields it
updates. -/
theorem noStepChangesTheParameters : Obligations.NoStepChangesTheParameters := by
  intro s t h
  rcases step_cases h with ⟨_, rfl⟩ | ⟨x, rest, _, hx⟩
  · rfl
  · rcases hx with ⟨a, v, rfl⟩ | ⟨w, i, _, _, he⟩ | ⟨w, _, rfl⟩ | ⟨a, b, _, rfl⟩ | ⟨a, g, rfl⟩ | ⟨_, rfl⟩
    · rfl
    · exact (exec_params he :)
    · rfl
    · rfl
    · rfl
    · rfl

/-- Settles O56, by the cases of a step: each is a command or one of the host's updates of a
sound state. -/
theorem everyStepKeepsSoundness : Obligations.EveryStepKeepsSoundness := by
  intro s t hs h
  rcases step_cases h with ⟨_, rfl⟩ | ⟨x, rest, _, hx⟩
  · exact hs
  · rcases hx with ⟨a, v, rfl⟩ | ⟨w, i, _, _, he⟩ | ⟨w, _, rfl⟩ | ⟨a, b, ha, rfl⟩ | ⟨a, g, rfl⟩ | ⟨_, rfl⟩
    · exact hs.withRegisters s.cmd a v s.arg rest
    · exact exec_sound he (hs.withRegisters w s.omAddr s.readData s.arg rest)
    · exact (hs.withRegisters w s.omAddr s.readData s.arg rest).fail .illegal
    · exact (hs.withOm_put ha b).withRegisters s.cmd a s.readData s.arg rest
    · exact hs.withRegisters s.cmd a s.readData g rest
    · exact (hs.withRegisters s.cmd s.omAddr s.readData s.arg rest).hardReset

end Sys2Proof.Machine
end

section
/-! PROOFS. The digest state along every step (spec/10_state.md R37, R140): meaningful at reset, and kept so. What
each operation on the digest state does to a meaningful one is said once; a command is then one case split over its
`DigestEffect`, and a step one over `step_cases`. -/
namespace Sys2Proof.Machine

/-! ### The operations on a meaningful digest state -/

/-- A meaningful digest state with neither flag set holds a message (10_state.md R37). -/
theorem Digest.Meaningful.holds {d : Digest} (h : d.Meaningful) (hf : d.fin = false) (hc : d.cor = false) :
    ∃ m, d.Holds m := by
  rcases h with hcor | ⟨⟨_, hfin⟩, _⟩ | hm
  · exact absurd (hc.symm.trans hcor) Bool.false_ne_true
  · exact absurd (hf.symm.trans hfin) Bool.false_ne_true
  · exact hm

theorem Digest.restart_meaningful (d : Digest) : d.restart.Meaningful := .inr (.inr ⟨[], d.restart_holds⟩)

/-- SHA_INPUT on a state that holds `m`, as far as the counter reaches (41_sha1.md R142, R143). -/
theorem Digest.Holds.input {d : Digest} {m bs : List Byte} (h : d.Holds m) (h0 : bs ≠ [])
    (hl : 8 * (m.length + bs.length) < 2 ^ 64) :
    (d.input bs).1 = .ok ∧ (d.input bs).2.Holds (m ++ bs) := by
  rw [Digest.input_consumes h0 h.notFinal h.notCorrupted]
  exact h.consume bs (by omega)

/-- SHA_INPUT sets `COR` or extends the message held (41_sha1.md R142, R143). -/
theorem Digest.Meaningful.input {d : Digest} (h : d.Meaningful) (bs : List Byte) :
    (d.input bs).2.Meaningful := by
  by_cases hr : bs = [] ∨ d.fin = true ∨ d.cor = true
  · rw [Digest.input_refuses hr]
    exact .inl rfl
  · simp only [not_or, Bool.not_eq_true] at hr
    obtain ⟨h0, hf, hc⟩ := hr
    obtain ⟨m, hm⟩ := h.holds hf hc
    rcases Digest.input_open h0 hf hc with ⟨_, _, _, hfit, _⟩ | ⟨_, hcor, _⟩
    · rw [hm.length] at hfit
      exact .inr (.inr ⟨m ++ bs, (hm.input h0 (by omega)).2⟩)
    · exact .inl hcor

/-- SHA_RESULT pads the message held, and leaves a state with a flag set as it is (41_sha1.md R147, R148). -/
theorem Digest.Meaningful.result {d : Digest} (h : d.Meaningful) : d.result.2.Meaningful := by
  cases hc : d.cor with
  | true => rw [Digest.result_corrupted hc]; exact h
  | false =>
    cases hf : d.fin with
    | true => rw [Digest.result_final hc hf]; exact h
    | false =>
      obtain ⟨m, hm⟩ := h.holds hf hc
      have hcor : ({ d.pad with fin := true } : Digest).cor = false := by
        rw [Digest.finalized_cor, Digest.pad_cor, hc]
      have hhash : ({ d.pad with fin := true } : Digest).hash = sha1Hash m := by
        rw [Digest.finalized_hash, hm.pad]
      rw [Digest.result_pads hc hf]
      exact .inr (.inl ⟨⟨hcor, Digest.mk_fin ..⟩, m, hhash⟩)

/-! ### A command on a meaningful digest state -/

/-- A verifying command leaves the digest state untouched, corrupted or final (44_dsa.md R223). -/
theorem VerifyEffect.meaningful {s t : State} (h : VerifyEffect s t) (hs : s.digest.Meaningful) :
    t.digest.Meaningful := by
  rcases h with ⟨e, _⟩ | ⟨e, _⟩ | ⟨_, hfinal⟩
  · rwa [e]
  · rw [e]; exact .inl rfl
  · exact .inr (.inl hfinal)

theorem DigestEffect.meaningful {i : Instr} {s t : State} (h : DigestEffect s t i)
    (hs : s.digest.Meaningful) : t.digest.Meaningful := by
  cases i with
  | shaReset => rw [h.1]; exact s.digest.restart_meaningful
  | shaInput data length => rw [h.1]; exact hs.input _
  | shaResult out => rw [h.1]; exact hs.result
  | dsavfy m k r g => exact h.1.meaningful hs
  | ksvvfy b k =>
    rcases h with ⟨e, _⟩ | ⟨_, hfinal⟩
    · rwa [e]
    · exact .inr (.inl hfinal)
  | srmvfy b k => exact VerifyEffect.meaningful h hs
  | _ => rw [h.1]; exact hs

theorem exec_meaningful {i : Instr} {s t : State} (h : exec i s = .next t) (hs : s.digest.Meaningful) :
    t.digest.Meaningful := by
  rcases exec_inv h with ⟨_, rfl⟩ | ⟨_, _, rfl⟩ | ⟨_, _, he⟩
  · exact hs
  · exact hs
  · exact he.digest.meaningful hs

theorem Digest.atReset_meaningful : Digest.atReset.Meaningful := Digest.atReset.restart_meaningful

/-! ### The statements -/

/-- Settles O58: reset holds the empty message, and by the cases of a step only a command or a reset touches the
digest state. -/
theorem everyStepKeepsTheDigestMeaningful : Obligations.EveryStepKeepsTheDigestMeaningful := by
  refine ⟨Digest.atReset_meaningful, fun s t hs h => ?_⟩
  rcases step_cases h with ⟨_, rfl⟩ | ⟨x, rest, _, hx⟩
  · exact hs
  · rcases hx with ⟨a, v, rfl⟩ | ⟨w, i, _, _, he⟩ | ⟨w, _, rfl⟩ | ⟨a, b, _, rfl⟩ | ⟨a, g, rfl⟩ | ⟨_, rfl⟩
    · exact hs
    · exact exec_meaningful he hs
    · exact hs
    · exact hs
    · exact hs
    · exact Digest.atReset_meaningful

/-- Settles O27: the input is consumed byte by byte, each extending the message held. -/
theorem shaInputExtendsTheMessage : Obligations.ShaInputExtendsTheMessage := by
  intro data length s m hm hn hin hfit
  have h0 : s.readBytes data.toNat length.toNat ≠ [] := fun h => hn (State.readBytes_eq_nil.mp h)
  obtain ⟨hok, hholds⟩ := hm.input h0 (by rwa [State.readBytes_length])
  refine ⟨_, exec_shaInput hin, ?_, hholds⟩
  rw [hok]
  rfl

end Sys2Proof.Machine
end

section
/-! PROOFS. The host's port (spec/10_state.md R21 to R29, R41): a step on a defined access is `hostRead` or
`hostWrite` at its offset, said once; each statement then evaluates one of them at its offsets. -/
namespace Sys2Proof.Machine

/-! ### One defined access (20_memory.md R71, R75) -/

/-- A step on a defined host read returns the word of that register and has its side effect. -/
theorem step_read {s : State} {offset : Nat} {rest : List HostAccess} (h : s.host = .read 4 offset :: rest)
    (hd : accessDefined 4 offset = true) :
    step s = .next ((hostRead offset (s.withHost rest)).2.withReadData (hostRead offset (s.withHost rest)).1) := by
  simp [step, hostStep, h, performAccess, hd]

/-- A step on a defined host write is that write. -/
theorem step_write {s : State} {offset : Nat} {data : Word} {rest : List HostAccess}
    (h : s.host = .write 4 offset data :: rest) (hd : accessDefined 4 offset = true) :
    step s = hostWrite offset data (s.withHost rest) := by
  simp [step, hostStep, h, performAccess, hd]

/-- The 32-bit access at `ARG[k]` is a defined one (10_state.md R29). -/
theorem accessDefined_arg (k : Fin 6) : accessDefined 4 (0x20 + 4 * k.val) = true := by
  revert k; decide

theorem hostRead_arg (k : Fin 6) (s : State) : hostRead (0x20 + 4 * k.val) s = (s.arg[k], s) := by
  match k with
  | 0 | 1 | 2 | 3 | 4 | 5 => rfl

theorem hostWrite_arg (k : Fin 6) (data : Word) (s : State) :
    hostWrite (0x20 + 4 * k.val) data s = .next (s.withArgs (s.arg.set k.val data k.isLt)) := by
  match k with
  | 0 | 1 | 2 | 3 | 4 | 5 => rfl

/-- A reserved offset reads as 0 (10_state.md R29). -/
theorem hostRead_reserved {offset : Nat} (h : offset ∈ [0x14, 0x18, 0x1C, 0x38, 0x3C]) (s : State) :
    accessDefined 4 offset = true ∧ hostRead offset s = (0, s) := by
  simp only [List.mem_cons, List.not_mem_nil, or_false] at h
  rcases h with rfl | rfl | rfl | rfl | rfl
  all_goals exact ⟨rfl, rfl⟩

/-- `STATUS`, `RETVAL` and the reserved offsets ignore a write (10_state.md R22, R24, R29). -/
theorem hostWrite_ignored {offset : Nat} (h : offset ∈ [0x04, 0x08, 0x14, 0x18, 0x1C, 0x38, 0x3C])
    (data : Word) (s : State) : accessDefined 4 offset = true ∧ hostWrite offset data s = .next s := by
  simp only [List.mem_cons, List.not_mem_nil, or_false] at h
  rcases h with rfl | rfl | rfl | rfl | rfl | rfl | rfl
  all_goals exact ⟨rfl, rfl⟩

/-! ### The data port (10_state.md R26) -/

/-- `OM_ADDR` advances modulo 2^32. -/
theorem word_succ_eq_ofNat (a : Word) : a + 1 = BitVec.ofNat 32 (a.toNat + 1) := by
  apply BitVec.eq_of_toNat_eq
  simp

theorem readDataPort_eq (s : State) : readDataPort s
    = (if s.omAddr.toNat < s.params.omSize then (s.omByte s.omAddr.toNat).setWidth 32 else 0,
      s.withOmAddr (BitVec.ofNat 32 (s.omAddr.toNat + 1))) := by
  rw [readDataPort, word_succ_eq_ofNat]

/-- A write through the data port changes the memory and `OM_ADDR` alone. -/
theorem writeDataPort_frame (data : Word) (s : State) : writeDataPort data s
    = { s with om := (writeDataPort data s).om, omAddr := BitVec.ofNat 32 (s.omAddr.toNat + 1) } := by
  rw [← word_succ_eq_ofNat]
  unfold writeDataPort
  split
  · rfl
  · rfl

/-- A write through the data port stores the low byte at `OM_ADDR`, or nowhere outside `OM`. -/
theorem writeDataPort_omByte (data : Word) (s : State) (x : Nat) : (writeDataPort data s).omByte x
    = if x = s.omAddr.toNat ∧ x < s.params.omSize then data.extractLsb' 0 8 else s.omByte x := by
  by_cases hin : s.omAddr.toNat < s.params.omSize
  · have hbyte : (writeDataPort data s).omByte x
        = (s.writeBytes s.omAddr.toNat [data.extractLsb' 0 8]).omByte x := by
      simp only [writeDataPort, if_pos hin]
      exact State.omByte_congr rfl rfl x
    rw [hbyte]
    by_cases hx : x = s.omAddr.toNat
    · subst hx
      rw [if_pos ⟨rfl, hin⟩, State.omByte_writeBytes, dif_pos (by simp)]
      simp
    · rw [if_neg fun h => hx h.1]
      exact State.omByte_writeBytes_outside s (by simp only [List.length_singleton]; omega)
  · rw [if_neg (by rintro ⟨rfl, h⟩; exact hin h)]
    simp only [writeDataPort, if_neg hin]
    exact State.omByte_congr rfl rfl x

/-- Settles O9: a read by `readDataPort_eq`, a write by its frame and the bytes it leaves. -/
theorem dataPortMovesOneByte : Obligations.DataPortMovesOneByte := by
  intro s rest
  refine ⟨fun h => ?_, fun data h => ?_⟩
  · rw [step_read h rfl]
    show Host.Outcome.next ((readDataPort (s.withHost rest)).2.withReadData (readDataPort (s.withHost rest)).1) = _
    rw [readDataPort_eq]
    rfl
  · exact ⟨_, step_write h rfl, writeDataPort_frame data (s.withHost rest),
      writeDataPort_omByte data (s.withHost rest)⟩

/-! ### The other registers -/

/-- Settles O4: the write of `CMD` is the issue of the decoded command. -/
theorem stepRunsTheIssuedCommand : Obligations.StepRunsTheIssuedCommand := by
  intro s w i rest h hi
  have hissue : issueCommand w (s.withHost rest) = exec i ((s.withHost rest).withCmd w) := by
    simp [issueCommand, hi]
  rw [step_write h rfl]
  exact hissue

/-- Settles O7, offset by offset. -/
theorem hostReadsReturnRegisters : Obligations.HostReadsReturnRegisters := by
  intro s offset rest h
  refine ⟨?cmd, ?status, ?retval, ?omAddr, fun k hk => ?arg, fun hr => ?reserved⟩
  case cmd => rintro rfl; exact step_read h rfl
  case status => rintro rfl; exact step_read h rfl
  case retval => rintro rfl; exact step_read h rfl
  case omAddr => rintro rfl; exact step_read h rfl
  case arg =>
    subst hk
    rw [step_read h (accessDefined_arg k), hostRead_arg]
    rfl
  case reserved =>
    obtain ⟨hd, hread⟩ := hostRead_reserved hr (s.withHost rest)
    rw [step_read h hd, hread]
    rfl

/-- Settles O8, offset by offset. -/
theorem hostWritesReachOnlyTheirRegister : Obligations.HostWritesReachOnlyTheirRegister := by
  intro s offset data rest h
  refine ⟨?omAddr, fun k hk => ?arg, fun hr => ?ignored⟩
  case omAddr => rintro rfl; exact step_write h rfl
  case arg =>
    subst hk
    rw [step_write h (accessDefined_arg k), hostWrite_arg]
    rfl
  case ignored =>
    obtain ⟨hd, hwrite⟩ := hostWrite_ignored hr data (s.withHost rest)
    rw [step_write h hd, hwrite]
    rfl

/-- Settles O15: each value is the reset state's own. -/
theorem resetHasTheTabledValues : Obligations.ResetHasTheTabledValues :=
  ⟨rfl, rfl, rfl, rfl, rfl, ⟨rfl, rfl, rfl⟩, rfl, rfl⟩

/-! ### STATUS (10_state.md R24) -/

/-- The flag `b` at bit `n` of a word. -/
theorem toNat_flag_shift {n : Nat} (b : Bool) (h : n < 32) :
    ((BitVec.ofBool b).setWidth 32 <<< n).toNat = 2 ^ n * b.toNat := by
  have hpow : 2 ^ n < 2 ^ 32 := Nat.pow_lt_pow_right Nat.one_lt_two h
  cases b with
  | false => simp
  | true => simpa [Nat.shiftLeft_eq] using hpow

/-- The three fields of `STATUS` share no bit, so that joining them is adding them. -/
theorem State.status_toNat (s : State) : s.status.toNat
    = s.code.toByte.toNat + 2 ^ 8 * s.digest.fin.toNat + 2 ^ 9 * s.digest.cor.toNat := by
  have hcode : s.code.toByte.toNat < 2 ^ 8 := s.code.toByte.isLt
  have hwide : (s.code.toByte.setWidth 32).toNat = s.code.toByte.toNat := by
    rw [BitVec.toNat_setWidth]; omega
  have hfin : s.digest.fin.toNat < 2 := s.digest.fin.toNat_lt
  have hlow : 2 ^ 8 * s.digest.fin.toNat + s.code.toByte.toNat < 2 ^ 9 := by omega
  rw [State.status, BitVec.toNat_or, BitVec.toNat_or, hwide, toNat_flag_shift _ (by decide),
    toNat_flag_shift _ (by decide), Nat.lor_comm s.code.toByte.toNat,
    ← Nat.two_pow_add_eq_or_of_lt hcode, Nat.lor_comm, ← Nat.two_pow_add_eq_or_of_lt hlow]
  omega

/-- Settles O12: the fields of `STATUS`, with the numeral of each code (60_exceptions.md R252). -/
theorem statusShowsCodeAndFlags : Obligations.StatusShowsCodeAndFlags := by
  intro s
  rw [State.status_toNat]
  cases s.code <;> rfl

end Sys2Proof.Machine
end

section
/-! PROOFS. What a command leaves alone and what it does not read (spec/10_state.md R25, R28, R38; 20_memory.md R79):
its frame, from its `Effect`; and that `CODE`, `RETVAL`, `CMD`, `OM_ADDR` and, but for the signature commands, the key
pass through a command unread, shown once for all twenty. -/
namespace Sys2Proof.Machine

/-! ### The frame of a command -/

/-- The commands that use the digest state: those of 41_sha1.md and the verifying ones. -/
def usesDigest : Instr → Bool
  | .shaReset | .shaInput _ _ | .shaResult _ | .dsavfy _ _ _ _ | .ksvvfy _ _ | .srmvfy _ _ => true
  | _ => false

theorem usesDigest_cases {i : Instr} (h : usesDigest i = true) :
    i = .shaReset ∨ (∃ d n, i = .shaInput d n) ∨ (∃ o, i = .shaResult o)
      ∨ (∃ m k r g, i = .dsavfy m k r g) ∨ (∃ b k, i = .ksvvfy b k) ∨ ∃ b k, i = .srmvfy b k := by
  cases i with
  | shaReset => exact .inl rfl
  | shaInput d n => exact .inr (.inl ⟨d, n, rfl⟩)
  | shaResult o => exact .inr (.inr (.inl ⟨o, rfl⟩))
  | dsavfy m k r g => exact .inr (.inr (.inr (.inl ⟨m, k, r, g, rfl⟩)))
  | ksvvfy b k => exact .inr (.inr (.inr (.inr (.inl ⟨b, k, rfl⟩))))
  | srmvfy b k => exact .inr (.inr (.inr (.inr (.inr ⟨b, k, rfl⟩))))
  | _ => cases h

theorem DigestEffect.digest_eq {i : Instr} {s t : State} (h : DigestEffect s t i)
    (hu : usesDigest i = false) : t.digest = s.digest := by
  cases i with
  | shaReset | shaInput | shaResult | dsavfy | ksvvfy | srmvfy => cases hu
  | _ => exact h.1

/-- A byte outside the written ranges keeps its value (20_memory.md R79). -/
theorem Effect.omByte_outside {i : Instr} {s t : State} (h : Effect i s t) {a : Nat}
    (ha : ∀ r ∈ writtenRanges i, ¬(r.start ≤ a ∧ a < r.start + r.length)) : t.omByte a = s.omByte a := by
  have hresets : t.resets = s.resets := (congrArg State.resets h.frame :)
  rcases h.memory with e | ⟨r, hr, bs, hlen, e⟩
  · exact State.omByte_congr e hresets a
  · calc t.omByte a = (s.writeBytes r.start bs).omByte a :=
          State.omByte_congr (s := s.writeBytes r.start bs) e hresets a
      _ = s.omByte a := State.omByte_writeBytes_outside s (by rw [hlen]; exact ha r hr)

/-- Settles O49: a failed check touches the result registers alone, and otherwise the frame is that of the
command's `Effect`. -/
theorem commandsKeepTheirFrame : Obligations.CommandsKeepTheirFrame := by
  intro i s t h
  rcases exec_inv h with ⟨_, rfl⟩ | ⟨_, _, rfl⟩ | ⟨_, _, he⟩
  · exact ⟨rfl, rfl, rfl, rfl, rfl, rfl, rfl, fun _ _ => rfl, fun hd => absurd rfl hd⟩
  · exact ⟨rfl, rfl, rfl, rfl, rfl, rfl, rfl, fun _ _ => rfl, fun hd => absurd rfl hd⟩
  · have hf := he.frame
    refine ⟨(congrArg State.cmd hf :), (congrArg State.arg hf :), (congrArg State.omAddr hf :), he.params_eq,
      (congrArg State.host hf :), (congrArg State.readData hf :), (congrArg State.resets hf :),
      fun a ha => he.omByte_outside ha, fun hd => usesDigest_cases ?_⟩
    by_contra hu
    exact hd (he.digest.digest_eq (by simpa using hu))

/-! ### What a command does not read -/

/-- `s` with other values in `CMD` and `OM_ADDR` and other parameters. -/
def State.withUnread (s : State) (w a : Word) (k : Config.Params) : State :=
  { s with cmd := w, omAddr := a, params := k }

/-- `s` with other values in every register of which no command but DSAVFY and SRMVFY reads any: the result
registers of an earlier command too (10_state.md R28). -/
def State.disguised (s : State) (c : ResultCode) (r w a : Word) (k : Config.Params) : State :=
  (s.done c r).withUnread w a k

section
variable (s : State) (c : ResultCode) (r w a : Word) (k : Config.Params)

@[simp] theorem State.disguised_digest : (s.disguised c r w a k).digest = s.digest := rfl
@[simp] theorem State.disguised_params : (s.disguised c r w a k).params = k := rfl
@[simp] theorem State.disguised_overlaps : (s.disguised c r w a k).overlaps = s.overlaps := rfl

@[simp] theorem State.disguised_readBytes (x n : Nat) :
    (s.disguised c r w a k).readBytes x n = s.readBytes x n := State.readBytes_congr rfl rfl x n

/-! Every ending of a command sets the result registers anew. -/

@[simp] theorem State.disguised_fail (c' : ResultCode) :
    (s.disguised c r w a k).fail c' = (s.fail c').withUnread w a k := rfl

@[simp] theorem State.disguised_done (c' : ResultCode) (r' : Word) :
    (s.disguised c r w a k).done c' r' = (s.done c' r').withUnread w a k := rfl

@[simp] theorem State.disguised_writeBytes (x : Nat) (bs : List Byte) :
    (s.disguised c r w a k).writeBytes x bs = (s.writeBytes x bs).disguised c r w a k := rfl

@[simp] theorem State.disguised_withDigest (d : Digest) :
    (s.disguised c r w a k).withDigest d = (s.withDigest d).disguised c r w a k := rfl

@[simp] theorem State.disguised_doneUnspecified (x n : Nat) (r' : Word) :
    (s.disguised c r w a k).doneUnspecified x n r' = (s.doneUnspecified x n r').withUnread w a k := rfl

@[simp] theorem State.withUnread_ite (p : Prop) [Decidable p] (t u : State) :
    (if p then t else u).withUnread w a k = if p then t.withUnread w a k else u.withUnread w a k :=
  apply_ite (State.withUnread · w a k) p t u

end

/-- The generic checks read `OM_SIZE` alone (30_encoding.md R92, R97). -/
theorem issue_disguised {i : Instr} {body : State → State} {s : State} {c : ResultCode} {r w a : Word}
    {k : Config.Params} (hk : k.omSize = s.params.omSize)
    (hbody : body (s.disguised c r w a k) = (body s).withUnread w a k) :
    issue i body (s.disguised c r w a k) = (issue i body s).withUnread w a k := by
  simp only [issue, State.disguised_params, hk]
  split
  · rfl
  · split
    · rfl
    · exact hbody

/-- The commands that read the key or `SRM_MIN_HEADER` (10_state.md R38). -/
def readsKey : Instr → Bool
  | .dsavfy _ _ _ _ | .srmvfy _ _ => true
  | _ => false

theorem readsKey_cases {i : Instr} (h : readsKey i = true) :
    (∃ m l r g, i = .dsavfy m l r g) ∨ ∃ b l, i = .srmvfy b l := by
  cases i with
  | dsavfy m l r g => exact .inl ⟨m, l, r, g, rfl⟩
  | srmvfy b l => exact .inr ⟨b, l, rfl⟩
  | _ => cases h

/-- A command passes `CMD`, `OM_ADDR` and the parameters through, and neither they nor the earlier result
registers bear on anything else it leaves. -/
theorem exec_disguised {i : Instr} {s t : State} (c : ResultCode) (r w a : Word) {k : Config.Params}
    (hk : k.omSize = s.params.omSize) (hkey : readsKey i = true → k = s.params) (h : exec i s = .next t) :
    exec i (s.disguised c r w a k) = .next (t.withUnread w a k) := by
  suffices hbody : ∃ body, (∀ u, exec i u = .next (issue i body u))
      ∧ body (s.disguised c r w a k) = (body s).withUnread w a k by
    obtain ⟨body, hx, hb⟩ := hbody
    rw [hx, Host.Outcome.next.injEq] at h
    rw [hx, issue_disguised hk hb, h]
  cases i with
  | copy | fill | rev | cmp | alleq | addc | subb | shaReset | shaInput | mac | mul | div | modred | modmul
  | modexp | ksvvfy => exact ⟨_, fun _ => rfl, by simp⟩
  | shaResult out =>
    by_cases hok : s.digest.result.1 = .ok
    · exact ⟨_, fun _ => rfl, by simp [hok]⟩
    · exact ⟨_, fun _ => rfl, by simp [hok]⟩
  | modinv out x m n =>
    refine ⟨_, fun _ => rfl, ?_⟩
    simp only [State.disguised_readBytes]
    split
    · rfl
    · rfl
  | dsavfy | srmvfy =>
    obtain rfl := hkey rfl
    exact ⟨_, fun _ => rfl, by simp⟩

/-- Settles O53: `exec_disguised` with the state's own parameters, which the command keeps. -/
theorem earlierResultsAreNotRead : Obligations.EarlierResultsAreNotRead := by
  intro i s t c r w a h
  have hkept : t.withUnread w a s.params = { t with cmd := w, omAddr := a } := by
    rw [← exec_params h]; rfl
  rw [← hkept]
  exact exec_disguised c r w a rfl (fun _ => rfl) h

/-- Settles O54: `exec_disguised` with the state's own registers, of which the command keeps `CMD` and
`OM_ADDR`. -/
theorem onlySignatureCommandsReadTheKey : Obligations.OnlySignatureCommandsReadTheKey := by
  intro i s t k hk hdsa hsrm h
  have hkey : readsKey i = true → k = s.params := fun hr => by
    rcases readsKey_cases hr with ⟨m, l, r, g, e⟩ | ⟨b, l, e⟩
    · exact absurd e (hdsa m l r g)
    · exact absurd e (hsrm b l)
  obtain ⟨hcmd, _, haddr, _⟩ := commandsKeepTheirFrame i s t h
  have hkept : t.withUnread s.cmd s.omAddr k = { t with params := k } := by
    rw [← hcmd, ← haddr]; rfl
  rw [← hkept]
  exact exec_disguised s.code s.retval s.cmd s.omAddr hk hkey h

end Sys2Proof.Machine
end

section
/-! PROOFS. The address space (spec/20_memory.md): an access without a meaning is refused (R71), and a command reads
no byte of `OM` outside its read ranges (R79). For the second, how a command ends is said as one value, an `Ending`,
and every command is shown to end the same way in all states it cannot tell apart. -/
namespace Sys2Proof.Machine

/-! ### Undefined accesses (20_memory.md R71) -/

theorem accessDefined_iff (bytes offset : Nat) :
    accessDefined bytes offset = true ↔ bytes = 4 ∧ offset % 4 = 0 ∧ offset < 64 := by
  simp only [accessDefined, Bool.and_eq_true, beq_iff_eq, decide_eq_true_eq, and_assoc]
  exact Iff.rfl

/-- Settles O10: both kinds of access are performed only where `accessDefined` holds. -/
theorem undefinedAccessIsRefused : Obligations.UndefinedAccessIsRefused := by
  intro s bytes offset data rest h
  have hd : ¬accessDefined bytes offset = true := fun hd => h ((accessDefined_iff bytes offset).mp hd)
  refine ⟨fun hread => ?_, fun hwrite => ?_⟩
  · simp [step, hostStep, hread, performAccess, hd]
  · simp [step, hostStep, hwrite, performAccess, hd]

/-! ### How a command ends, as a value -/

/-- Everything a command leaves behind: the digest state, the result registers, the bytes it stores from `start` on
(none when it stores nothing) and the model's count of partly overlapping commands. -/
structure Ending where
  digest : Digest
  code : ResultCode
  retval : Word
  start : Nat
  bytes : List Byte
  overlaps : Nat

/-- `s` after a command with the ending `e`. -/
def State.ending (s : State) (e : Ending) : State :=
  { ((s.withDigest e.digest).writeBytes e.start e.bytes).done e.code e.retval with overlaps := e.overlaps }

/-- An ending with `OK` stores exactly the written range of the command, if it has one. -/
def Ending.Covers (e : Ending) (i : Instr) : Prop :=
  e.code = .ok → ∀ x ∈ writtenRanges i, x = ⟨e.start, e.bytes.length⟩

/-- One ending of two states: the bytes agree where they agreed before or where the ending stores. -/
theorem State.omByte_ending_congr {s u : State} {e : Ending} {a : Nat}
    (h : u.omByte a = s.omByte a ∨ (e.start ≤ a ∧ a < e.start + e.bytes.length)) :
    (u.ending e).omByte a = (s.ending e).omByte a := by
  have hbyte : ∀ v : State, (v.ending e).omByte a = (v.writeBytes e.start e.bytes).omByte a :=
    fun v => State.omByte_congr (s := v.writeBytes e.start e.bytes) rfl rfl a
  rw [hbyte, hbyte, State.omByte_writeBytes, State.omByte_writeBytes]
  split
  · rfl
  · rename_i hout
    exact h.resolve_right hout

/-! ### What a command reads -/

/-- `u` is as `s` in everything the command `i` reads: the parameters, the digest state, the model's count, and of
`OM` the read ranges alone (30_encoding.md R97). -/
structure State.SameInputs (i : Instr) (s u : State) : Prop where
  params : u.params = s.params
  digest : u.digest = s.digest
  overlaps : u.overlaps = s.overlaps
  reads : ∀ x ∈ readRanges i, ∀ a, x.start ≤ a → a < x.start + x.length → u.omByte a = s.omByte a

theorem State.SameInputs.refl (i : Instr) (s : State) : s.SameInputs i s :=
  ⟨rfl, rfl, rfl, fun _ _ _ _ _ => rfl⟩

/-- A part of read range number `k` reads the same. -/
theorem State.SameInputs.readBytes_part {i : Instr} {s u : State} (h : s.SameInputs i u) (k : Nat)
    {a n b m : Nat} (hk : (readRanges i)[k]? = some ⟨a, n⟩) (hlo : a ≤ b) (hhi : b + m ≤ a + n) :
    u.readBytes b m = s.readBytes b m :=
  State.readBytes_eq fun c h1 h2 =>
    h.reads ⟨a, n⟩ (List.mem_of_getElem? hk) c (hlo.trans h1) (h2.trans_le hhi)

/-- Read range number `k` reads the same. -/
theorem State.SameInputs.readBytes_nth {i : Instr} {s u : State} (h : s.SameInputs i u) (k : Nat) {a n : Nat}
    (hk : (readRanges i)[k]? = some ⟨a, n⟩) : u.readBytes a n = s.readBytes a n :=
  h.readBytes_part k hk le_rfl le_rfl

/-- `f`, the rule of the command `i`, has one ending in all the states that `i` cannot tell from `s`. -/
def Determined (i : Instr) (s : State) (f : State → State) : Prop :=
  ∃ e : Ending, e.Covers i ∧ ∀ u, s.SameInputs i u → f u = u.ending e

/-! ### The ways a command ends, each determined -/

namespace Determined
variable {i : Instr} {s : State}

/-- Only what a rule does in the states that `i` cannot tell from `s` matters. -/
theorem congr {f g : State → State} (h : ∀ u, s.SameInputs i u → f u = g u) (hg : Determined i s g) :
    Determined i s f := by
  obtain ⟨e, hcov, he⟩ := hg
  exact ⟨e, hcov, fun u hu => (h u hu).trans (he u hu)⟩

/-- A branch on something `i` reads. -/
theorem ite {p : State → Prop} [DecidablePred p] {f g : State → State}
    (hp : ∀ u, s.SameInputs i u → (p u ↔ p s)) (hf : p s → Determined i s f) (hg : ¬p s → Determined i s g) :
    Determined i s (fun u => if p u then f u else g u) := by
  by_cases h : p s
  · exact (hf h).congr fun u hu => if_pos ((hp u hu).mpr h)
  · exact (hg h).congr fun u hu => if_neg (mt (hp u hu).mp h)

/-- An ending that stores the written range. -/
theorem write_digest {a n : Nat} {d : State → Digest} {bs : State → List Byte} {ret : State → Word}
    (hw : writtenRanges i = [⟨a, n⟩]) (hlen : (bs s).length = n)
    (h : ∀ u, s.SameInputs i u → d u = d s ∧ bs u = bs s ∧ ret u = ret s) :
    Determined i s (fun u => ((u.withDigest (d u)).writeBytes a (bs u)).done .ok (ret u)) := by
  refine ⟨⟨d s, .ok, ret s, a, bs s, s.overlaps⟩, fun _ x hx => ?_, fun u hu => ?_⟩
  · rwa [hw, List.mem_singleton, ← hlen] at hx
  · obtain ⟨hd, hbs, hret⟩ := h u hu
    simp only [State.ending, hd, hbs, hret, ← hu.overlaps]
    rfl

/-- An ending that stores the written range and leaves the digest state alone. -/
theorem write {a n : Nat} {bs : State → List Byte} {ret : State → Word}
    (hw : writtenRanges i = [⟨a, n⟩]) (hlen : (bs s).length = n)
    (h : ∀ u, s.SameInputs i u → bs u = bs s ∧ ret u = ret s) :
    Determined i s (fun u => (u.writeBytes a (bs u)).done .ok (ret u)) :=
  write_digest (d := State.digest) hw hlen fun u hu => ⟨hu.digest, h u hu⟩

/-- An ending that stores nothing: a failure, or the ending of a command without a written range. -/
theorem done {d : State → Digest} {c : State → ResultCode} {ret : State → Word}
    (hw : c s = .ok → writtenRanges i = [])
    (h : ∀ u, s.SameInputs i u → d u = d s ∧ c u = c s ∧ ret u = ret s) :
    Determined i s (fun u => (u.withDigest (d u)).done (c u) (ret u)) := by
  refine ⟨⟨d s, c s, ret s, 0, [], s.overlaps⟩, fun hok x hx => ?_, fun u hu => ?_⟩
  · rw [hw hok] at hx
    exact absurd hx List.not_mem_nil
  · obtain ⟨hd, hc, hret⟩ := h u hu
    simp only [State.ending, hd, hc, hret, ← hu.overlaps]
    rfl

theorem fail {c : ResultCode} (hc : c ≠ .ok) : Determined i s (fun u => u.fail c) :=
  done (d := State.digest) (c := fun _ => c) (ret := fun _ => 0) (fun h => absurd h hc)
    fun _ hu => ⟨hu.digest, rfl, rfl⟩

/-- The free values of a partly overlapping command are drawn by the model's count (log 5, 6). -/
theorem unspecified {w n : Nat} {ret : Nat → Word} (hw : writtenRanges i = [⟨w, n⟩]) :
    Determined i s (fun u => u.doneUnspecified w n (ret u.overlaps)) := by
  refine ⟨⟨s.digest, .ok, ret s.overlaps, w, (List.range n).map fun k => Config.overlapByte s.overlaps (w + k),
    s.overlaps + 1⟩, fun _ x hx => ?_, fun u hu => ?_⟩
  · rw [hw, List.mem_singleton] at hx
    simpa using hx
  · rw [← hu.overlaps, ← hu.digest]
    rfl

/-- The generic checks read `OM_SIZE` alone (30_encoding.md R92). -/
theorem issue {body : State → State} (h : Determined i s body) : Determined i s (issue i body) := by
  refine ite (p := fun _ => lengthsLegal i = false) (fun _ _ => Iff.rfl) (fun _ => fail nofun) fun _ => ?_
  exact ite (p := fun u => rangesInside u.params.omSize i = false) (fun u hu => by rw [hu.params])
    (fun _ => fail nofun) fun _ => h

end Determined

/-! ### Every command is determined -/

/-- An error of the inversion is a failure code (43_modular.md R196). -/
theorem modInverse_error_ne_ok {a m : Nat} {c : ResultCode} (h : modInverse a m = .error c) : c ≠ .ok := by
  rintro rfl
  rcases modInverse_spec a m with ⟨_, e⟩ | ⟨_, _, e⟩ | ⟨_, _, _, e⟩ | ⟨_, _, _, e⟩ | ⟨_, _, _, x, e, _⟩
  all_goals exact nomatch h.symm.trans e

/-- How a command ends is fixed by the parameters, the digest state, the count and the bytes of its read ranges. -/
theorem exec_determined (i : Instr) (s : State) :
    ∃ e : Ending, e.Covers i ∧ ∀ u, s.SameInputs i u → exec i u = .next (u.ending e) := by
  suffices hbody : ∃ body, (∀ u, exec i u = .next (issue i body u)) ∧ Determined i s body by
    obtain ⟨body, hx, hb⟩ := hbody
    obtain ⟨e, hcov, he⟩ := hb.issue
    exact ⟨e, hcov, fun u hu => by rw [hx, he u hu]⟩
  cases i with
  | copy dst src n =>
    exact ⟨_, fun _ => rfl, .ite (fun _ _ => Iff.rfl) (fun _ => .unspecified (ret := fun _ => 0) rfl)
      fun _ => .write rfl (by simp) fun u hu => by simp [hu.readBytes_nth 0 rfl]⟩
  | fill dst v n => exact ⟨_, fun _ => rfl, .write rfl (by simp) fun _ _ => ⟨rfl, rfl⟩⟩
  | rev buf n =>
    exact ⟨_, fun _ => rfl, .write rfl (by simp) fun u hu => by simp [hu.readBytes_nth 0 rfl]⟩
  | cmp a b n =>
    exact ⟨_, fun _ => rfl, .done (d := State.digest) (fun _ => rfl) fun u hu => by
      simp [hu.digest, hu.readBytes_nth 0 rfl, hu.readBytes_nth 1 rfl]⟩
  | alleq a v n =>
    exact ⟨_, fun _ => rfl, .done (d := State.digest) (fun _ => rfl) fun u hu => by
      simp [hu.digest, hu.readBytes_nth 0 rfl]⟩
  | addc out a b n | subb out a b n =>
    exact ⟨_, fun _ => rfl, .ite (fun _ _ => Iff.rfl) (fun _ => .unspecified rfl) fun _ =>
      .write rfl (by simp) fun u hu => by simp [hu.readBytes_nth 0 rfl, hu.readBytes_nth 1 rfl]⟩
  | shaReset =>
    exact ⟨_, fun _ => rfl, .done (fun _ => rfl) fun u hu => by simp [hu.digest]⟩
  | shaInput data length =>
    exact ⟨_, fun _ => rfl, .done (fun _ => rfl) fun u hu => by simp [hu.digest, hu.readBytes_nth 0 rfl]⟩
  | shaResult out =>
    exact ⟨_, fun _ => rfl, .ite (fun u hu => by rw [hu.digest])
      (fun _ => .write_digest rfl (HashWords.bytes_length _) fun u hu => by simp [hu.digest])
      fun hne => .done (fun hok => absurd hok hne) fun u hu => by simp [hu.digest]⟩
  | mac w a v n =>
    exact ⟨_, fun _ => rfl, .ite (fun _ _ => Iff.rfl) (fun _ => .unspecified rfl) fun _ =>
      .write rfl (by simp [macPass]) fun u hu => by simp [hu.readBytes_nth 0 rfl, hu.readBytes_nth 1 rfl]⟩
  | mul out a b n =>
    exact ⟨_, fun _ => rfl, .ite (fun _ _ => Iff.rfl) (fun _ => .fail nofun) fun _ =>
      .write rfl (by rw [(mulBytes_spec _ _).2]; simp; omega)
        fun u hu => by simp [hu.readBytes_nth 0 rfl, hu.readBytes_nth 1 rfl]⟩
  | div out a b n =>
    exact ⟨_, fun _ => rfl, .ite (fun u hu => by simp [hu.readBytes_nth 1 rfl]) (fun _ => .fail nofun) fun _ =>
      .write rfl (by simp; omega) fun u hu => by simp [hu.readBytes_nth 0 rfl, hu.readBytes_nth 1 rfl]⟩
  | modred out a m n k =>
    exact ⟨_, fun _ => rfl, .ite (fun u hu => by simp [hu.readBytes_nth 1 rfl]) (fun _ => .fail nofun) fun _ =>
      .write rfl (by simp) fun u hu => by simp [hu.readBytes_nth 0 rfl, hu.readBytes_nth 1 rfl]⟩
  | modmul out a b m n | modexp out a b m n k =>
    exact ⟨_, fun _ => rfl, .ite (fun u hu => by simp [hu.readBytes_nth 2 rfl]) (fun _ => .fail nofun) fun _ =>
      .write rfl (by simp) fun u hu => by
        simp [hu.readBytes_nth 0 rfl, hu.readBytes_nth 1 rfl, hu.readBytes_nth 2 rfl]⟩
  | modinv out a m n =>
    refine ⟨_, fun _ => rfl, ?_⟩
    cases h : modInverse (intLe (s.readBytes a.toNat n.toNat)) (intLe (s.readBytes m.toNat n.toNat)) with
    | error c =>
      exact .congr (fun u hu => by simp only [hu.readBytes_nth 0 rfl, hu.readBytes_nth 1 rfl, h])
        (.fail (modInverse_error_ne_ok h))
    | ok x =>
      exact .congr (fun u hu => by simp only [hu.readBytes_nth 0 rfl, hu.readBytes_nth 1 rfl, h])
        (.write (bs := fun _ => leBytes n.toNat x) (ret := fun _ => 1) rfl (by simp) fun _ _ => ⟨rfl, rfl⟩)
  | dsavfy m k r g =>
    exact ⟨_, fun _ => rfl, .done (fun _ => rfl) fun u hu => by
      simp [hu.params, hu.digest, hu.readBytes_nth 0 rfl, hu.readBytes_nth 1 rfl, hu.readBytes_nth 2 rfl]⟩
  | ksvvfy b k =>
    refine ⟨_, fun _ => rfl, .ite (fun _ _ => Iff.rfl) (fun _ => .fail nofun) fun hk => ?_⟩
    simp only [Config.ksvHeaderSize, Config.digestSize] at hk ⊢
    have hmsg {u} (hu : s.SameInputs (.ksvvfy b k) u) :=
      hu.readBytes_part 0 (b := b.toNat) (m := k.toNat - 20) rfl le_rfl (by omega)
    have htail {u} (hu : s.SameInputs (.ksvvfy b k) u) :=
      hu.readBytes_part 0 (b := b.toNat + (k.toNat - 20)) (m := 20) rfl (by omega) (by omega)
    exact .ite (fun u hu => by rw [hu.digest, hmsg hu])
      (fun _ => .done (fun _ => rfl) fun u hu => by simp [hu.digest, hmsg hu, htail hu])
      fun _ => .done (fun _ => rfl) fun u hu => by simp [hu.digest, hmsg hu]
  | srmvfy b k =>
    refine ⟨_, fun _ => rfl, .ite (fun u hu => by rw [hu.params]) (fun _ => .fail nofun) fun hk => ?_⟩
    simp only [Config.sigSize] at hk ⊢
    exact .done (fun _ => rfl) fun u hu => by
      have hmsg := hu.readBytes_part 0 (b := b.toNat) (m := k.toNat - 2 * 20) rfl le_rfl (by omega)
      have hr := hu.readBytes_part 0 (b := b.toNat + (k.toNat - 2 * 20)) (m := 20) rfl (by omega) (by omega)
      have hs := hu.readBytes_part 0 (b := b.toNat + (k.toNat - 2 * 20) + 20) (m := 20) rfl (by omega) (by omega)
      rw [hu.params, hu.digest, hmsg, hr, hs]
      exact ⟨rfl, rfl, rfl⟩

/-- Settles O55: a command has the same ending on both memories, and both results are read off it. -/
theorem commandsReadOnlyTheirRanges : Obligations.CommandsReadOnlyTheirRanges := by
  intro i s t m ht hm
  obtain ⟨e, hcov, he⟩ := exec_determined i s
  obtain rfl : t = s.ending e := exec_det ht (he s (.refl i s))
  refine ⟨_, he (s.withOm m) ⟨rfl, rfl, rfl, hm⟩, rfl, fun a ha => State.omByte_ending_congr ?_⟩
  rcases ha with hold | ⟨hok, x, hx, hlo, hhi⟩
  · exact .inl hold
  · rw [hcov hok x hx] at hlo hhi
    exact .inr ⟨hlo, hhi⟩

end Sys2Proof.Machine
end

section
/-! PROOFS. The encoding (spec/30_encoding.md): the decoder and the encoder are inverse to each other (R90, R93, R100),
a word outside the opcode map only reports (R98), the generic checks come before everything else (R92, R254), and the
three commands of the pseudo-instruction SHA1 (R102). -/
namespace Sys2Proof.Machine

/-! ### Decoding what was encoded (R90, R93, R100) -/

/-- No command has more operands than there are argument registers (R93). -/
theorem encodeOperands_length_le (i : Instr) : (encodeOperands i).length ≤ 6 := by
  cases i <;> exact Nat.le_of_ble_eq_true rfl

/-- The argument registers of an operand list hold its operands. -/
theorem argsOf_getElem? {ops : List Word} (hlen : ops.length ≤ 6) {k : Nat} {v : Word} (h : ops[k]? = some v) :
    (argsOf ops)[k]? = some v := by
  have hk : k < 6 := (List.getElem?_eq_some_iff.mp h).1.trans_le hlen
  rw [Vector.getElem?_eq_getElem hk]
  simp [argsOf, h]

/-- The opcode of a command, with its operands in the first argument registers, decodes to the command. -/
theorem decodeOp_encodeWord {i : Instr} {g : Args}
    (h : ∀ k v, ∀ hk : k < 6, (encodeOperands i)[k]? = some v → g[k] = v) :
    decodeOp (opField (encodeWord i)).toNat g = some i := by
  cases i with
  | shaReset => rfl
  | shaResult => simp [decodeOp, opField, encodeWord, h 0 _ _ rfl]
  | rev | shaInput | ksvvfy | srmvfy =>
    simp [decodeOp, opField, encodeWord, h 0 _ _ rfl, h 1 _ _ rfl]
  | copy | fill | cmp | alleq =>
    simp [decodeOp, opField, encodeWord, h 0 _ _ rfl, h 1 _ _ rfl, h 2 _ _ rfl]
  | addc | subb | mac | mul | div | modinv | dsavfy =>
    simp [decodeOp, opField, encodeWord, h 0 _ _ rfl, h 1 _ _ rfl, h 2 _ _ rfl, h 3 _ _ rfl]
  | modred | modmul =>
    simp [decodeOp, opField, encodeWord, h 0 _ _ rfl, h 1 _ _ rfl, h 2 _ _ rfl, h 3 _ _ rfl, h 4 _ _ rfl]
  | modexp =>
    simp [decodeOp, opField, encodeWord, h 0 _ _ rfl, h 1 _ _ rfl, h 2 _ _ rfl, h 3 _ _ rfl, h 4 _ _ rfl,
      h 5 _ _ rfl]

theorem encoded_encode (i : Instr) : Encoded i (encodeWord i) (encodeOperands i) :=
  encoded_of (encodeWord_zField i) fun _ => decodeOp_encodeWord

/-- Settles O1: the registers of `encode` are one case of what `encoded_encode` allows. -/
theorem decodeReadsEveryEncodedCommand : Obligations.DecodeReadsEveryEncodedCommand := by
  intro i
  have hfit := encodeOperands_length_le i
  exact ⟨encoded_encode i _ fun _ _ => argsOf_getElem? hfit, encoded_encode i⟩

/-! ### What a decoded word is (R90, R93 to R96) -/

/-- The operand word `v` is the argument register `u`, in full or by its low byte (R94, R95). -/
def ReadsRegister (u v : Word) : Prop := u = v ∨ v.toNat = u.toNat % 256

@[simp] theorem readsRegister_word (u : Word) : ReadsRegister u u := .inl rfl

@[simp] theorem readsRegister_byte (u : Word) : ReadsRegister u ((byteOperand u).setWidth 32) := by
  refine .inr ?_
  simp only [byteOperand, BitVec.extractLsb'_toNat, BitVec.toNat_setWidth, Nat.shiftRight_zero]
  omega

/-- The operand list, in its order, is read from the argument registers from `ARG[j]` on (R93). -/
def ReadFrom (g : Args) : Nat → List Word → Prop
  | _, [] => True
  | j, v :: vs => (∃ u, g[j]? = some u ∧ ReadsRegister u v) ∧ ReadFrom g (j + 1) vs

theorem ReadFrom.getElem? {g : Args} {j k : Nat} {ops : List Word} {v : Word} (h : ReadFrom g j ops)
    (hk : ops[k]? = some v) : ∃ u, g[j + k]? = some u ∧ ReadsRegister u v := by
  induction ops generalizing j k with
  | nil => cases hk
  | cons x xs ih =>
    obtain ⟨hx, hxs⟩ := h
    cases k with
    | zero => cases hk; exact hx
    | succ k =>
      rw [← Nat.succ_add_eq_add_succ]
      exact ih hxs hk

/-- Everything the opcode map can answer: the command of that opcode, its operands the first argument registers. -/
theorem decodeOp_some {op : Nat} {g : Args} {i : Instr} (h : decodeOp op g = some i) :
    op = (encodeWord i).toNat ∧ ReadFrom g 0 (encodeOperands i) := by
  unfold decodeOp at h
  split at h
  case h_21 => cases h
  all_goals
    cases h
    exact ⟨rfl, by simp [ReadFrom, encodeOperands]⟩

/-- Everything a legal word can be: an opcode of R100 with zeros above it (R90), its operands in the registers (R93). -/
theorem decode_inv {w : Word} {g : Args} {i : Instr} (h : decode w g = .ok i) :
    w = encodeWord i ∧ w.toNat < 256 ∧ ReadFrom g 0 (encodeOperands i) := by
  obtain ⟨hz, hop⟩ := decode_ok h
  obtain ⟨hword, hread⟩ := decodeOp_some hop
  have hfields : w.toNat = (opField w).toNat := by rw [word_toNat, hz]; rfl
  exact ⟨BitVec.eq_of_toNat_eq (hfields.trans hword), hfields ▸ (opField w).isLt, hread⟩

/-- Settles O2, from the inversion of the opcode map. -/
theorem decodedOperandsAreTheRegisters : Obligations.DecodedOperandsAreTheRegisters := by
  intro w g i h
  obtain ⟨hword, hlow, hread⟩ := decode_inv h
  refine ⟨hword, hlow, fun k v hk => ?_⟩
  obtain ⟨u, hu, hv⟩ := hread.getElem? hk
  exact ⟨u, by rwa [Nat.zero_add] at hu, hv⟩

/-- Settles O3: each word is evaluated on its registers. -/
theorem sampleCommandWordsDecode : Obligations.SampleCommandWordsDecode :=
  ⟨rfl, rfl, rfl, rfl, rfl, rfl⟩

/-! ### Issuing a word (R92, R98) -/

/-- A word that is none of the twenty of R100 does not decode. -/
theorem decode_error_of_not_mem {w : Word} (g : Args) (h : w ∉ ([0x01, 0x02, 0x03, 0x04, 0x05, 0x06, 0x07,
    0x10, 0x11, 0x12, 0x20, 0x21, 0x22, 0x30, 0x31, 0x32, 0x33, 0x40, 0x41, 0x42] : List Word)) :
    ∃ e, decode w g = .error e := by
  cases hd : decode w g with
  | error e => exact ⟨e, rfl⟩
  | ok i => exact absurd ((decode_inv hd).1 ▸ encodeWord_mem i) h

/-- Settles O5: the issue of a word that does not decode. -/
theorem illegalWordOnlyReports : Obligations.IllegalWordOnlyReports := by
  intro s w rest h hw
  obtain ⟨e, he⟩ := decode_error_of_not_mem s.arg hw
  have hissue : issueCommand w (s.withHost rest) = .next (((s.withHost rest).withCmd w).fail .illegal) := by
    simp [issueCommand, he]
  rw [step_write h rfl]
  exact hissue

/-- The words a table row's bits are cut into decode to its command (R90). -/
theorem decode_of_decodeTableWord {nbits w : Nat} {i : Instr} (h : decodeTableWord nbits w = some i) :
    decode (tableWord nbits w 0) (tableArgs nbits w) = .ok i := by
  unfold decodeTableWord at h
  split at h
  · rename_i j hj
    cases h
    exact hj
  · cases h

/-- Settles O6: the presented command is a write of `CMD` with its operand words in `ARG`. -/
theorem presentedCommandRunsNext : Obligations.PresentedCommandRunsNext := by
  intro s nbits w i h
  exact stepRunsTheIssuedCommand (s.withFetchWord nbits w) _ i s.host rfl (decode_of_decodeTableWord h)

/-! ### The generic checks (R92, R254) -/

/-- SHA_INPUT answers `OK` or `CORRUPT` (41_sha1.md R142, R143). -/
theorem Digest.input_code (d : Digest) (bs : List Byte) :
    (d.input bs).1 = .ok ∨ (d.input bs).1 = .corrupt := by
  by_cases hr : bs = [] ∨ d.fin = true ∨ d.cor = true
  · rw [Digest.input_refuses hr]
    exact .inr rfl
  · simp only [not_or, Bool.not_eq_true] at hr
    obtain ⟨h0, hf, hc⟩ := hr
    rcases Digest.input_open h0 hf hc with ⟨hok, _⟩ | ⟨hcorrupt, _⟩
    · exact .inl hok
    · exact .inr hcorrupt

/-- SHA_RESULT answers `OK` or `CORRUPT` (41_sha1.md R147). -/
theorem Digest.result_code (d : Digest) : d.result.1 = .ok ∨ d.result.1 = .corrupt := by
  cases hc : d.cor with
  | true => rw [Digest.result_corrupted hc]; exact .inr rfl
  | false =>
    cases hf : d.fin with
    | true => rw [Digest.result_final hc hf]; exact .inl rfl
    | false => rw [Digest.result_pads hc hf]; exact .inl rfl

/-- The codes the generic checks end with (60_exceptions.md R254). -/
def ResultCode.ofCheck : ResultCode → Bool
  | .badarg | .range => true
  | _ => false

theorem ResultCode.ofCheck_iff (c : ResultCode) : c.ofCheck = true ↔ c = .badarg ∨ c = .range := by
  cases c <;> decide

theorem VerifyEffect.code_ofCheck {s t : State} (h : VerifyEffect s t) : t.code.ofCheck = false := by
  rcases h with ⟨_, hc | hc | hc | hc⟩ | ⟨_, hc⟩ | ⟨hc | hc, _⟩
  all_goals rw [hc]; rfl

/-- A command whose generic checks pass ends with neither of their codes. -/
theorem DigestEffect.code_ofCheck {i : Instr} {s t : State} (h : DigestEffect s t i) :
    t.code.ofCheck = false := by
  cases i with
  | shaInput data length =>
    rw [h.2]
    rcases s.digest.input_code (s.readBytes data.toNat length.toNat) with hc | hc
    all_goals rw [hc]; rfl
  | shaResult out =>
    rw [h.2]
    rcases s.digest.result_code with hc | hc
    all_goals rw [hc]; rfl
  | mul | div | modred | modmul | modexp =>
    rcases h.2 with hc | hc
    all_goals rw [hc]; rfl
  | modinv =>
    rcases h.2 with hc | hc | hc | hc
    all_goals rw [hc]; rfl
  | dsavfy => exact h.1.code_ofCheck
  | ksvvfy =>
    rcases h with ⟨_, hc⟩ | ⟨hc, _⟩
    all_goals rw [hc]; rfl
  | srmvfy => exact VerifyEffect.code_ofCheck h
  | _ => rw [h.2]; rfl

/-- Settles O48, by the three ways a command goes: an illegal length, a range outside `OM`, its own rule. -/
theorem genericChecksComeFirst : Obligations.GenericChecksComeFirst := by
  intro i s t h
  rcases exec_inv h with ⟨hw, rfl⟩ | ⟨hw, hr, rfl⟩ | ⟨hw, hr, he⟩
  · exact ⟨by simp [hw], by simp [hw], fun _ => rfl⟩
  · exact ⟨by simp [hw], iff_of_true rfl ⟨hw, hr⟩, fun _ => rfl⟩
  · have hown : ¬(t.code = .badarg ∨ t.code = .range) := by
      rw [← ResultCode.ofCheck_iff, he.digest.code_ofCheck]
      exact Bool.false_ne_true
    obtain ⟨hbadarg, hrange⟩ := not_or.mp hown
    exact ⟨by simp [hw, hbadarg], iff_of_false hrange fun hc => hc.2 hr, fun hc => absurd hc hown⟩

/-! ### The pseudo-instruction SHA1 (R102) -/

/-- SHA_RESULT on a digest state that holds a message delivers its digest (41_sha1.md R147 to R149). -/
theorem exec_shaResult_holds {out : Word} {s : State} {m : List Byte} (hin : s.Inside out 20)
    (hm : s.digest.Holds m) :
    ∃ t, exec (.shaResult out) s = .next t ∧ { s with digest := t.digest }.EndsWriting t 1 out.toNat 20
      ∧ t.digest.Finalized ∧ t.readBytes out.toNat 20 = sha1 m := by
  have hfinal : ({ s.digest.pad with fin := true } : Digest).Finalized := by
    refine ⟨?_, Digest.mk_fin ..⟩
    rw [Digest.finalized_cor, Digest.pad_cor, hm.notCorrupted]
  refine ⟨_, exec_shaResult_open hin hm.notCorrupted hm.notFinal, ?_, hfinal, ?_⟩
  · exact endsWriting_done (s.withDigest { s.digest.pad with fin := true }) _ _ _ _ (HashWords.bytes_length _)
  · rw [State.readBytes_done, State.readBytes_writeBytes' _ (HashWords.bytes_length _), hm.pad, sha1]

/-- Settles O30: the reset holds the empty message, the input extends it by the range, the result delivers its
digest. -/
theorem shaSequenceDigestsTheRange : Obligations.ShaSequenceDigestsTheRange := by
  intro data length out s hn hdata hout
  have hfit : 8 * (([] : List Byte).length + length.toNat) < 2 ^ 64 := by
    have := length.isLt
    simp only [List.length_nil]
    omega
  obtain ⟨u, hu, hframe, hholds⟩ := shaInputExtendsTheMessage data length
    ((s.withDigest s.digest.restart).done .ok 0) [] s.digest.restart_holds hn hdata hfit
  rw [List.nil_append, State.readBytes_done] at hholds
  have hsame : u.params = s.params ∧ u.om = s.om ∧ u.resets = s.resets := by
    rw [hframe]; exact ⟨rfl, rfl, rfl⟩
  obtain ⟨hparams, hom, hresets⟩ := hsame
  have houtu : u.Inside out 20 := by rw [State.Inside, hparams]; exact hout
  obtain ⟨v, hv, ⟨hend, hbytes⟩, hfinal, hdigest⟩ := exec_shaResult_holds houtu hholds
  refine ⟨_, u, v, exec_shaReset s, hu, hv, (congrArg State.code hend :), (congrArg State.retval hend :), hdigest,
    hfinal, fun a ha => ?_⟩
  rw [hbytes a ha]
  exact State.omByte_congr hom hresets a

end Sys2Proof.Machine
end

section
/-! PROOFS. The byte-array commands (spec/40_byte_array.md): COPY, FILL and REV on bytes, CMP and ALLEQ as tests, ADDC
and SUBB on numbers. Each is its generic checks (R92) and its own rule; the shared endings and the carry chain say what
the rule leaves. -/
namespace Sys2Proof.Machine

/-! ### A command with one length operand (30_encoding.md R92, R96, R97) -/

/-- The generic checks of a command whose only length is `n` and whose ranges lie inside `OM` exactly if `P`: its two
failures, and past them its own rule. -/
theorem generic_checks {i : Instr} {body : State → State} {s : State} {n : Word} {P : Prop}
    (he : exec i s = .next (issue i body s)) (hw : i.wellFormed = wfLength n) (hr : s.Reaches i ↔ P) :
    (n.toNat = 0 → Fails i s .badarg) ∧ (n.toNat ≠ 0 → ¬P → Fails i s .range)
      ∧ (n.toNat ≠ 0 → P → exec i s = .next (body s)) := by
  have hlegal : n.toNat ≠ 0 → i.wellFormed = true := fun hn => by
    rw [hw, wfLength_iff]
    omega
  refine ⟨fun h0 => fails_badarg ?_, fun hn hP => fails_range (hlegal hn) (mt hr.mp hP),
    fun hn hP => exec_runs he (hlegal hn) (hr.mpr hP)⟩
  simp [hw, wfLength, h0]

/-! The ranges of each command lie inside `OM` (R97). -/

theorem reaches_copy (s : State) (dst src n : Word) :
    s.Reaches (.copy dst src n) ↔ s.Inside src n.toNat ∧ s.Inside dst n.toNat := by
  simp [State.Reaches, readRanges, writtenRanges, rangeOf]

theorem reaches_fill (s : State) (dst : Word) (v : Byte) (n : Word) :
    s.Reaches (.fill dst v n) ↔ s.Inside dst n.toNat := by
  simp [State.Reaches, readRanges, writtenRanges, rangeOf]

theorem reaches_rev (s : State) (buf n : Word) : s.Reaches (.rev buf n) ↔ s.Inside buf n.toNat := by
  simp [State.Reaches, readRanges, writtenRanges, rangeOf]

theorem reaches_cmp (s : State) (a b n : Word) :
    s.Reaches (.cmp a b n) ↔ s.Inside a n.toNat ∧ s.Inside b n.toNat := by
  simp [State.Reaches, readRanges, writtenRanges, rangeOf]

theorem reaches_alleq (s : State) (a : Word) (v : Byte) (n : Word) :
    s.Reaches (.alleq a v n) ↔ s.Inside a n.toNat := by
  simp [State.Reaches, readRanges, writtenRanges, rangeOf]

theorem reaches_addc (s : State) (out a b n : Word) :
    s.Reaches (.addc out a b n) ↔ s.Inside a n.toNat ∧ s.Inside b n.toNat ∧ s.Inside out n.toNat := by
  simp [State.Reaches, readRanges, writtenRanges, rangeOf]

/-- SUBB reads and writes the ranges ADDC does. -/
theorem reaches_subb (s : State) (out a b n : Word) :
    s.Reaches (.subb out a b n) ↔ s.Inside a n.toNat ∧ s.Inside b n.toNat ∧ s.Inside out n.toNat :=
  reaches_addc s out a b n

/-! ### What a command that writes one range leaves -/

/-- A command that ends with `OK` after writing `bs`: the range holds `bs`, nothing else changed. -/
theorem writes_bytes {i : Instr} {s : State} {w n : Nat} {bs : List Byte} {ret : Word}
    (he : exec i s = .next ((s.writeBytes w bs).done .ok ret)) (hl : bs.length = n) :
    ∃ t, exec i s = .next t ∧ s.EndsWriting t ret w n ∧ t.readBytes w n = bs := by
  refine ⟨_, he, endsWriting_done s w n bs ret hl, ?_⟩
  rw [State.readBytes_done, State.readBytes_writeBytes' _ hl]

/-- The two endings of a command that writes `bs` if its ranges are clean and leaves free bytes otherwise (R128). -/
theorem writes_if_clean {i : Instr} {s : State} {w n : Nat} {bs : List Byte} {ret free : Word} {partly : Bool}
    {clean : Prop} (hp : partly = true ↔ ¬clean) (he : exec i s = .next
      (if partly then s.doneUnspecified w n free else (s.writeBytes w bs).done .ok ret)) (hl : bs.length = n) :
    (clean → ∃ t, exec i s = .next t ∧ s.EndsWriting t ret w n ∧ t.readBytes w n = bs)
      ∧ (¬clean → ∃ t, exec i s = .next t ∧ s.EndsUnspecified t w n ∧ t.retval = free) := by
  refine ⟨fun hclean => ?_, fun hpartly => ?_⟩
  · rw [if_neg (mt hp.mp (not_not_intro hclean))] at he
    exact writes_bytes he hl
  · rw [if_pos (hp.mpr hpartly)] at he
    exact ⟨_, he, endsUnspecified_done .., rfl⟩

/-- The written range partly overlaps one of two inputs unless it is clean of both (R128). -/
theorem partlyOverlaps_or_iff (w r q n : Nat) :
    (partlyOverlaps w r n || partlyOverlaps w q n) = true ↔ ¬(CleanRanges w r n ∧ CleanRanges w q n) := by
  rw [Bool.or_eq_true, partlyOverlaps_iff, partlyOverlaps_iff, not_and_or]

/-- One byte of a range whose sequence is known. -/
theorem State.omByte_of_readBytes {t : State} {a n k : Nat} {bs : List Byte} (h : t.readBytes a n = bs)
    (hk : k < bs.length) : t.omByte (a + k) = bs[k] := by
  subst h
  rw [State.readBytes_getElem]

/-! ### COPY, FILL and REV (R121 to R123, R128) -/

/-- Settles O16: COPY writes what it read from `src`, if the ranges are clean. -/
theorem copyMovesTheRange : Obligations.CopyMovesTheRange := by
  intro dst src n s
  obtain ⟨hbadarg, hrange, hruns⟩ := generic_checks (i := .copy dst src n) rfl rfl (reaches_copy s dst src n)
  exact ⟨encoded_encode (.copy dst src n), hbadarg, hrange, fun hn hsrc hdst =>
    writes_if_clean (partlyOverlaps_iff ..) (hruns hn ⟨hsrc, hdst⟩) (State.readBytes_length ..)⟩

/-- Settles O17: the range holds `n` copies of the byte. -/
theorem fillStoresTheByte : Obligations.FillStoresTheByte := by
  intro dst v n s
  obtain ⟨hbadarg, hrange, hruns⟩ := generic_checks (i := .fill dst (byteOperand v) n) rfl rfl (reaches_fill ..)
  refine ⟨encoded_of rfl fun g hg => ?_, hbadarg, hrange, fun hn hdst => ?_⟩
  · simp [decodeOp, opField, byteOperand, hg 0 _ _ rfl, hg 1 _ _ rfl, hg 2 _ _ rfl]
  · obtain ⟨t, ht, hend, hbytes⟩ := writes_bytes (hruns hn hdst) List.length_replicate
    refine ⟨t, ht, hend, fun k hk => ?_⟩
    rw [State.omByte_of_readBytes hbytes (by simpa using hk), List.getElem_replicate, byteOperand]

/-- Settles O18: the range holds the reversed sequence, and `int_be` is `int_le` of the reversal (R13). -/
theorem revReversesTheRange : Obligations.RevReversesTheRange := by
  intro buf n s
  obtain ⟨hbadarg, hrange, hruns⟩ := generic_checks (i := .rev buf n) rfl rfl (reaches_rev s buf n)
  refine ⟨encoded_encode (.rev buf n), hbadarg, hrange, fun hn hbuf => ?_⟩
  obtain ⟨t, ht, hend, hbytes⟩ := writes_bytes (n := n.toNat) (hruns hn hbuf) (by simp)
  refine ⟨t, ht, hend, fun k hk => ?_, congrArg intLe hbytes⟩
  rw [State.omByte_of_readBytes hbytes (by simpa using hk), List.getElem_reverse, State.readBytes_getElem,
    State.readBytes_length]

/-! ### CMP and ALLEQ (R124, R125) -/

/-- The numeral of an order, by its two strict comparisons. -/
theorem orderRet_compare (x y : Nat) :
    orderRet (compare x y) = if y < x then 1 else if x < y then 2 else 0 := by
  rcases lt_trichotomy x y with h | h | h
  · rw [compare_lt_iff_lt.mpr h, if_neg h.asymm, if_pos h, orderRet]
  · rw [compare_eq_iff_eq.mpr h, if_neg (by omega), if_neg (by omega), orderRet]
  · rw [compare_gt_iff_gt.mpr h, if_pos h, orderRet]

/-- Settles O19: the scan from the top index compares the numbers (`compareBytes_reverse`). -/
theorem cmpOrdersTheNumbers : Obligations.CmpOrdersTheNumbers := by
  intro a b n s
  obtain ⟨hbadarg, hrange, hruns⟩ := generic_checks (i := .cmp a b n) rfl rfl (reaches_cmp s a b n)
  refine ⟨encoded_encode (.cmp a b n), hbadarg, hrange, fun hn ha hb => ?_⟩
  have hrun := hruns hn ⟨ha, hb⟩
  rw [compareBytes_reverse (by simp), orderRet_compare] at hrun
  exact hrun

/-- The test of ALLEQ speaks of every byte of the range. -/
theorem State.readBytes_all_eq_iff (s : State) (a n : Nat) (v : Byte) :
    ((s.readBytes a n).all fun b => b == v) = true ↔ ∀ k < n, s.omByte (a + k) = v := by
  simp [State.readBytes]

/-- Settles O20: the truth value of the test, returned as 1 or 0. -/
theorem alleqTestsEveryByte : Obligations.AlleqTestsEveryByte := by
  intro a v n s
  obtain ⟨hbadarg, hrange, hruns⟩ := generic_checks (i := .alleq a (byteOperand v) n) rfl rfl (reaches_alleq ..)
  refine ⟨encoded_of rfl fun g hg => ?_, hbadarg, hrange, fun hn ha => ?_⟩
  · simp [decodeOp, opField, byteOperand, hg 0 _ _ rfl, hg 1 _ _ rfl, hg 2 _ _ rfl]
  · have hrun := hruns hn ha
    simp only [boolRet, State.readBytes_all_eq_iff] at hrun
    exact hrun

/-! ### ADDC and SUBB (R126 to R128) -/

section
variable {as bs : List Byte} {n : Nat} (ha : as.length = n) (hb : bs.length = n)
include ha hb

/-- The chain of ADDC on two `n`-byte numbers: the sum modulo `256^n`, and the quotient as its carry (R126). -/
theorem ripple_addTerms : intLe (ripple (addTerms as bs) 0).1 = (intLe as + intLe bs) % 256 ^ n
    ∧ (carryRet (ripple (addTerms as bs) 0).2).toNat = (intLe as + intLe bs) / 256 ^ n := by
  have hltA : intLe as < 256 ^ n := ha ▸ intLe_lt as
  have hltB : intLe bs < 256 ^ n := hb ▸ intLe_lt bs
  obtain ⟨hvalue, hcarry⟩ := ripple_value (addTerms as bs) 0
  rw [sumLe_addTerms (ha.trans hb.symm), addTerms_length, ha, hb, min_self, Nat.add_zero] at hvalue hcarry
  have hbit : (intLe as + intLe bs) / 256 ^ n < 2 := by
    rw [Nat.div_lt_iff_lt_mul (by positivity)]
    omega
  refine ⟨hvalue, ?_⟩
  rw [carryRet, hcarry, BitVec.toNat_ofNat, Nat.mod_eq_of_lt (hbit.trans (by norm_num))]

/-- The chain of SUBB on two `n`-byte numbers: the difference modulo `256^n`, and the borrow, which is 1 minus the
final carry of `a + ~b + 1` (R127). -/
theorem ripple_subTerms : intLe (ripple (subTerms as bs) 1).1 = (256 ^ n + intLe as - intLe bs) % 256 ^ n
    ∧ borrowRet (ripple (subTerms as bs) 1).2 = if intLe as < intLe bs then 1 else 0 := by
  have hltA : intLe as < 256 ^ n := ha ▸ intLe_lt as
  have hltB : intLe bs < 256 ^ n := hb ▸ intLe_lt bs
  have htotal : sumLe (subTerms as bs) + 1 = 256 ^ n + intLe as - intLe bs := by
    have hsum := sumLe_subTerms (ha.trans hb.symm)
    rw [ha] at hsum
    omega
  obtain ⟨hvalue, hcarry⟩ := ripple_value (subTerms as bs) 1
  rw [subTerms_length, ha, hb, min_self, htotal] at hvalue hcarry
  refine ⟨hvalue, ?_⟩
  rw [borrowRet, hcarry]
  split
  · rw [Nat.div_eq_of_lt (by omega)]; rfl
  · rw [Nat.div_eq_of_lt_le (k := 1) (by omega) (by omega)]; rfl

end

/-- Settles O21: ADDC writes the carry chain's bytes and returns its carry, if `out` is clean of both inputs. -/
theorem addcAddsAndReturnsTheCarry : Obligations.AddcAddsAndReturnsTheCarry := by
  intro out a b n s
  obtain ⟨hbadarg, hrange, hruns⟩ := generic_checks (i := .addc out a b n) rfl rfl (reaches_addc s out a b n)
  refine ⟨encoded_encode (.addc out a b n), hbadarg, hrange, fun hn ha hb hout => ?_⟩
  obtain ⟨hclean, hpartly⟩ := writes_if_clean (n := n.toNat) (partlyOverlaps_or_iff ..) (hruns hn ⟨ha, hb, hout⟩)
    (by simp)
  refine ⟨fun hcleanA hcleanB => ?_, fun h => ?_⟩
  · obtain ⟨t, ht, hend, hbytes⟩ := hclean ⟨hcleanA, hcleanB⟩
    obtain ⟨hvalue, hcarry⟩ := ripple_addTerms (s.readBytes_length a.toNat n.toNat) (s.readBytes_length b.toNat n.toNat)
    have hret : t.retval = _ := congrArg State.retval hend.1
    exact ⟨t, ht, hret ▸ hend, hret ▸ hcarry, hbytes ▸ hvalue⟩
  · obtain ⟨t, ht, hend, -⟩ := hpartly h
    exact ⟨t, ht, hend⟩

/-- Settles O22: SUBB writes the bytes of the chain that starts at 1 and returns its borrow, if `out` is clean of both
inputs. -/
theorem subbSubtractsAndReturnsTheBorrow : Obligations.SubbSubtractsAndReturnsTheBorrow := by
  intro out a b n s
  obtain ⟨hbadarg, hrange, hruns⟩ := generic_checks (i := .subb out a b n) rfl rfl (reaches_subb s out a b n)
  refine ⟨encoded_encode (.subb out a b n), hbadarg, hrange, fun hn ha hb hout => ?_⟩
  obtain ⟨hclean, hpartly⟩ := writes_if_clean (n := n.toNat) (partlyOverlaps_or_iff ..) (hruns hn ⟨ha, hb, hout⟩)
    (by simp)
  refine ⟨fun hcleanA hcleanB => ?_, fun h => ?_⟩
  · obtain ⟨t, ht, hend, hbytes⟩ := hclean ⟨hcleanA, hcleanB⟩
    obtain ⟨hvalue, hborrow⟩ := ripple_subTerms (s.readBytes_length a.toNat n.toNat) (s.readBytes_length b.toNat n.toNat)
    exact ⟨t, ht, hborrow ▸ hend, hbytes ▸ hvalue⟩
  · obtain ⟨t, ht, hend, -⟩ := hpartly h
    exact ⟨t, ht, hend⟩

end Sys2Proof.Machine
end

section
/-! PROOFS. Block compression and the digest bytes (spec/41_sha1.md R145, R146, R149). The schedule is a list that grows
by `nextScheduleWord`; the working values after `t` steps are those of its first `t` words. -/
namespace Sys2Proof.Machine

/-! ### The message schedule (R145) -/

theorem packWord_toNat (b0 b1 b2 b3 : Byte) : (packWord b0 b1 b2 b3).toNat
    = b0.toNat * 2 ^ 24 + b1.toNat * 2 ^ 16 + b2.toNat * 2 ^ 8 + b3.toNat := by
  have h0 := b0.isLt
  have h1 := b1.isLt
  have h2 := b2.isLt
  have h3 := b3.isLt
  rw [packWord, BitVec.toNat_ofNat, Nat.mod_eq_of_lt (by omega)]

theorem packWords_length : ∀ bs : List Byte, (packWords bs).length = bs.length / 4
  | _ :: _ :: _ :: _ :: bs => by
    simp only [packWords, List.length_cons, packWords_length bs]
    omega
  | [] | [_] | [_, _] | [_, _, _] => by simp [packWords]

theorem packWords_getElem? {b0 b1 b2 b3 : Byte} : ∀ {t : Nat} {bs : List Byte}, bs[4 * t]? = some b0 →
    bs[4 * t + 1]? = some b1 → bs[4 * t + 2]? = some b2 → bs[4 * t + 3]? = some b3 →
    (packWords bs)[t]? = some (packWord b0 b1 b2 b3)
  | 0, _ :: _ :: _ :: _ :: _, h0, h1, h2, h3 => by
    cases h0; cases h1; cases h2; cases h3; rfl
  | t + 1, _ :: _ :: _ :: _ :: bs, h0, h1, h2, h3 => packWords_getElem? (t := t) (bs := bs) h0 h1 h2 h3

/-- Each word but the oldest sixteen is the next word of those before it; the newest word comes first. -/
def FollowsSchedule (ws : List Word) : Prop :=
  ∀ j, j + 16 < ws.length → ws.getD j 0 = nextScheduleWord (ws.drop (j + 1))

theorem FollowsSchedule.next {ws : List Word} (h : FollowsSchedule ws) :
    FollowsSchedule (nextScheduleWord ws :: ws) := by
  intro j hj
  cases j with
  | zero => rfl
  | succ j => exact h j (by rw [List.length_cons] at hj; omega)

theorem FollowsSchedule.extend {ws : List Word} (h : FollowsSchedule ws) (k : Nat) :
    FollowsSchedule (extendSchedule k ws) := by
  induction k generalizing ws with
  | zero => exact h
  | succ k ih => exact ih h.next

theorem extendSchedule_eq_append (k : Nat) (ws : List Word) :
    ∃ newer : List Word, newer.length = k ∧ extendSchedule k ws = newer ++ ws := by
  induction k generalizing ws with
  | zero => exact ⟨[], rfl, rfl⟩
  | succ k ih =>
    obtain ⟨newer, hlen, he⟩ := ih (nextScheduleWord ws :: ws)
    exact ⟨newer ++ [nextScheduleWord ws], by rw [List.length_append, hlen]; rfl,
      by rw [extendSchedule, he, List.append_assoc]; rfl⟩

/-- The schedule is the words of the block, then 64 further ones. -/
theorem schedule_eq_append (block : List Byte) :
    ∃ later : List Word, later.length = 64 ∧ schedule block = packWords block ++ later := by
  obtain ⟨newer, hlen, he⟩ := extendSchedule_eq_append 64 (packWords block).reverse
  exact ⟨newer.reverse, by rw [List.length_reverse, hlen],
    by rw [schedule, he, List.reverse_append, List.reverse_reverse]⟩

theorem schedule_getElem?_of_bytes {block : List Byte} {t : Nat} {b0 b1 b2 b3 : Byte}
    (h0 : block[4 * t]? = some b0) (h1 : block[4 * t + 1]? = some b1) (h2 : block[4 * t + 2]? = some b2)
    (h3 : block[4 * t + 3]? = some b3) : (schedule block)[t]? = some (packWord b0 b1 b2 b3) := by
  have hword := packWords_getElem? h0 h1 h2 h3
  obtain ⟨hlt, _⟩ := List.getElem?_eq_some_iff.mp hword
  obtain ⟨later, _, he⟩ := schedule_eq_append block
  rw [he, List.getElem?_append_left hlt, hword]

section
variable {block : List Byte} (hb : block.length = 64)
include hb

theorem schedule_length : (schedule block).length = 80 := by
  obtain ⟨later, hlen, he⟩ := schedule_eq_append block
  rw [he, List.length_append, packWords_length, hb, hlen]

/-- `Wd[t]` for `t ≥ 16` (R145): read from the newest end, it stands before the words it is made of. -/
theorem schedule_recurrence {t : Nat} (h16 : 16 ≤ t) (h80 : t < 80) :
    (schedule block).getD t 0 = rotl ((schedule block).getD (t - 3) 0 ^^^ (schedule block).getD (t - 8) 0
      ^^^ (schedule block).getD (t - 14) 0 ^^^ (schedule block).getD (t - 16) 0) 1 := by
  have hlen : (extendSchedule 64 (packWords block).reverse).length = 80 := by
    rw [← List.length_reverse]; exact schedule_length hb
  have hfollows : FollowsSchedule (extendSchedule 64 (packWords block).reverse) :=
    FollowsSchedule.extend (fun j hj => by rw [List.length_reverse, packWords_length, hb] at hj; omega) 64
  have hnewest : ∀ i, i < 80 →
      (schedule block).getD i 0 = (extendSchedule 64 (packWords block).reverse).getD (79 - i) 0 := fun i hi => by
    rw [schedule, List.getD_eq_getElem?_getD, List.getD_eq_getElem?_getD, List.getElem?_reverse (by omega), hlen]
  have hnext := hfollows (79 - t) (by omega)
  simp only [nextScheduleWord, List.getD_eq_getElem?_getD, List.getElem?_drop] at hnext hnewest ⊢
  rw [hnewest t (by omega), hnewest (t - 3) (by omega), hnewest (t - 8) (by omega), hnewest (t - 14) (by omega),
    hnewest (t - 16) (by omega), hnext]
  congr 6 <;> omega

end

/-! ### The working values (R145) -/

theorem compressSteps_append (t : Nat) (ws vs : List Word) (x : HashWords) :
    compressSteps t (ws ++ vs) x = compressSteps (t + ws.length) vs (compressSteps t ws x) := by
  induction ws generalizing t x with
  | nil => rfl
  | cons w ws ih =>
    rw [List.cons_append, compressSteps, ih, compressSteps, List.length_cons, Nat.add_right_comm, Nat.add_assoc]

/-- `A` to `E` after the first `t` steps on a block. -/
def workingValues (h : HashWords) (block : List Byte) (t : Nat) : HashWords :=
  compressSteps 0 ((schedule block).take t) h

section
variable {block : List Byte} (hb : block.length = 64) (h : HashWords)
include hb

theorem workingValues_succ {t : Nat} (ht : t < 80) : workingValues h block (t + 1)
    = compressStep t ((schedule block).getD t 0) (workingValues h block t) := by
  have hlt : t < (schedule block).length := by rwa [schedule_length hb]
  rw [workingValues, List.take_succ_eq_append_getElem hlt, compressSteps_append, List.length_take,
    Nat.min_eq_left hlt.le, Nat.zero_add, List.getD_eq_getElem _ _ hlt]
  rfl

theorem compressBlock_eq : compressBlock h block = ⟨h.h0 + (workingValues h block 80).h0,
    h.h1 + (workingValues h block 80).h1, h.h2 + (workingValues h block 80).h2,
    h.h3 + (workingValues h block 80).h3, h.h4 + (workingValues h block 80).h4⟩ := by
  rw [workingValues, List.take_of_length_le (schedule_length hb).le]
  rfl

end

/-- Settles O32: the schedule and the working values of the block `BLK`. -/
theorem compressionFollowsTheSchedule : Obligations.CompressionFollowsTheSchedule := by
  intro d
  have hb : d.blk.toList.length = 64 := Vector.length_toList
  refine ⟨fun t => (schedule d.blk.toList).getD t 0, workingValues d.hash d.blk.toList, fun t ht => ?_,
    fun t => schedule_recurrence hb, rfl, fun t ht => ?_, ?_⟩
  · have hbyte : ∀ i, ∀ hi : i < 64, d.blk.toList[i]? = some d.blk[i] := fun i hi => by
      rw [List.getElem?_eq_getElem (by omega), Vector.getElem_toList]
    have hword := schedule_getElem?_of_bytes (hbyte (4 * t) (by omega)) (hbyte _ (by omega)) (hbyte _ (by omega))
      (hbyte _ ht)
    simp only [List.getD_eq_getElem?_getD, hword, Option.getD_some, packWord_toNat]
  · rw [workingValues_succ hb d.hash ht]
    exact ⟨rfl, rfl, rfl, rfl, rfl⟩
  · rw [Digest.compress, compressBlock_eq hb]

/-! ### The digest bytes (R149; 20_memory.md R67, R69) -/

theorem intBe_append (as bs : List Byte) : intBe (as ++ bs) = intBe as * 256 ^ bs.length + intBe bs := by
  rw [intBe, List.reverse_append, intLe_append, List.length_reverse, intBe, intBe]
  ring

theorem wordBytes_length (w : Word) : (wordBytes w).length = 4 := rfl

theorem wordBytes_getElem? (w : Word) : ∀ {j : Nat}, j < 4 →
    (wordBytes w)[j]? = some (w.extractLsb' (24 - 8 * j) 8)
  | 0, _ | 1, _ | 2, _ | 3, _ => rfl

theorem intBe_wordBytes (w : Word) : intBe (wordBytes w) = w.toNat := by
  have := w.isLt
  simp only [intBe, wordBytes, List.reverse_cons, List.reverse_nil, List.nil_append, List.cons_append, intLe_cons,
    intLe_nil, BitVec.extractLsb'_toNat, Nat.shiftRight_eq_div_pow]
  omega

theorem HashWords.bytes_eq_flatMap (h : HashWords) :
    h.bytes = [h.h0, h.h1, h.h2, h.h3, h.h4].flatMap wordBytes := by
  simp [HashWords.bytes]

theorem flatMap_wordBytes_getElem? {ws : List Word} {k j : Nat} {w : Word} (hw : ws[k]? = some w) (hj : j < 4) :
    (ws.flatMap wordBytes)[4 * k + j]? = some (w.extractLsb' (24 - 8 * j) 8) := by
  induction ws generalizing k with
  | nil => cases hw
  | cons v vs ih =>
    rw [List.flatMap_cons]
    cases k with
    | zero =>
      cases hw
      rw [Nat.mul_zero, Nat.zero_add, List.getElem?_append_left (by rwa [wordBytes_length]), wordBytes_getElem? _ hj]
    | succ k =>
      rw [List.getElem?_append_right (by rw [wordBytes_length]; omega), wordBytes_length, ← ih hw]
      congr 1
      omega

/-- Settles O31: the digest is the bytes of the five words one after the other. -/
theorem digestIsBigEndianWords : Obligations.DigestIsBigEndianWords := by
  intro h
  refine ⟨h.bytes_length, fun k j w hw hj => ?_, ?_⟩
  · rw [h.bytes_eq_flatMap]
    exact flatMap_wordBytes_getElem? hw hj
  · simp only [HashWords.bytes, intBe_append, intBe_wordBytes, wordBytes_length]
    ring

end Sys2Proof.Machine
end

section
/-! PROOFS. The digest commands (spec/41_sha1.md R140 to R151): what SHA_RESET, SHA_INPUT and SHA_RESULT leave, from the
three operations on the digest state, and what leads out of Corrupted. -/
namespace Sys2Proof.Machine

/-! ### SHA_RESET (R141) -/

/-- Settles O23: SHA_RESET runs `Digest.restart`, whose five fields are those of the statement. -/
theorem shaResetReturnsToIdle : Obligations.ShaResetReturnsToIdle :=
  ⟨encoded_encode .shaReset, exec_shaReset⟩

/-! ### SHA_INPUT (R142 to R144) -/

theorem reaches_shaInput (s : State) (data length : Word) :
    s.Reaches (.shaInput data length) ↔ s.Inside data length.toNat := by
  simp [State.Reaches, readRanges, writtenRanges, rangeOf]

/-- SHA_INPUT of no bytes, after finalization or while corrupted sets `COR` (R142). -/
theorem exec_shaInput_refuses {data length : Word} {s : State} (hin : s.Inside data length.toNat)
    (h : length.toNat = 0 ∨ s.digest.fin = true ∨ s.digest.cor = true) :
    exec (.shaInput data length) s
      = .next ((s.withDigest { s.digest with cor := true }).done .corrupt 0) := by
  rw [exec_shaInput hin, Digest.input_refuses (h.imp_left State.readBytes_eq_nil.mpr)]

/-- Everything SHA_INPUT of a non-empty range does to a digest state with neither flag set (R142, R143). -/
theorem exec_shaInput_open {data length : Word} {s : State} (hin : s.Inside data length.toNat)
    (hn : length.toNat ≠ 0) (hf : s.digest.fin = false) (hc : s.digest.cor = false) :
    ∃ t, exec (.shaInput data length) s = .next t ∧ t.digest.fin = false
      ∧ ((s.EndsDigesting t .ok 0 ∧ t.digest.cor = false ∧ s.digest.len.toNat + 8 * length.toNat < 2 ^ 64
            ∧ t.digest.len.toNat = s.digest.len.toNat + 8 * length.toNat)
        ∨ (s.EndsDigesting t .corrupt 0 ∧ t.digest.Corrupted
            ∧ 2 ^ 64 ≤ s.digest.len.toNat + 8 * length.toNat)) := by
  have h0 : s.readBytes data.toNat length.toNat ≠ [] := mt State.readBytes_eq_nil.mp hn
  have hopen := Digest.input_open h0 hf hc
  rw [State.readBytes_length] at hopen
  refine ⟨_, exec_shaInput hin, ?_⟩
  rcases hopen with ⟨hcode, hcor, hfin, hfit, hlen, _⟩ | ⟨hcode, hcor, hfin, hover⟩
  · rw [hcode]
    exact ⟨hfin, .inl ⟨rfl, hcor, hfit, hlen⟩⟩
  · rw [hcode]
    exact ⟨hfin, .inr ⟨rfl, hcor, hover⟩⟩

/-- Settles O24: the generic range check, the three refusals, and the overflow of the counter. -/
theorem shaInputRefusals : Obligations.ShaInputRefusals := by
  intro data length s
  refine ⟨encoded_encode (.shaInput data length),
    fun hout => fails_range rfl (mt (reaches_shaInput s data length).mp hout),
    fun hin => ⟨exec_shaInput_refuses hin, fun hf hc hover => ?_⟩⟩
  have hn : length.toNat ≠ 0 := by
    have := s.digest.len.isLt
    omega
  obtain ⟨t, ht, hfin, ⟨_, _, hfit, _⟩ | ⟨hend, hcor, _⟩⟩ := exec_shaInput_open hin hn hf hc
  · exact absurd hover (Nat.not_le.mpr hfit)
  · exact ⟨t, ht, hend, hcor, hfin⟩

@[simp] theorem Digest.store_blk (d : Digest) (b : Byte) :
    (d.store b).blk = d.blk.set d.idx.val b d.idx.isLt := by
  unfold Digest.store Digest.compress; split <;> rfl

theorem Digest.store_hash (d : Digest) (b : Byte) : (d.store b).hash
    = if d.idx.val = 63 then compressBlock d.hash (d.store b).blk.toList else d.hash := by
  have := d.idx.isLt
  rw [Digest.store_blk]
  by_cases h : d.idx.val + 1 < 64
  · rw [Digest.store_inside d b h, if_neg (by omega)]
  · rw [Digest.store_last d b (by omega), if_pos (by omega)]

/-- SHA_INPUT of one byte counts it and stores it (R142). -/
theorem Digest.input_singleton {d : Digest} (b : Byte) (hf : d.fin = false) (hc : d.cor = false)
    (hlen : d.len.toNat + 8 < 2 ^ 64) :
    d.input [b] = (.ok, Digest.store { d with len := d.len + 8 } b) := by
  rw [Digest.input_consumes (List.cons_ne_nil b []) hf hc, Digest.consume_cons d b [] hlen]
  rfl

theorem State.readBytes_one (s : State) (a : Nat) : s.readBytes a 1 = [s.omByte a] := rfl

/-- Settles O25: one byte is one `Digest.store` after the counter has grown. -/
theorem shaInputStoresOneByte : Obligations.ShaInputStoresOneByte := by
  intro data s hin hf hc hlen
  have hinput : s.digest.input (s.readBytes data.toNat 1) = _ :=
    Digest.input_singleton (s.omByte data.toNat) hf hc hlen
  have hexec := exec_shaInput (data := data) (length := 1) hin
  rw [show (1 : Word).toNat = 1 from rfl, hinput] at hexec
  refine ⟨_, hexec, rfl, ?_, ?_, ?_, ?_, ?_, ?_⟩
  · rw [State.done_digest, State.withDigest_digest, Digest.store_len]
    exact len_add_eight hlen
  · rw [State.done_digest, State.withDigest_digest, Digest.store_fin]
    exact hf
  · rw [State.done_digest, State.withDigest_digest, Digest.store_cor]
    exact hc
  · exact Digest.store_blk _ _
  · exact Digest.store_idx _ _
  · exact Digest.store_hash _ _

/-- SHA_INPUT of bytes the counter has room for (R142, R143). -/
theorem Digest.input_fits {d : Digest} {bs : List Byte} (h0 : bs ≠ []) (hf : d.fin = false) (hc : d.cor = false)
    (hfit : d.len.toNat + 8 * bs.length < 2 ^ 64) :
    (d.input bs).1 = .ok ∧ (d.input bs).2.fin = false ∧ (d.input bs).2.cor = false
      ∧ (d.input bs).2.len.toNat = d.len.toNat + 8 * bs.length := by
  rcases Digest.input_open h0 hf hc with ⟨hok, hcor, hfin, _, hlen, _⟩ | ⟨_, _, _, hover⟩
  · exact ⟨hok, hfin, hcor, hlen⟩
  · exact absurd hfit (Nat.not_lt.mpr hover)

/-- SHA_INPUT of `xs ++ ys` is SHA_INPUT of `xs` and then of `ys`, when the counter has room for `xs` (R142). -/
theorem Digest.input_append {d : Digest} {xs ys : List Byte} (hf : d.fin = false) (hc : d.cor = false)
    (hx : xs ≠ []) (hy : ys ≠ []) (hfit : d.len.toNat + 8 * xs.length < 2 ^ 64) :
    d.input (xs ++ ys) = (d.input xs).2.input ys := by
  obtain ⟨hok, hfin, hcor, _⟩ := Digest.input_fits hx hf hc hfit
  rw [Digest.input_consumes hx hf hc] at hok hfin hcor ⊢
  rw [Digest.input_consumes hy hfin hcor, Digest.input_consumes (List.append_ne_nil_of_left_ne_nil hx ys) hf hc]
  exact Digest.consume_append d xs ys hok

/-- The digest state after SHA_INPUT is set without touching `OM`. -/
theorem State.readBytes_withDigest_done (s : State) (d : Digest) (c : ResultCode) (r : Word) (a n : Nat) :
    ((s.withDigest d).done c r).readBytes a n = s.readBytes a n :=
  State.readBytes_congr rfl rfl a n

/-- Settles O26: both ways the digest state has taken in the same bytes, and nothing else distinguishes them. -/
theorem shaInputDependsOnTheConcatenation : Obligations.ShaInputDependsOnTheConcatenation := by
  intro data x y s hx hy hwrap hin hf hc hfit
  have hxy : (x + y).toNat = x.toNat + y.toNat := BitVec.toNat_add_of_lt (by omega)
  have hdx : (data + x).toNat = data.toNat + x.toNat := BitVec.toNat_add_of_lt (by omega)
  have hexecx := exec_shaInput (data := data) (length := x) (s := s) (by simp only [State.Inside] at hin ⊢; omega)
  have hexecxy := exec_shaInput (data := data) (length := x + y) (s := s) (by rwa [hxy])
  rw [hxy, s.readBytes_append] at hexecxy
  have hxs : s.readBytes data.toNat x.toNat ≠ [] := mt State.readBytes_eq_nil.mp hx
  have hys : s.readBytes (data.toNat + x.toNat) y.toNat ≠ [] := mt State.readBytes_eq_nil.mp hy
  obtain ⟨hokx, _⟩ := Digest.input_fits hxs hf hc (by rw [State.readBytes_length]; omega)
  obtain ⟨hok, _, _, hlen⟩ := Digest.input_fits (List.append_ne_nil_of_left_ne_nil hxs _) hf hc
    (by rw [← s.readBytes_append, State.readBytes_length]; exact hfit)
  have happend := Digest.input_append hf hc hxs hys (by rw [State.readBytes_length]; omega)
  rw [List.length_append, State.readBytes_length, State.readBytes_length] at hlen
  generalize s.digest.input (s.readBytes data.toNat x.toNat) = first at *
  have hexecy := exec_shaInput (data := data + x) (length := y) (s := (s.withDigest first.2).done .ok 0)
    (by rw [State.Inside, hdx, Nat.add_assoc]; exact hin)
  rw [hdx, State.readBytes_withDigest_done, State.done_digest, State.withDigest_digest, ← happend] at hexecy
  rw [hokx] at hexecx
  exact ⟨_, _, hexecx, hexecy, hexecxy, hok, hlen⟩

/-! ### SHA_RESULT (R147 to R150) -/

theorem reaches_shaResult (s : State) (out : Word) : s.Reaches (.shaResult out) ↔ s.Inside out 20 := by
  simp [State.Reaches, readRanges, writtenRanges, Config.digestSize]

theorem fails_shaResult_corrupted {out : Word} {s : State} (hin : s.Inside out 20) (hc : s.digest.Corrupted) :
    Fails (.shaResult out) s .corrupt := by
  rw [Fails, exec_shaResult hin, Digest.result_corrupted hc, if_neg nofun]
  rfl

/-- SHA_RESULT repeats the digest of a finalized state (R150). -/
theorem exec_shaResult_repeats {out : Word} {s : State} (hin : s.Inside out 20) (hfinal : s.digest.Finalized) :
    ∃ t, exec (.shaResult out) s = .next t ∧ s.EndsWriting t 1 out.toNat 20
      ∧ t.readBytes out.toNat 20 = s.digest.hash.bytes := by
  obtain ⟨hc, hf⟩ := hfinal
  refine writes_bytes ?_ (HashWords.bytes_length _)
  rw [exec_shaResult hin, Digest.result_final hc hf, if_pos rfl]
  rfl

/-- SHA_RESULT on a digest state with neither flag set pads it, sets `FIN` and delivers the new `H` (R147, R148). -/
theorem exec_shaResult_pads {out : Word} {s : State} (hin : s.Inside out 20) (hc : s.digest.cor = false)
    (hf : s.digest.fin = false) :
    ∃ t, exec (.shaResult out) s = .next t ∧ { s with digest := t.digest }.EndsWriting t 1 out.toNat 20
      ∧ t.digest.Finalized ∧ t.digest.len = s.digest.len ∧ t.digest.hash = s.digest.pad.hash
      ∧ t.readBytes out.toNat 20 = t.digest.hash.bytes := by
  refine ⟨_, exec_shaResult_open hin hc hf,
    endsWriting_done (s.withDigest { s.digest.pad with fin := true }) _ _ _ _ (HashWords.bytes_length _), ?_⟩
  rw [State.done_digest, State.writeBytes_digest, State.withDigest_digest, Digest.finalized_hash,
    Digest.finalized_len, Digest.pad_len]
  refine ⟨⟨?_, Digest.mk_fin ..⟩, rfl, rfl, ?_⟩
  · rw [Digest.finalized_cor, Digest.pad_cor, hc]
  · rw [State.readBytes_done, State.readBytes_writeBytes' _ (HashWords.bytes_length _)]

/-- Settles O28, by the three cases of `sha_result()`; the message held is digested by `Digest.Holds.pad`. -/
theorem shaResultDeliversTheDigest : Obligations.ShaResultDeliversTheDigest := by
  intro out s
  refine ⟨encoded_encode (.shaResult out), fun hout => fails_range rfl (mt (reaches_shaResult s out).mp hout),
    fun hin => ⟨fails_shaResult_corrupted hin, exec_shaResult_repeats hin, fun hc hf => ?_⟩⟩
  obtain ⟨t, ht, hend, hfinal, _, hhash, hbytes⟩ := exec_shaResult_pads hin hc hf
  exact ⟨t, ht, hend, hfinal, hbytes, fun m hm => by rw [hhash, hm.pad, sha1]⟩

/-- Settles O29: `H` is that of `Digest.pad_hash`, in one block or two. -/
theorem shaResultPadsTheBlock : Obligations.ShaResultPadsTheBlock := by
  intro out s hin hc hf
  obtain ⟨t, ht, _, _, hlen, hhash, _⟩ := exec_shaResult_pads hin hc hf
  rw [Digest.pad_hash] at hhash
  refine ⟨t, ht, hlen, fun h55 => ?_, fun h56 => ?_⟩
  · rw [hhash, if_pos (by omega)]
    simp only [List.append_assoc, List.cons_append, List.nil_append]
  · rw [hhash, if_neg (by omega)]
    simp only [List.append_assoc, List.cons_append, List.nil_append]

/-! ### The digest state machine (R140) -/

/-- SHA_RESULT from Idle or Accumulating finalizes the message held (R140, R147). -/
theorem exec_shaResult_finalizes {out : Word} {s : State} (hin : s.Inside out 20) (hc : s.digest.cor = false)
    (hf : s.digest.fin = false) :
    ∃ t, exec (.shaResult out) s = .next t ∧ t.code = .ok ∧ t.digest.Finalized
      ∧ ∀ m, s.digest.Holds m → t.digest.hash.bytes = sha1 m := by
  obtain ⟨t, ht, ⟨hend, _⟩, hfinal, _, hhash, _⟩ := exec_shaResult_pads hin hc hf
  exact ⟨t, ht, (congrArg State.code hend :), hfinal, fun m hm => by rw [hhash, hm.pad, sha1]⟩

/-- A command that ends with `RANGE` has failed the generic checks (R140). -/
theorem exec_range_digest {i : Instr} {s t : State} (h : exec i s = .next t) (hcode : t.code = .range) :
    t.digest = s.digest := by
  obtain ⟨_, _, hchecked⟩ := genericChecksComeFirst i s t h
  rw [hchecked (.inr hcode)]

/-- Settles O33: each transition is that of one command on one kind of digest state. -/
theorem digestStateTransitions : Obligations.DigestStateTransitions := by
  intro data length out s
  refine ⟨⟨_, exec_shaReset s, rfl, rfl, rfl, rfl⟩, fun hin => ⟨fun hopen => ?_, fun hflag => ?_⟩,
    fun hin => ⟨fun hidle => ?_, fun hacc => ?_, fun hfinal => ?_, fun hcor => ?_⟩, fun i t => exec_range_digest⟩
  · have hflags : s.digest.cor = false ∧ s.digest.fin = false := by
      rcases hopen with ⟨hc, hf, _⟩ | ⟨hc, hf, _⟩
      · exact ⟨hc, hf⟩
      · exact ⟨hc, hf⟩
    obtain ⟨hc, hf⟩ := hflags
    obtain ⟨_, _, hinside⟩ := shaInputRefusals data length s
    obtain ⟨hrefuses, hoverflow⟩ := hinside hin
    refine ⟨fun hn hfit => ?_, fun h => ?_⟩
    · obtain ⟨t, ht, hfin, ⟨hend, hcor, _, hlen⟩ | ⟨_, _, hover⟩⟩ := exec_shaInput_open hin hn hf hc
      · exact ⟨t, ht, (congrArg State.code hend :), hcor, hfin, by omega⟩
      · exact absurd hfit (Nat.not_lt.mpr hover)
    · rcases h with h0 | hover
      · exact ⟨_, hrefuses (.inl h0), rfl, rfl⟩
      · obtain ⟨t, ht, hend, hcor, _⟩ := hoverflow hf hc hover
        exact ⟨t, ht, (congrArg State.code hend :), hcor⟩
  · have hrefused : s.digest.fin = true ∨ s.digest.cor = true := hflag.imp_left And.right
    exact ⟨_, exec_shaInput_refuses hin (.inr hrefused), rfl, rfl⟩
  · obtain ⟨hc, hf, _⟩ := hidle
    obtain ⟨t, ht, hcode, hfinal, hdigest⟩ := exec_shaResult_finalizes hin hc hf
    exact ⟨t, ht, hcode, hfinal, hdigest []⟩
  · obtain ⟨hc, hf, _⟩ := hacc
    obtain ⟨t, ht, hcode, hfinal, _⟩ := exec_shaResult_finalizes hin hc hf
    exact ⟨t, ht, hcode, hfinal⟩
  · obtain ⟨t, ht, ⟨hend, _⟩, _⟩ := exec_shaResult_repeats hin hfinal
    exact ⟨t, ht, (congrArg State.code hend :), (congrArg State.digest hend :)⟩
  · exact ⟨_, fails_shaResult_corrupted hin hcor, rfl, rfl⟩

/-! ### Corrupted (R151) -/

theorem Digest.corrupt_of_corrupted {d : Digest} (h : d.Corrupted) : { d with cor := true } = d := by
  obtain ⟨_, _, _, _, _, c⟩ := d
  cases h
  rfl

theorem fails_shaInput_corrupted {data length : Word} {s : State} (hin : s.Inside data length.toNat)
    (hc : s.digest.Corrupted) : Fails (.shaInput data length) s .corrupt := by
  rw [Fails, exec_shaInput_refuses hin (.inr (.inr hc)), Digest.corrupt_of_corrupted hc]
  rfl

/-- The commands that restart the digest state: SHA_RESET and the verifying ones, by their internal reset. -/
def restartsDigest : Instr → Bool
  | .shaReset | .dsavfy _ _ _ _ | .ksvvfy _ _ | .srmvfy _ _ => true
  | _ => false

theorem restartsDigest_cases {i : Instr} (h : restartsDigest i = true) :
    i = .shaReset ∨ (∃ m k r g, i = .dsavfy m k r g) ∨ (∃ b k, i = .ksvvfy b k) ∨ ∃ b k, i = .srmvfy b k := by
  cases i with
  | shaReset => exact .inl rfl
  | dsavfy m k r g => exact .inr (.inl ⟨m, k, r, g, rfl⟩)
  | ksvvfy b k => exact .inr (.inr (.inl ⟨b, k, rfl⟩))
  | srmvfy b k => exact .inr (.inr (.inr ⟨b, k, rfl⟩))
  | _ => cases h

theorem encodeWord_of_restartsDigest {i : Instr} (h : restartsDigest i = true) :
    encodeWord i ∈ ([0x10, 0x40, 0x41, 0x42] : List Word) := by
  rcases restartsDigest_cases h with rfl | ⟨m, k, r, g, rfl⟩ | ⟨b, k, rfl⟩ | ⟨b, k, rfl⟩
  all_goals simp [encodeWord]

theorem DigestEffect.corrupted {i : Instr} {s t : State} (h : DigestEffect s t i) (hs : s.digest.Corrupted)
    (hi : restartsDigest i = false) : t.digest.Corrupted := by
  cases i with
  | shaReset | dsavfy | ksvvfy | srmvfy => cases hi
  | shaInput data length => rw [h.1, Digest.input_refuses (.inr (.inr hs))]
  | shaResult out => rw [h.1, Digest.result_corrupted hs]; exact hs
  | _ => rw [h.1]; exact hs

theorem exec_corrupted {i : Instr} {s t : State} (h : exec i s = .next t) (hs : s.digest.Corrupted)
    (hi : restartsDigest i = false) : t.digest.Corrupted := by
  rcases exec_inv h with ⟨_, rfl⟩ | ⟨_, _, rfl⟩ | ⟨_, _, he⟩
  · exact hs
  · exact hs
  · exact he.digest.corrupted hs hi

/-- A command after which the digest state is no longer Corrupted restarts it. -/
theorem restartsDigest_of_exec {i : Instr} {s t : State} (h : exec i s = .next t) (hs : s.digest.Corrupted)
    (ht : ¬t.digest.Corrupted) : restartsDigest i = true := by
  by_contra hi
  exact ht (exec_corrupted h hs (by simpa using hi))

/-- Settles O34, by the cases of a step: only a command and a hardware reset touch the digest state. -/
theorem corruptedIsTerminal : Obligations.CorruptedIsTerminal := by
  intro s hs
  refine ⟨fun _ _ hin => fails_shaInput_corrupted hin hs, fun _ hin => fails_shaResult_corrupted hin hs,
    fun i t h ht => restartsDigest_cases (restartsDigest_of_exec h hs ht), fun t h ht => ?_⟩
  rcases step_cases h with ⟨_, rfl⟩ | ⟨x, rest, hhost, hx⟩
  · exact absurd hs ht
  · refine ⟨rest, ?_⟩
    rcases hx with ⟨a, v, rfl⟩ | ⟨w, i, rfl, hw, he⟩ | ⟨w, _, rfl⟩ | ⟨a, b, _, rfl⟩ | ⟨a, g, rfl⟩ | ⟨rfl, _⟩
    · exact absurd hs ht
    · obtain ⟨rfl, _⟩ := decode_inv hw
      exact .inr ⟨_, encodeWord_of_restartsDigest (restartsDigest_of_exec he hs ht), hhost⟩
    · exact absurd hs ht
    · exact absurd hs ht
    · exact absurd hs ht
    · exact .inl hhost

end Sys2Proof.Machine
end

section
/-! PROOFS. The big-integer commands (spec/42_bigint.md): MAC is one carry chain, MUL is one pass of it for each byte of
`b`, DIV is its identity (R175). The generic checks and the endings are those of the byte-array commands. -/
namespace Sys2Proof.Machine

/-! The ranges of each command lie inside `OM` (30_encoding.md R97). -/

theorem reaches_mac (s : State) (window a : Word) (scalar : Byte) (n : Word) :
    s.Reaches (.mac window a scalar n) ↔ s.Inside a n.toNat ∧ s.Inside window n.toNat := by
  simp [State.Reaches, readRanges, writtenRanges, rangeOf]

theorem reaches_mul (s : State) (out a b n : Word) :
    s.Reaches (.mul out a b n) ↔ s.Inside a n.toNat ∧ s.Inside b n.toNat ∧ s.Inside out (2 * n.toNat) := by
  simp [State.Reaches, readRanges, writtenRanges, rangeOf]

/-- DIV reads and writes the ranges MUL does. -/
theorem reaches_div (s : State) (out dividend divisor n : Word) : s.Reaches (.div out dividend divisor n) ↔
    s.Inside dividend n.toNat ∧ s.Inside divisor n.toNat ∧ s.Inside out (2 * n.toNat) :=
  reaches_mul s out dividend divisor n

/-! ### MAC (R171) -/

/-- The byte operand as a number: the upper bits of its register are ignored (30_encoding.md R94). -/
theorem byteOperand_toNat (v : Word) : (byteOperand v).toNat = v.toNat % 256 := by
  simp [byteOperand]

/-- One pass on two `n`-byte numbers: the new window is the sum modulo `256^n`, the returned carry byte its quotient. -/
theorem macPass_value {ws as : List Byte} {n : Nat} (hw : ws.length = n) (ha : as.length = n) (scalar : Byte) :
    intLe (macPass ws as scalar).1 = (intLe ws + intLe as * scalar.toNat) % 256 ^ n
      ∧ (carryRet (macPass ws as scalar).2).toNat = (intLe ws + intLe as * scalar.toNat) / 256 ^ n := by
  have hlen : ws.length = as.length := hw.trans ha.symm
  obtain ⟨-, -, hbyte⟩ := macPass_spec scalar hlen
  obtain ⟨hvalue, hcarry⟩ := ripple_value (macTerms ws as scalar) 0
  rw [sumLe_macTerms scalar hlen, macTerms_length, hw, ha, min_self, Nat.add_zero] at hvalue hcarry
  refine ⟨hvalue, ?_⟩
  rw [carryRet, BitVec.toNat_ofNat, Nat.mod_eq_of_lt (hbyte.trans (by norm_num))]
  exact hcarry

/-- Settles O35: MAC writes the window of one pass and returns its carry byte, if the window is clean of `a`. -/
theorem macAddsTheProduct : Obligations.MacAddsTheProduct := by
  intro window a v n s
  obtain ⟨hbadarg, hrange, hruns⟩ :=
    generic_checks (i := .mac window a (byteOperand v) n) rfl rfl (reaches_mac ..)
  refine ⟨encoded_of rfl fun g hg => ?_, hbadarg, hrange, fun hn ha hwindow => ?_⟩
  · simp [decodeOp, opField, byteOperand, hg 0 _ _ rfl, hg 1 _ _ rfl, hg 2 _ _ rfl, hg 3 _ _ rfl]
  have hlenW := s.readBytes_length window.toNat n.toNat
  have hlenA := s.readBytes_length a.toNat n.toNat
  obtain ⟨hclean, hpartly⟩ := writes_if_clean (n := n.toNat) (partlyOverlaps_iff ..) (hruns hn ⟨ha, hwindow⟩)
    ((macPass_spec _ (hlenW.trans hlenA.symm)).1.trans hlenA)
  refine ⟨fun h => ?_, fun h => ?_⟩
  · obtain ⟨t, ht, hend, hbytes⟩ := hclean h
    obtain ⟨hvalue, hcarry⟩ := macPass_value hlenW hlenA (byteOperand v)
    rw [byteOperand_toNat] at hvalue hcarry
    have hret : t.retval = _ := congrArg State.retval hend.1
    exact ⟨t, ht, hret ▸ hend, hret ▸ hcarry, hbytes ▸ hvalue⟩
  · obtain ⟨t, ht, hend, -⟩ := hpartly h
    exact ⟨t, ht, hend⟩

/-! ### MUL (R172, R173) -/

/-- The output of MUL overlaps one of the two inputs unless it is apart from both (R173). -/
theorem overlap_or_iff {out a b n : Nat} (hn : n ≠ 0) : (overlap out (2 * n) a n || overlap out (2 * n) b n) = true
    ↔ ¬(Apart out (2 * n) a n ∧ Apart out (2 * n) b n) := by
  rw [Bool.or_eq_true, overlap_iff _ _ _ _ (by omega) (by omega), overlap_iff _ _ _ _ (by omega) (by omega),
    not_and_or]

/-- Settles O36: past the overlap test MUL writes the exact product of the passes (`mulBytes_spec`). -/
theorem mulIsExactOrAliased : Obligations.MulIsExactOrAliased := by
  intro out a b n s
  obtain ⟨hbadarg, hrange, hruns⟩ := generic_checks (i := .mul out a b n) rfl rfl (reaches_mul s out a b n)
  refine ⟨encoded_encode (.mul out a b n), hbadarg, hrange, fun hn ha hb hout => ?_⟩
  have hrun := hruns hn ⟨ha, hb, hout⟩
  have halias := overlap_or_iff (out := out.toNat) (a := a.toNat) (b := b.toNat) hn
  refine ⟨fun hoverlap => ?_, fun hapartA hapartB => ?_⟩
  · rwa [if_pos (halias.mpr hoverlap)] at hrun
  · rw [if_neg (mt halias.mp (not_not_intro ⟨hapartA, hapartB⟩))] at hrun
    obtain ⟨hproduct, hlength⟩ := mulBytes_spec (s.readBytes a.toNat n.toNat) (s.readBytes b.toNat n.toNat)
    rw [State.readBytes_length, State.readBytes_length, ← two_mul] at hlength
    obtain ⟨t, ht, hend, hbytes⟩ := writes_bytes hrun hlength
    exact ⟨t, ht, hend, hbytes ▸ hproduct⟩

/-! ### DIV (R174 to R176) -/

/-- Settles O37: remainder and quotient are at most the dividend, so each fits its `n` bytes (R175). -/
theorem divGivesRemainderAndQuotient : Obligations.DivGivesRemainderAndQuotient := by
  intro out dividend divisor n s
  obtain ⟨hbadarg, hrange, hruns⟩ :=
    generic_checks (i := .div out dividend divisor n) rfl rfl (reaches_div s out dividend divisor n)
  refine ⟨encoded_encode (.div out dividend divisor n), hbadarg, hrange, fun hn hdividend hdivisor hout => ?_⟩
  have hrun := hruns hn ⟨hdividend, hdivisor, hout⟩
  refine ⟨fun hzero => ?_, fun hnonzero => ?_⟩
  · rwa [if_pos hzero] at hrun
  · rw [if_neg hnonzero] at hrun
    have hlt := intLe_lt (s.readBytes dividend.toNat n.toNat)
    rw [State.readBytes_length] at hlt
    obtain ⟨hremainder, hquotient⟩ := State.readBytes_writeBytes_append (s := s) (a := out.toNat)
      (leBytes_length n.toNat (intLe (s.readBytes dividend.toNat n.toNat) % intLe (s.readBytes divisor.toNat n.toNat)))
      (leBytes_length n.toNat (intLe (s.readBytes dividend.toNat n.toNat) / intLe (s.readBytes divisor.toNat n.toNat)))
    refine ⟨_, hrun, endsWriting_done _ _ _ _ _ (by simp [two_mul]), ?_, ?_⟩
    · rw [State.readBytes_done, hremainder, intLe_leBytes_of_lt ((Nat.mod_le ..).trans_lt hlt)]
    · rw [State.readBytes_done, hquotient, intLe_leBytes_of_lt ((Nat.div_le_self ..).trans_lt hlt)]

end Sys2Proof.Machine
end

section
/-! PROOFS. The modular commands (spec/43_modular.md): MODRED, MODMUL and MODEXP write a residue of the modulus they
share, MODINV the canonical inverse; the last statement is the law between the two (R199). -/
namespace Sys2Proof.Machine

/-! ### The generic checks (30_encoding.md R92, R96, R97) -/

/-- The generic checks of a command whose lengths are legal exactly if `L` and whose ranges lie inside `OM` exactly if
`P`: its two failures, and past them its own rule. -/
theorem generic_checks_iff {i : Instr} {body : State → State} {s : State} {L P : Prop}
    (he : exec i s = .next (issue i body s)) (hw : i.wellFormed = true ↔ L) (hr : s.Reaches i ↔ P) :
    (¬L → Fails i s .badarg) ∧ (L → ¬P → Fails i s .range) ∧ (L → P → exec i s = .next (body s)) :=
  ⟨fun hL => fails_badarg (Bool.eq_false_of_not_eq_true (mt hw.mp hL)),
    fun hL hP => fails_range (hw.mpr hL) (mt hr.mp hP), fun hL hP => exec_runs he (hw.mpr hL) (hr.mpr hP)⟩

/-- Two lengths of a modular command are legal together (R96). -/
theorem wfLengthUpTo_and_iff (k l : Nat) (n v : Word) : (wfLengthUpTo k n && wfLengthUpTo l v) = true
    ↔ 1 ≤ n.toNat ∧ n.toNat ≤ k ∧ 1 ≤ v.toNat ∧ v.toNat ≤ l := by
  rw [Bool.and_eq_true, wfLengthUpTo_iff, wfLengthUpTo_iff, and_assoc]

theorem reaches_modred (s : State) (out value modulus n vlen : Word) :
    s.Reaches (.modred out value modulus n vlen)
      ↔ s.Inside value vlen.toNat ∧ s.Inside modulus n.toNat ∧ s.Inside out n.toNat := by
  simp [State.Reaches, readRanges, writtenRanges, rangeOf]

theorem reaches_modmul (s : State) (out a b modulus n : Word) : s.Reaches (.modmul out a b modulus n)
    ↔ s.Inside a n.toNat ∧ s.Inside b n.toNat ∧ s.Inside modulus n.toNat ∧ s.Inside out n.toNat := by
  simp [State.Reaches, readRanges, writtenRanges, rangeOf]

theorem reaches_modexp (s : State) (out base exponent modulus n k : Word) :
    s.Reaches (.modexp out base exponent modulus n k)
      ↔ s.Inside base n.toNat ∧ s.Inside exponent k.toNat ∧ s.Inside modulus n.toNat ∧ s.Inside out n.toNat := by
  simp [State.Reaches, readRanges, writtenRanges, rangeOf]

theorem reaches_modinv (s : State) (out value modulus n : Word) : s.Reaches (.modinv out value modulus n)
    ↔ s.Inside value n.toNat ∧ s.Inside modulus n.toNat ∧ s.Inside out n.toNat := by
  simp [State.Reaches, readRanges, writtenRanges, rangeOf]

/-! ### Writing a number (R190) -/

theorem State.intLe_readBytes_lt (s : State) (a n : Nat) : intLe (s.readBytes a n) < 256 ^ n := by
  simpa using intLe_lt (s.readBytes a n)

/-- A command that ends with `OK` after writing a number that fits: the range denotes it, nothing else changed. -/
theorem writes_number {i : Instr} {s : State} {w n v : Nat} {ret : Word}
    (he : exec i s = .next ((s.writeBytes w (leBytes n v)).done .ok ret)) (hv : v < 256 ^ n) :
    ∃ t, exec i s = .next t ∧ s.EndsWriting t ret w n ∧ intLe (t.readBytes w n) = v := by
  obtain ⟨t, ht, hend, hbytes⟩ := writes_bytes he (leBytes_length n v)
  exact ⟨t, ht, hend, by rw [hbytes, intLe_leBytes_of_lt hv]⟩

/-- The two endings of a command that reduces `x` by an `n`-byte modulus: `ZERO`, or the residue, which fits because it
lies below the modulus. -/
theorem writes_residue {i : Instr} {s : State} {w n x m : Nat} (hm : m < 256 ^ n) (he : exec i s = .next
      (if m = 0 then s.fail .zero else (s.writeBytes w (leBytes n (x % m))).done .ok 0)) :
    (m = 0 → Fails i s .zero)
      ∧ (m ≠ 0 → ∃ t, exec i s = .next t ∧ s.EndsWriting t 0 w n ∧ intLe (t.readBytes w n) = x % m) := by
  refine ⟨fun hzero => ?_, fun hnonzero => ?_⟩
  · rwa [if_pos hzero] at he
  · rw [if_neg hnonzero] at he
    exact writes_number he ((Nat.mod_lt x (Nat.pos_of_ne_zero hnonzero)).trans hm)

/-! ### MODRED, MODMUL and MODEXP (R191, R193 to R195) -/

/-- Settles O38: the residue of the value. -/
theorem modredReduces : Obligations.ModredReduces := by
  intro out value modulus n vlen s
  obtain ⟨hbadarg, hrange, hruns⟩ := generic_checks_iff (i := .modred out value modulus n vlen) rfl
    (wfLengthUpTo_and_iff 128 256 n vlen) (reaches_modred ..)
  exact ⟨encoded_encode (.modred out value modulus n vlen), hbadarg, fun hn hn' hv hv' =>
    ⟨hrange ⟨hn, hn', hv, hv'⟩, fun hvalue hmodulus hout =>
      writes_residue (s.intLe_readBytes_lt ..) (hruns ⟨hn, hn', hv, hv'⟩ ⟨hvalue, hmodulus, hout⟩)⟩⟩

/-- Settles O39: the residue of the product. -/
theorem modmulMultiplies : Obligations.ModmulMultiplies := by
  intro out a b modulus n s
  obtain ⟨hbadarg, hrange, hruns⟩ := generic_checks_iff (i := .modmul out a b modulus n) rfl
    (wfLengthUpTo_iff 128 n) (reaches_modmul ..)
  exact ⟨encoded_encode (.modmul out a b modulus n), hbadarg, fun hn hn' =>
    ⟨hrange ⟨hn, hn'⟩, fun ha hb hmodulus hout =>
      writes_residue (s.intLe_readBytes_lt ..) (hruns ⟨hn, hn'⟩ ⟨ha, hb, hmodulus, hout⟩)⟩⟩

/-- The scan over all the bits of a `k`-byte exponent is the power (R194, R195). -/
theorem powMod_readBytes (s : State) (x m a k : Nat) :
    powMod x (intLe (s.readBytes a k)) m (8 * k) = x ^ intLe (s.readBytes a k) % m := by
  have hbits : intLe (s.readBytes a k) < 2 ^ (8 * k) := by
    rw [pow_mul]
    exact s.intLe_readBytes_lt a k
  exact powMod_eq hbits

/-- Settles O40: the residue of the power, which the scan computes (`powMod_readBytes`). -/
theorem modexpExponentiates : Obligations.ModexpExponentiates := by
  intro out base exponent modulus n k s
  obtain ⟨hbadarg, hrange, hruns⟩ := generic_checks_iff (i := .modexp out base exponent modulus n k) rfl
    (wfLengthUpTo_and_iff 128 128 n k) (reaches_modexp ..)
  refine ⟨encoded_encode (.modexp out base exponent modulus n k), hbadarg, fun hn hn' hk hk' =>
    ⟨hrange ⟨hn, hn', hk, hk'⟩, fun hbase hexponent hmodulus hout => ?_⟩⟩
  have hrun := hruns ⟨hn, hn', hk, hk'⟩ ⟨hbase, hexponent, hmodulus, hout⟩
  simp only [powMod_readBytes] at hrun
  exact writes_residue (s.intLe_readBytes_lt ..) hrun

/-! ### MODINV (R196, R197) -/

theorem modInverse_zero {a m : Nat} (h : a = 0 ∨ m = 0) : modInverse a m = .error .zero := by
  rcases h with rfl | rfl
  · rfl
  · simp [modInverse]

theorem modInverse_notless {a m : Nat} (ha : a ≠ 0) (hm : m ≠ 0) (h : m ≤ a) :
    modInverse a m = .error .notless := by
  simp [modInverse, ha, hm, h]

theorem modInverse_noinv {a m : Nat} (ha : a ≠ 0) (hlt : a < m) (hgcd : Nat.gcd a m ≠ 1) :
    modInverse a m = .error .noinv := by
  have hm : m ≠ 0 := by omega
  simp [modInverse, ha, hm, not_le.mpr hlt, euclid_gcd hlt, hgcd]

/-- Past the checks of R196 there is an inverse in `(0, M)`. -/
theorem modInverse_coprime {a m : Nat} (ha : a ≠ 0) (hlt : a < m) (hgcd : Nat.gcd a m = 1) :
    ∃ x, modInverse a m = .ok x ∧ 0 < x ∧ x < m ∧ a * x % m = 1 := by
  rcases modInverse_spec a m with ⟨h, -⟩ | ⟨-, h, -⟩ | ⟨-, -, h, -⟩ | ⟨-, -, h, -⟩ | ⟨-, -, -, h⟩
  · exact absurd h ha
  · omega
  · omega
  · exact absurd hgcd h
  · exact h

/-- Settles O41: each answer of `modInverse` is the ending of the command, and the inverse fits because it lies below
the modulus. -/
theorem modinvInverts : Obligations.ModinvInverts := by
  rintro out value modulus n s a m rfl rfl
  obtain ⟨hbadarg, hrange, hruns⟩ := generic_checks_iff (i := .modinv out value modulus n) rfl
    (wfLengthUpTo_iff 128 n) (reaches_modinv ..)
  refine ⟨encoded_encode (.modinv out value modulus n), hbadarg, fun hn hn' =>
    ⟨hrange ⟨hn, hn'⟩, fun hvalue hmodulus hout => ?_⟩⟩
  have hrun := hruns ⟨hn, hn'⟩ ⟨hvalue, hmodulus, hout⟩
  refine ⟨fun hzero => ?_, fun ha hm hle => ?_, fun ha hlt hgcd => ?_, fun ha hlt hgcd => ?_⟩
  · rwa [modInverse_zero hzero] at hrun
  · rwa [modInverse_notless ha hm hle] at hrun
  · rwa [modInverse_noinv ha hlt hgcd] at hrun
  · obtain ⟨x, hx, hpos, hxm, hinverse⟩ := modInverse_coprime ha hlt hgcd
    rw [hx] at hrun
    obtain ⟨t, ht, hend, hread⟩ := writes_number hrun (hxm.trans (s.intLe_readBytes_lt ..))
    exact ⟨t, ht, hend, hread.symm ▸ ⟨hpos, hxm, hinverse⟩⟩

/-! ### A value times its inverse (R199) -/

/-- A command that fails does not end with `OK`. -/
theorem code_ne_ok_of_fails {i : Instr} {s t : State} {c : ResultCode} (hf : Fails i s c) (hc : c ≠ .ok)
    (h : exec i s = .next t) : t.code ≠ .ok := by
  obtain rfl := exec_det hf h
  exact hc

/-- What a MODINV that ended with `OK` tells: its checks passed, and its output is the inverse. -/
theorem modinv_ok_inv {out value modulus n : Word} {s t : State}
    (h : exec (.modinv out value modulus n) s = .next t) (hok : t.code = .ok) :
    (1 ≤ n.toNat ∧ n.toNat ≤ 128) ∧ (s.Inside value n.toNat ∧ s.Inside modulus n.toNat ∧ s.Inside out n.toNat)
      ∧ s.EndsWriting t 1 out.toNat n.toNat ∧ intLe (s.readBytes modulus.toNat n.toNat) ≠ 0
      ∧ intLe (s.readBytes value.toNat n.toNat) * intLe (t.readBytes out.toNat n.toNat)
          % intLe (s.readBytes modulus.toNat n.toNat) = 1 := by
  obtain ⟨-, hbadarg, hlegal⟩ := modinvInverts out value modulus n s _ _ rfl rfl
  by_cases hn : 1 ≤ n.toNat ∧ n.toNat ≤ 128
  swap
  · exact absurd hok (code_ne_ok_of_fails (hbadarg hn) (by decide) h)
  obtain ⟨hrange, hinside⟩ := hlegal hn.1 hn.2
  by_cases hin : s.Inside value n.toNat ∧ s.Inside modulus n.toNat ∧ s.Inside out n.toNat
  swap
  · exact absurd hok (code_ne_ok_of_fails (hrange hin) (by decide) h)
  obtain ⟨hvalue, hmodulus, hout⟩ := hin
  obtain ⟨hzero, hnotless, hnoinv, hinverts⟩ := hinside hvalue hmodulus hout
  rcases modInverse_spec (intLe (s.readBytes value.toNat n.toNat)) (intLe (s.readBytes modulus.toNat n.toNat)) with
    ⟨ha, -⟩ | ⟨-, hm, -⟩ | ⟨ha, hm, hle, -⟩ | ⟨ha, hlt, hgcd, -⟩ | ⟨ha, hlt, hgcd, -⟩
  · exact absurd hok (code_ne_ok_of_fails (hzero (.inl ha)) (by decide) h)
  · exact absurd hok (code_ne_ok_of_fails (hzero (.inr hm)) (by decide) h)
  · exact absurd hok (code_ne_ok_of_fails (hnotless ha hm hle) (by decide) h)
  · exact absurd hok (code_ne_ok_of_fails (hnoinv ha hlt hgcd) (by decide) h)
  · obtain ⟨u, hu, hend, -, -, hinverse⟩ := hinverts ha hlt hgcd
    obtain rfl := exec_det hu h
    exact ⟨hn, ⟨hvalue, hmodulus, hout⟩, hend, by omega, hinverse⟩

/-- A range apart from the written one reads as before. -/
theorem readBytes_of_endsWriting {s t : State} {ret : Word} {w k a n : Nat} (h : s.EndsWriting t ret w k)
    (hapart : Apart w k a n) : t.readBytes a n = s.readBytes a n :=
  State.readBytes_eq fun x hlow hhigh => h.2 x (by omega)

/-- Settles O42: MODMUL reads the value, its inverse and the modulus as MODINV had them. -/
theorem valueTimesItsInverseIsOne : Obligations.ValueTimesItsInverseIsOne := by
  intro inv out value modulus n s t h hok hapartV hapartM hout
  obtain ⟨⟨hn, hn'⟩, ⟨hvalue, hmodulus, hinv⟩, hend, hm, hinverse⟩ := modinv_ok_inv h hok
  have hparams : t.params = s.params := (congrArg State.params hend.1 :)
  have hinside : ∀ x : Word, s.Inside x n.toNat → t.Inside x n.toNat := fun x hx => by
    rwa [State.Inside, hparams]
  rw [← readBytes_of_endsWriting hend hapartV, ← readBytes_of_endsWriting hend hapartM] at hinverse
  rw [← readBytes_of_endsWriting hend hapartM] at hm
  obtain ⟨-, -, hlegal⟩ := modmulMultiplies out value inv modulus n t
  obtain ⟨-, hreaches⟩ := hlegal hn hn'
  obtain ⟨-, hmultiplies⟩ :=
    hreaches (hinside _ hvalue) (hinside _ hinv) (hinside _ hmodulus) (hinside _ hout)
  obtain ⟨u, hu, hendU, hproduct⟩ := hmultiplies hm
  exact ⟨u, hu, (congrArg State.code hendU.1 :), hproduct.trans hinverse⟩

end Sys2Proof.Machine
end

section
/-! PROOFS. The verifying commands (spec/44_dsa.md): the seven steps of R221 as a command runs them, what a signature
they accept satisfies, and that a verdict does not depend on the digest state the command starts from. -/
namespace Sys2Proof.Machine

/-! ### The seven steps (R221 to R224) -/

theorem reaches_dsavfy (s : State) (message mlen r g : Word) : s.Reaches (.dsavfy message mlen r g)
    ↔ s.Inside message mlen.toNat ∧ s.Inside r 20 ∧ s.Inside g 20 := by
  simp [State.Reaches, readRanges, writtenRanges, rangeOf, Config.sigSize]

/-- A range read through a length operand is shorter than the messages SHA-1 can count (41_sha1.md R143). -/
theorem State.readBytes_length_lt (s : State) (a : Nat) {k : Nat} (n : Word) (hk : k ≤ n.toNat) :
    (s.readBytes a k).length < 2 ^ 61 := by
  have hn : n.toNat < 2 ^ 32 := n.isLt
  rw [State.readBytes_length]
  omega

/-- A command that ends as `dsaVerify` answers on a message of representable length runs the seven steps: one clause
for each answer of the inversion of step 2 and, past it, for each ending of the later steps. -/
theorem dsaSteps_of_exec {i : Instr} {s : State} {msg rw sw : List Byte} {v : ResultCode × Word × Digest}
    (hl : msg.length < 2 ^ 61) (hv : v = dsaVerify s.params s.digest msg rw sw)
    (he : exec i s = .next ((s.withDigest v.2.2).done v.1 v.2.1)) : DsaSteps i s msg rw sw := by
  have hfails {c : ResultCode} (h : modInverse (intBe sw) s.params.q.toNat = .error c) : Fails i s c := by
    rw [dsaVerify_error h] at hv
    subst hv
    exact he
  refine ⟨fun hs => hfails (modInverse_zero (.inl hs)), fun hq => hfails (modInverse_zero (.inr hq)),
    fun hs hq hle => hfails (modInverse_notless hs hq hle),
    fun hlt hs hgcd => hfails (modInverse_noinv hs hlt hgcd), fun hs hlt hgcd => ?_⟩
  obtain ⟨w, hw, -, hwq, hinverse⟩ := modInverse_coprime hs hlt hgcd
  have hq : 0 < s.params.q.toNat := Nat.zero_lt_of_lt hlt
  refine ⟨fun h0 => ?_, fun h0 hp => ?_, fun h0 hp => ?_⟩
  · subst h0
    rw [dsaVerify_empty hw] at hv
    subst hv
    exact ⟨_, he, rfl, rfl⟩
  all_goals
    rw [dsaVerify_runs hw hq h0 hl] at hv
    obtain ⟨-, -, hfin, hcor, hhash⟩ := s.digest.run_spec msg h0 hl
    generalize (s.digest.run msg).2.2 = d at hv hfin hcor hhash
    have hbytes : d.hash.bytes = sha1 msg := congrArg HashWords.bytes hhash
  · rw [if_pos hp] at hv
    subst hv
    exact ⟨_, he, rfl, ⟨hcor, hfin⟩, hbytes⟩
  · rw [if_neg hp] at hv
    subst hv
    refine ⟨_, w, he, hwq, hinverse, ?_, ⟨hcor, hfin⟩, hbytes⟩
    simp only [boolRet, decide_eq_true_eq]
    rfl

/-- Settles O43: past the generic checks the command ends as `dsaVerify` answers (`dsaSteps_of_exec`). -/
theorem dsavfyRunsTheSevenSteps : Obligations.DsavfyRunsTheSevenSteps := by
  intro message mlen r g s
  refine ⟨encoded_encode (.dsavfy message mlen r g),
    fun hout => fails_range rfl (mt (reaches_dsavfy ..).mp hout), fun hmessage hr hg => ?_⟩
  obtain ⟨v, hv, he⟩ := exec_dsavfy hmessage hr hg
  exact dsaSteps_of_exec (s.readBytes_length_lt _ mlen le_rfl) hv he

/-! ### What an accepted signature satisfies (R225) -/

/-- A command that fails returns 0. -/
theorem retval_eq_zero_of_fails {i : Instr} {s t : State} {c : ResultCode} (hf : Fails i s c)
    (h : exec i s = .next t) : t.retval = 0 := by
  obtain rfl := exec_det hf h
  rfl

/-- Of the endings of the seven steps only the last returns anything but 0, and only where the comparison holds: `r` is
then a residue modulo `Q`. -/
theorem DsaSteps.accepted {i : Instr} {s t : State} {msg rw sw : List Byte} (hsteps : DsaSteps i s msg rw sw)
    (h : exec i s = .next t) (hret : t.retval ≠ 0) :
    t.retval = 1 ∧ t.code = .ok ∧ msg ≠ [] ∧ 0 < intBe sw ∧ intBe sw < s.params.q.toNat
      ∧ intBe rw < s.params.q.toNat ∧ s.params.p.toNat ≠ 0 := by
  obtain ⟨hzero, hzeroQ, hnotless, hnoinv, hruns⟩ := hsteps
  rcases modInverse_spec (intBe sw) s.params.q.toNat with
    ⟨hs, -⟩ | ⟨-, hq, -⟩ | ⟨hs, hq, hle, -⟩ | ⟨hs, hlt, hgcd, -⟩ | ⟨hs, hlt, hgcd, -⟩
  · exact absurd (retval_eq_zero_of_fails (hzero hs) h) hret
  · exact absurd (retval_eq_zero_of_fails (hzeroQ hq) h) hret
  · exact absurd (retval_eq_zero_of_fails (hnotless hs hq hle) h) hret
  · exact absurd (retval_eq_zero_of_fails (hnoinv hlt hs hgcd) h) hret
  obtain ⟨hempty, hzeroP, hverdict⟩ := hruns hs hlt hgcd
  have hreturns {u : State} {c : ResultCode} {ret : Word} (hu : exec i s = .next u)
      (hend : s.EndsDigesting u c ret) : t.code = c ∧ t.retval = ret := by
    obtain rfl := exec_det hu h
    exact ⟨congrArg State.code hend, congrArg State.retval hend⟩
  by_cases h0 : msg = []
  · obtain ⟨u, hu, hend, -⟩ := hempty h0
    exact absurd (hreturns hu hend).2 hret
  by_cases hp : s.params.p.toNat = 0
  · obtain ⟨u, hu, hend, -⟩ := hzeroP h0 hp
    exact absurd (hreturns hu hend).2 hret
  obtain ⟨u, w, hu, -, -, hend, -⟩ := hverdict h0 hp
  obtain ⟨hcode, hone⟩ := hreturns hu hend
  split at hone
  · rename_i hcomparison
    have hr : intBe rw < s.params.q.toNat := hcomparison ▸ Nat.mod_lt _ (Nat.zero_lt_of_lt hlt)
    exact ⟨hone, hcode, h0, Nat.pos_of_ne_zero hs, hlt, hr, hp⟩
  · exact absurd hone hret

/-- Settles O46: DSAVFY returned something but 0, so its ranges lie inside `OM` and its seven steps accepted. -/
theorem acceptedSignatureIsInRange : Obligations.AcceptedSignatureIsInRange := by
  intro message mlen r g s t h hret
  obtain ⟨-, hrange, hsteps⟩ := dsavfyRunsTheSevenSteps message mlen r g s
  by_cases hin : s.Inside message mlen.toNat ∧ s.Inside r 20 ∧ s.Inside g 20
  · obtain ⟨hmessage, hr, hg⟩ := hin
    obtain ⟨hone, hok, hne, hrest⟩ := DsaSteps.accepted (hsteps hmessage hr hg) h hret
    exact ⟨hone, hok, fun hlen => hne (State.readBytes_eq_nil.mpr hlen), hrest⟩
  · exact absurd (retval_eq_zero_of_fails (hrange hin) h) hret

/-! ### The verdict and the digest state (R226; 45_validators.md R240) -/

/-- Two next states report the same code and the same return value. -/
abbrev SameResult (t u : State) : Prop := u.code = t.code ∧ u.retval = t.retval

theorem sameResult_done {s u : State} {c c' : ResultCode} {r r' : Word} (h : c' = c ∧ r' = r) :
    SameResult (s.done c r) (u.done c' r') := h

theorem sameResult_fail (s u : State) (c : ResultCode) : SameResult (s.fail c) (u.fail c) := ⟨rfl, rfl⟩

/-- Two branches on conditions that agree. -/
theorem sameResult_ite {p q : Prop} [Decidable p] [Decidable q] {s s' u u' : State} (hpq : q ↔ p)
    (hpos : p → SameResult s u) (hneg : ¬p → SameResult s' u') :
    SameResult (if p then s else s') (if q then u else u') := by
  by_cases h : p
  · rw [if_pos h, if_pos (hpq.mpr h)]
    exact hpos h
  · rw [if_neg h, if_neg (mt hpq.mp h)]
    exact hneg h

/-- The generic checks read `OM_SIZE` alone (30_encoding.md R92). -/
theorem issue_sameResult {i : Instr} {body : State → State} {s u : State} (hp : u.params = s.params)
    (hbody : SameResult (body s) (body u)) : SameResult (issue i body s) (issue i body u) :=
  sameResult_ite Iff.rfl (fun _ => sameResult_fail ..) fun _ =>
    sameResult_ite (by rw [hp]) (fun _ => sameResult_fail ..) fun _ => hbody

/-- `sha1_run` starts with a reset: its code and its digest do not depend on the digest state before it
(41_sha1.md R153). -/
theorem Digest.run_output (d e : Digest) {m : List Byte} (hl : m.length < 2 ^ 61) :
    (e.run m).1 = (d.run m).1 ∧ (e.run m).2.1 = (d.run m).2.1 := by
  by_cases h0 : m = []
  · subst h0
    rw [Digest.run_empty, Digest.run_empty]
    exact ⟨rfl, rfl⟩
  · obtain ⟨hd, hd', -⟩ := d.run_spec m h0 hl
    obtain ⟨he, he', -⟩ := e.run_spec m h0 hl
    exact ⟨he.trans hd.symm, he'.trans hd'.symm⟩

/-- Nor does what the seven steps answer. -/
theorem dsaVerify_output (k : Config.Params) (d e : Digest) {msg : List Byte} (rw sw : List Byte)
    (hl : msg.length < 2 ^ 61) : (dsaVerify k e msg rw sw).1 = (dsaVerify k d msg rw sw).1
      ∧ (dsaVerify k e msg rw sw).2.1 = (dsaVerify k d msg rw sw).2.1 := by
  obtain ⟨hcode, hbytes⟩ := d.run_output e hl
  unfold dsaVerify
  split
  · exact ⟨rfl, rfl⟩
  · simp only [hcode, hbytes]
    split
    · split
      · exact ⟨rfl, rfl⟩
      · exact ⟨rfl, rfl⟩
    · exact ⟨rfl, rfl⟩

/-- States that read the same sequence from a range read the same from every part of it. -/
theorem State.readBytes_part {s u : State} {a n b m : Nat} (h : u.readBytes a n = s.readBytes a n) (hlo : a ≤ b)
    (hhi : b + m ≤ a + n) : u.readBytes b m = s.readBytes b m := by
  refine State.readBytes_eq fun x hx hx' => ?_
  obtain ⟨j, rfl⟩ := Nat.exists_eq_add_of_le (hlo.trans hx)
  have hj : j < (s.readBytes a n).length := by rw [State.readBytes_length]; omega
  rw [State.omByte_of_readBytes h hj, State.readBytes_getElem]

/-- What a verifying command reports is fixed by the parameters and the bytes of its read ranges: its own rule reads
nothing else but the digest state, which it resets. -/
theorem sameResult_of_reads {i : Instr} {s u t v : State}
    (hi : (∃ m k r g, i = .dsavfy m k r g) ∨ (∃ b k, i = .ksvvfy b k) ∨ ∃ b k, i = .srmvfy b k)
    (hp : u.params = s.params)
    (hreads : ∀ x ∈ readRanges i, u.readBytes x.start x.length = s.readBytes x.start x.length)
    (ht : exec i s = .next t) (hv : exec i u = .next v) : SameResult t v := by
  suffices hbody : ∃ body, (∀ x, exec i x = .next (issue i body x)) ∧ SameResult (body s) (body u) by
    obtain ⟨body, hx, hresult⟩ := hbody
    obtain rfl := exec_det (hx s) ht
    obtain rfl := exec_det (hx u) hv
    exact issue_sameResult hp hresult
  rcases hi with ⟨m, k, r, g, rfl⟩ | ⟨b, k, rfl⟩ | ⟨b, k, rfl⟩
  · refine ⟨_, fun _ => rfl, ?_⟩
    simp only [readRanges, rangeOf, List.forall_mem_cons, List.not_mem_nil] at hreads
    obtain ⟨hmsg, hr, hg, -⟩ := hreads
    simp only [hp, hmsg, hr, hg]
    exact sameResult_done (dsaVerify_output _ _ _ _ _ (s.readBytes_length_lt _ k le_rfl))
  · refine ⟨_, fun _ => rfl, ?_⟩
    have hblob : u.readBytes b.toNat k.toNat = s.readBytes b.toNat k.toNat :=
      hreads _ (List.mem_singleton.mpr rfl)
    simp only [Config.ksvHeaderSize, Config.digestSize]
    refine sameResult_ite Iff.rfl (fun _ => sameResult_fail ..) fun hlong => ?_
    obtain ⟨hcode, hbytes⟩ := s.digest.run_output u.digest
      (s.readBytes_length_lt b.toNat k (Nat.sub_le k.toNat 20))
    have hmsg := State.readBytes_part (b := b.toNat) (m := k.toNat - 20) hblob le_rfl (by omega)
    have htail := State.readBytes_part (b := b.toNat + (k.toNat - 20)) (m := 20) hblob (by omega) (by omega)
    exact sameResult_ite (by rw [hmsg, hcode])
      (fun _ => sameResult_done ⟨rfl, by rw [hmsg, htail, hbytes]⟩) fun _ => sameResult_fail ..
  · refine ⟨_, fun _ => rfl, ?_⟩
    have hblob : u.readBytes b.toNat k.toNat = s.readBytes b.toNat k.toNat :=
      hreads _ (List.mem_singleton.mpr rfl)
    simp only [Config.sigSize]
    refine sameResult_ite (by rw [hp]) (fun _ => sameResult_fail ..) fun hlong => ?_
    have hmsg := State.readBytes_part (b := b.toNat) (m := k.toNat - 2 * 20) hblob le_rfl (by omega)
    have hr := State.readBytes_part (b := b.toNat + (k.toNat - 2 * 20)) (m := 20) hblob (by omega) (by omega)
    have hs := State.readBytes_part (b := b.toNat + (k.toNat - 2 * 20) + 20) (m := 20) hblob (by omega) (by omega)
    rw [hp, hmsg, hr, hs]
    exact sameResult_done (dsaVerify_output _ _ _ _ _ (s.readBytes_length_lt _ k (Nat.sub_le ..)))

/-- Settles O47: the code and the return value are what `sameResult_of_reads` compares. -/
theorem verdictDependsOnlyOnTheBytes : Obligations.VerdictDependsOnlyOnTheBytes :=
  fun _ _ _ _ _ => sameResult_of_reads

end Sys2Proof.Machine
end

section
/-! PROOFS. The list and message validators (spec/45_validators.md R236, R238): the generic range check, the test for a
blob too short, and past both the digest of KSVVFY or the seven steps of SRMVFY (44_dsa.md R221). -/
namespace Sys2Proof.Machine

/-! ### The checks of a blob (R236, R238) -/

theorem reaches_ksvvfy (s : State) (blob blen : Word) :
    s.Reaches (.ksvvfy blob blen) ↔ s.Inside blob blen.toNat := by
  simp [State.Reaches, readRanges, writtenRanges, rangeOf]

/-- SRMVFY reads the range KSVVFY does. -/
theorem reaches_srmvfy (s : State) (blob blen : Word) :
    s.Reaches (.srmvfy blob blen) ↔ s.Inside blob blen.toNat :=
  reaches_ksvvfy s blob blen

/-- A command without a length to check whose ranges lie inside `OM` exactly if `P`, and whose own rule first refuses a
length `k` below `limit`: its two failures, and past them the rest `t` of its rule. -/
theorem range_then_short {i : Instr} {body : State → State} {s t : State} {P : Prop} {k limit : Nat}
    (he : exec i s = .next (issue i body s)) (hw : i.wellFormed = true) (hr : s.Reaches i ↔ P)
    (hbody : body s = if k < limit then s.fail .short else t) :
    (¬P → Fails i s .range) ∧ (P → k < limit → Fails i s .short) ∧ (P → limit ≤ k → exec i s = .next t) := by
  refine ⟨fun hP => fails_range hw (mt hr.mp hP), fun hP hshort => ?_, fun hP hlong => ?_⟩
  · rw [if_pos hshort] at hbody
    exact (exec_runs he hw (hr.mpr hP)).trans (congrArg _ hbody)
  · rw [if_neg (Nat.not_lt.mpr hlong)] at hbody
    exact (exec_runs he hw (hr.mpr hP)).trans (congrArg _ hbody)

/-! ### KSVVFY (R236, R240) -/

/-- A command that ends with the digest of `msg` compared to `tail`: `CORRUPT` is not reached, because a non-empty
message of representable length is always digested (41_sha1.md R153). -/
theorem digest_verdict {i : Instr} {s : State} {msg tail : List Byte} (h0 : msg ≠ []) (hl : msg.length < 2 ^ 61)
    (he : exec i s = .next (if (s.digest.run msg).1 = .ok
      then (s.withDigest (s.digest.run msg).2.2).done .ok (boolRet ((s.digest.run msg).2.1 == tail))
      else (s.withDigest (s.digest.run msg).2.2).fail .corrupt)) :
    ∃ t, exec i s = .next t ∧ s.EndsDigesting t .ok (if sha1 msg = tail then 1 else 0)
      ∧ t.digest.Finalized ∧ t.digest.hash.bytes = sha1 msg := by
  obtain ⟨hok, hdigest, hfin, hcor, hhash⟩ := s.digest.run_spec msg h0 hl
  rw [if_pos hok, hdigest] at he
  refine ⟨_, he, ?_, ⟨hcor, hfin⟩, congrArg HashWords.bytes hhash⟩
  simp only [boolRet, beq_iff_eq]
  rfl

/-- Settles O44: past its checks the blob leaves at least ten bytes to digest (`digest_verdict`). -/
theorem ksvvfyChecksTheTrailingDigest : Obligations.KsvvfyChecksTheTrailingDigest := by
  intro blob blen s
  obtain ⟨hrange, hshort, hruns⟩ := range_then_short (i := .ksvvfy blob blen) (limit := 30) rfl rfl
    (reaches_ksvvfy s blob blen) rfl
  refine ⟨encoded_encode (.ksvvfy blob blen), hrange, hshort, fun hin hlong => ?_⟩
  have hmsg : s.readBytes blob.toNat (blen.toNat - 20) ≠ [] := mt State.readBytes_eq_nil.mp (by omega)
  exact digest_verdict hmsg (s.readBytes_length_lt _ blen (Nat.sub_le ..)) (hruns hin hlong)

/-! ### SRMVFY (R238, R240) -/

/-- Settles O45: past its checks the command ends as `dsaVerify` answers on the three parts of the blob, of which the
last begins 20 bytes past the second (`dsaSteps_of_exec`). -/
theorem srmvfyChecksTheSignature : Obligations.SrmvfyChecksTheSignature := by
  intro blob blen s
  obtain ⟨hrange, hshort, hruns⟩ := range_then_short (i := .srmvfy blob blen)
    (limit := s.params.srmMinHeader + 40) rfl rfl (reaches_srmvfy s blob blen) rfl
  refine ⟨encoded_encode (.srmvfy blob blen), hrange, hshort, fun hin hlong => ?_⟩
  have hsig : blob.toNat + (blen.toNat - 20) = blob.toNat + (blen.toNat - 40) + 20 := by omega
  -- The lengths as numerals: the unifier would run `dsaVerify` to compare them.
  have hrun := hruns hin hlong
  simp only [Config.sigSize, Nat.reduceMul] at hrun
  rw [hsig]
  exact dsaSteps_of_exec (s.readBytes_length_lt _ blen (Nat.sub_le ..)) rfl hrun

end Sys2Proof.Machine
end

section
/-! PROOFS. The result codes (spec/60_exceptions.md): every access with a meaning and every idle moment has a next
state (R250, R260), a command that fails writes no byte of `OM` and returns 0 (R251, R255), and each command ends with a
code of its row of the table (R253). What one command does is read off its `Effect`. -/
namespace Sys2Proof.Machine

/-! ### A failing command (R251, R255) -/

/-- SHA_INPUT fails only by corrupting the digest state (41_sha1.md R142, R143). -/
theorem Digest.corrupted_of_input_fails {d : Digest} {bs : List Byte} (h : (d.input bs).1 ≠ .ok) :
    (d.input bs).2.Corrupted := by
  by_cases hr : bs = [] ∨ d.fin = true ∨ d.cor = true
  · rw [Digest.input_refuses hr]
  · simp only [not_or, Bool.not_eq_true] at hr
    obtain ⟨h0, hf, hc⟩ := hr
    rcases Digest.input_open h0 hf hc with ⟨hok, _⟩ | ⟨_, hcor, _⟩
    · exact absurd hok h
    · exact hcor

/-- SHA_RESULT fails only on a corrupted digest state, which it keeps (41_sha1.md R147). -/
theorem Digest.result_fails_keeps {d : Digest} (h : d.result.1 ≠ .ok) : d.result.2 = d := by
  cases hc : d.cor with
  | true => rw [Digest.result_corrupted hc]
  | false =>
    cases hf : d.fin with
    | true => rw [Digest.result_final hc hf]
    | false => exact absurd (by rw [Digest.result_pads hc hf]) h

/-- A verifying command that fails has left the digest state alone, found the message empty, or met a zero `P` after
the digest (44_dsa.md R222, R223). -/
theorem VerifyEffect.failing {s t : State} (h : VerifyEffect s t) (hc : t.code ≠ .ok) :
    t.digest = s.digest ∨ (t.code = .corrupt ∧ t.digest.Corrupted ∨ t.code = .zero ∧ t.digest.Finalized) := by
  rcases h with ⟨e, _⟩ | ⟨e, hcorrupt⟩ | ⟨hzero | hok, hfinal, _⟩
  · exact .inl e
  · exact .inr (.inl ⟨hcorrupt, by rw [e]⟩)
  · exact .inr (.inr ⟨hzero, hfinal⟩)
  · exact absurd hok hc

/-- What a failing command does to the digest state (R255). -/
theorem DigestEffect.failing {i : Instr} {s t : State} (h : DigestEffect s t i) (hc : t.code ≠ .ok) :
    t.digest = s.digest
      ∨ ((∃ d n, i = .shaInput d n) ∧ t.digest.Corrupted)
      ∨ (((∃ m k r g, i = .dsavfy m k r g) ∨ ∃ b k, i = .srmvfy b k)
          ∧ (t.code = .corrupt ∧ t.digest.Corrupted ∨ t.code = .zero ∧ t.digest.Finalized)) := by
  cases i with
  | shaReset => exact absurd h.2 hc
  | shaInput data length =>
    obtain ⟨hdigest, hcode⟩ := h
    rw [hcode] at hc
    exact .inr (.inl ⟨⟨data, length, rfl⟩, hdigest ▸ Digest.corrupted_of_input_fails hc⟩)
  | shaResult out =>
    obtain ⟨hdigest, hcode⟩ := h
    rw [hcode] at hc
    exact .inl (hdigest.trans (Digest.result_fails_keeps hc))
  | dsavfy m k r g => exact (h.1.failing hc).imp_right fun hv => .inr ⟨.inl ⟨m, k, r, g, rfl⟩, hv⟩
  | ksvvfy b k =>
    rcases h with ⟨e, _⟩ | ⟨hok, _⟩
    · exact .inl e
    · exact absurd hok hc
  | srmvfy b k => exact (VerifyEffect.failing h hc).imp_right fun hv => .inr ⟨.inr ⟨b, k, rfl⟩, hv⟩
  | _ => exact .inl h.1

/-- Settles O50: a failed check changes the result registers alone, and past the checks `Effect.failing` keeps the
memory and `DigestEffect.failing` says the rest. -/
theorem failingCommandWritesNothing : Obligations.FailingCommandWritesNothing := by
  intro i s t h hc
  rcases exec_inv h with ⟨_, rfl⟩ | ⟨_, _, rfl⟩ | ⟨_, _, he⟩
  · exact ⟨rfl, .inl rfl⟩
  · exact ⟨rfl, .inl rfl⟩
  · obtain ⟨hom, hret, hoverlaps⟩ := he.failing hc
    have hframe := he.frame
    rw [hom, hret, hoverlaps] at hframe
    exact ⟨hframe, he.digest.failing hc⟩

/-! ### The code table (R253) -/

/-- The codes of DSAVFY's steps, with the `SHORT` of SRMVFY (44_dsa.md R222, 45_validators.md R238). -/
theorem VerifyEffect.code_mem {s t : State} (h : VerifyEffect s t) :
    t.code ∈ [ResultCode.ok, .short, .zero, .notless, .noinv, .corrupt] := by
  rcases h with ⟨_, hc | hc | hc | hc⟩ | ⟨_, hc⟩ | ⟨hc | hc, _⟩
  all_goals rw [hc]; decide

/-- Settles O51, by the three ways a command goes: `BADARG` needs a length operand, `RANGE` a range, and past the
checks the code is that of the command's `DigestEffect`. -/
theorem commandsEndOnlyWithTheirCodes : Obligations.CommandsEndOnlyWithTheirCodes := by
  intro i s t h
  rcases exec_inv h with ⟨hw, rfl⟩ | ⟨_, hr, rfl⟩ | ⟨_, _, he⟩
  · cases i with
    | shaReset | shaInput | shaResult | dsavfy | ksvvfy | srmvfy => cases hw
    | _ => simp
  · cases i with
    | shaReset => exact absurd (by simp [State.Reaches, readRanges, writtenRanges]) hr
    | _ => simp
  · have hd := he.digest
    cases i with
    | shaInput data length =>
      rw [hd.2]
      rcases s.digest.input_code (s.readBytes data.toNat length.toNat) with hc | hc
      all_goals simp [hc]
    | shaResult out =>
      rw [hd.2]
      rcases s.digest.result_code with hc | hc
      all_goals simp [hc]
    | mul | div | modred | modmul | modexp =>
      rcases hd.2 with hc | hc
      all_goals simp [hc]
    | modinv =>
      rcases hd.2 with hc | hc | hc | hc
      all_goals simp [hc]
    | dsavfy =>
      obtain ⟨hv, hshort⟩ := hd
      simpa [hshort] using List.mem_append_left [.range] hv.code_mem
    | ksvvfy b k =>
      rcases hd with ⟨_, hc⟩ | ⟨hc, _⟩
      all_goals simp [hc]
    | srmvfy => exact List.mem_append_left [.range] (VerifyEffect.code_mem hd)
    | _ => simp [hd.2]

/-! ### After a write of `CMD` (R251) -/

theorem exec_retval_zero {i : Instr} {s t : State} (h : exec i s = .next t) (hc : t.code ≠ .ok) : t.retval = 0 :=
  (congrArg State.retval (failingCommandWritesNothing i s t h hc).1 :)

/-- Everything a write of `CMD` can do: run the command of the word, or end with `ILLEGAL` (30_encoding.md R92, R98). -/
theorem issueCommand_cases (w : Word) (s : State) :
    (∃ i, decode w s.arg = .ok i ∧ issueCommand w s = exec i (s.withCmd w))
    ∨ ((∃ e, decode w s.arg = .error e) ∧ issueCommand w s = .next ((s.withCmd w).fail .illegal)) := by
  cases hd : decode w s.arg with
  | ok i => exact .inl ⟨i, rfl, by simp [issueCommand, hd]⟩
  | error e => exact .inr ⟨⟨e, rfl⟩, by simp [issueCommand, hd]⟩

/-- Settles O52: an illegal word returns 0, and so does a failing command. -/
theorem nonzeroRetvalMeansOk : Obligations.NonzeroRetvalMeansOk := by
  intro s t w rest h ht hret
  have hissue : issueCommand w (s.withHost rest) = .next t := (step_write h rfl).symm.trans ht
  rcases issueCommand_cases w (s.withHost rest) with ⟨i, _, hrun⟩ | ⟨_, hillegal⟩
  · by_contra hc
    exact hret (exec_retval_zero (hrun.symm.trans hissue) hc)
  · cases hillegal.symm.trans hissue
    exact absurd rfl hret

/-! ### Every step that has a meaning completes (R250, R260, R301) -/

/-- Settles O14: with no access to come a step is the identity. -/
theorem idleEngineKeepsItsState : Obligations.IdleEngineKeepsItsState := by
  intro s h
  simp [step, hostStep, h]

theorem issueCommand_completes (w : Word) (s : State) : ∃ t, issueCommand w s = .next t := by
  rcases issueCommand_cases w s with ⟨i, _, hrun⟩ | ⟨_, hillegal⟩
  · obtain ⟨_, he⟩ := exec_eq_issue i (s.withCmd w)
    exact ⟨_, hrun.trans he⟩
  · exact ⟨_, hillegal⟩

/-- A host write completes at every offset: only that of `CMD` does more than update a register or a byte. -/
theorem hostWrite_completes (offset : Nat) (data : Word) (s : State) : ∃ t, hostWrite offset data s = .next t := by
  unfold hostWrite
  split
  case h_1 => exact issueCommand_completes data s
  all_goals exact ⟨_, rfl⟩

/-- Settles O11, by the host's next access. -/
theorem everyDefinedAccessCompletes : Obligations.EveryDefinedAccessCompletes := by
  intro s hread hwrite
  cases hhost : s.host with
  | nil => exact ⟨s, idleEngineKeepsItsState s hhost⟩
  | cons x rest =>
    cases x with
    | read bytes offset =>
      obtain ⟨rfl, hoffset⟩ := hread bytes offset rest hhost
      exact ⟨_, step_read hhost ((accessDefined_iff 4 offset).mpr ⟨rfl, hoffset⟩)⟩
    | write bytes offset data =>
      obtain ⟨rfl, hoffset⟩ := hwrite bytes offset data rest hhost
      rw [step_write hhost ((accessDefined_iff 4 offset).mpr ⟨rfl, hoffset⟩)]
      exact hostWrite_completes offset data _
    | hardReset => exact ⟨(s.withHost rest).hardReset, by simp [step, hostStep, hhost, performAccess]⟩

end Sys2Proof.Machine
end

section
/-! PROOFS. Hardware reset (spec/70_reset_and_hazards.md R280, R281): the step that performs it, whatever the state
before, ends with the values of the reset state (10_state.md R41), which are read off `resetHasTheTabledValues`. -/
namespace Sys2Proof.Machine

/-- A step on a hardware reset takes that entry off the host's list and resets (R280). -/
theorem step_hardReset {s : State} {rest : List HostAccess} (h : s.host = .hardReset :: rest) :
    step s = .next (s.withHost rest).hardReset := by
  simp [step, hostStep, h, performAccess]

/-- `STATUS` reads 0 while the code is `OK` and neither flag is set (10_state.md R24). -/
theorem State.status_eq_zero {s : State} (hcode : s.code = .ok) (hfin : s.digest.fin = false)
    (hcor : s.digest.cor = false) : s.status = 0 := by
  apply BitVec.eq_of_toNat_eq
  rw [State.status_toNat, hcode, hfin, hcor]
  rfl

/-- Settles O13: a reset leaves each tabled value as the reset state has it, and so `STATUS` 0; the parameters and
the host's list are its own. -/
theorem hardwareResetClears : Obligations.HardwareResetClears := by
  intro s rest h
  obtain ⟨hcmd, hcode, hretval, homAddr, harg, hidle, hidx, hhash⟩ := resetHasTheTabledValues
  have hstatus : (s.withHost rest).hardReset.status = 0 := by
    obtain ⟨hcor, hfin, _⟩ := hidle
    exact State.status_eq_zero hcode hfin hcor
  exact ⟨(s.withHost rest).hardReset, step_hardReset h, hcmd, hcode, hretval, homAddr, harg, hstatus, hidle, hidx,
    hhash, rfl, rfl⟩

end Sys2Proof.Machine
end
